-- ==== Sys2Proof/Word.lean ====
section
/-! DEFINITION. The word types of the engine: bytes, the 64-bit bus and command word, the
32-bit round-key word, the container of one wide register, and the 16-byte block. -/

namespace Sys2Proof

/-- One byte of a byte-structured register (R82). -/
abbrev Byte := BitVec 8

/-- One 64-bit word: the host data width and the command-word width (R10). -/
abbrev Word := BitVec 64

/-- One word of the round-key schedule, byte 0 in bits [31:24] (R48, R315). -/
abbrev KeyWord := BitVec 32

/-- The container of one wide register: each has a fixed 64-byte window, room for L = 8 limbs
(R88).  The limbs at and above L hold 0 and read 0 (R83). -/
abbrev Wide := BitVec 512

/-- Sixteen bytes, byte 0 first: a block of the cipher or a 16-byte register (R39-R43). -/
abbrev Block := Vector Byte 16

end Sys2Proof
end

