-- ==== Sys2Proof/Config.lean ====
section
/-! DEFINITION. The parameters of one engine instance that are not state: the limb count L, the
widths derived from it, and the window's base address (R8, R9, R11), and the fixed sizes (R10). -/

namespace Sys2Proof

/-- The OPEN parameters of R8 and R11, as plain data.  Each value of this type is a legal
instance: `limbsLessOne` runs over 0..7, so L runs over 1..8, and the base is a whole number of
8 KiB windows.  DESIGN CHOICE (log 1): the parameters stand in `State.config`, so that every
statement about all states is a statement about all instances.  Safe: no step changes them. -/
structure Config where
  /-- L - 1 (R8: 1 ≤ L ≤ 8). -/
  limbsLessOne : Fin 8
  /-- BASE / 0x2000 (R11: BASE is a multiple of 0x2000). -/
  window : Nat
  deriving DecidableEq, Repr

/-- L, the number of 64-bit limbs of every wide value (R8). -/
def Config.limbs (c : Config) : Nat := c.limbsLessOne.val + 1

/-- W = 64·L, the width in bits of every wide value (R9). -/
def Config.width (c : Config) : Nat := 64 * c.limbs

/-- R = 2^W, the Montgomery radix (R9). -/
def Config.radix (c : Config) : Nat := 2 ^ c.width

/-- BASE, the physical address of the window (R11). -/
def Config.base (c : Config) : Nat := 0x2000 * c.window

/-- The size of the register window, 8 KiB (R10, R88). -/
def Config.windowBytes : Nat := 0x2000

/-- MSGBUF_BYTES (R10). -/
def Config.msgbufBytes : Nat := 1024

/-- The instance that `State.reset` describes: L = 1 and BASE = 0.  DESIGN CHOICE (log 2): the
spec leaves both open; L = 1 is what its own programs start from. -/
def Config.standard : Config := { limbsLessOne := 0, window := 0 }

end Sys2Proof
end

