-- ==== Sys2Proof/Syntax.lean ====
section
/-! DEFINITION. The 37 commands of the opcode map (R125), one constructor each, with their operands
in the assembler's order (R131). -/

namespace Sys2Proof

/-- A slot index: 4 bits, all values legal, naming S[0..15] (R122). -/
abbrev Slot := Fin 16

/-- A point index: only 0..3 are legal, naming PT[0..3] (R122). -/
abbrev PointIx := Fin 4

/-- An immediate: IMM, an unsigned 16-bit number (R122, R124). -/
abbrev Imm := BitVec 16

/-- One command with its operands.  A constructor's arguments are the fields D, E, A, B, N, IMM in
the order of R131: destinations first, then sources. -/
inductive Instr where
  /-- R160 -/
  | nop
  /-- R161 -/
  | zeroize
  /-- R162 -/
  | mov (d a : Slot)
  /-- R180 -/
  | add (d a b : Slot)
  /-- R181 -/
  | sub (d a b : Slot)
  /-- R182: `d` takes the low half, `e` the high half. -/
  | mul (d e a b : Slot)
  /-- R183 -/
  | cmpeq (d a b : Slot)
  /-- R184 -/
  | cmplt (d a b : Slot)
  /-- R185: `a` is the source, `b` the mask. -/
  | cmov (d a b : Slot)
  /-- R186 -/
  | shl (d a : Slot) (k : Imm)
  /-- R187 -/
  | shr (d a : Slot) (k : Imm)
  /-- R188 -/
  | getbit (d a : Slot) (k : Imm)
  /-- R220 -/
  | addmod (d a b n : Slot)
  /-- R221 -/
  | submod (d a b n : Slot)
  /-- R222: `a` is the low half, `b` the high half. -/
  | modred (d a b n : Slot)
  /-- R223: `d` takes the quotient, `e` the remainder. -/
  | divmod (d e a n : Slot)
  /-- R224: `a` is the base, `b` the exponent. -/
  | modexp (d a b n : Slot)
  /-- R225 -/
  | modinv (d a n : Slot)
  /-- R250 -/
  | montsetup (d n : Slot)
  /-- R251: `e` is n'. -/
  | montmul (d a b n e : Slot)
  /-- R252 -/
  | tomont (d a n : Slot)
  /-- R253: `e` is n'. -/
  | frommont (d a n e : Slot)
  /-- R273 -/
  | pinf (d : PointIx)
  /-- R274 -/
  | pmov (d a : PointIx)
  /-- R275 -/
  | pneg (d a : PointIx)
  /-- R276 -/
  | pdbl (d a : PointIx)
  /-- R277 -/
  | padd (d a b : PointIx)
  /-- R278: `a` is the scalar's slot, `b` the base point. -/
  | pmul (d : PointIx) (a : Slot) (b : PointIx)
  /-- R279 -/
  | paff (d a : PointIx)
  /-- R280 -/
  | pvalid (a : PointIx)
  /-- R320 -/
  | aeskey
  /-- R321 -/
  | aesenc
  /-- R322 -/
  | aesdec
  /-- R323: `r` is the round number. -/
  | aeser (r : Imm)
  /-- R324: `r` is the round number. -/
  | aesdr (r : Imm)
  /-- R367 -/
  | ccmseal
  /-- R368 -/
  | ccmopen
  deriving DecidableEq, Repr

end Sys2Proof
end

