-- ==== Sys2Proof/WellFormed.lean ====
section
/-! DEFINITION. The checks on operands that the decoder makes after the mask test: R127 (two
destinations differ) and R128 (the round number is at most 10). -/

namespace Sys2Proof

/-- The commands the decoder lets through: MUL and DIVMOD have D ≠ E (R127), AESER and AESDR have
IMM ≤ 10 (R128). -/
def Instr.wellFormed : Instr → Bool
  | .mul d e _ _ => d != e
  | .divmod d e _ _ => d != e
  | .aeser r => decide (r.toNat ≤ 10)
  | .aesdr r => decide (r.toNat ≤ 10)
  | .nop => true
  | .zeroize => true
  | .mov _ _ => true
  | .add _ _ _ => true
  | .sub _ _ _ => true
  | .cmpeq _ _ _ => true
  | .cmplt _ _ _ => true
  | .cmov _ _ _ => true
  | .shl _ _ _ => true
  | .shr _ _ _ => true
  | .getbit _ _ _ => true
  | .addmod _ _ _ _ => true
  | .submod _ _ _ _ => true
  | .modred _ _ _ _ => true
  | .modexp _ _ _ _ => true
  | .modinv _ _ _ => true
  | .montsetup _ _ => true
  | .montmul _ _ _ _ _ => true
  | .tomont _ _ _ => true
  | .frommont _ _ _ _ => true
  | .pinf _ => true
  | .pmov _ _ => true
  | .pneg _ _ => true
  | .pdbl _ _ => true
  | .padd _ _ _ => true
  | .pmul _ _ _ => true
  | .paff _ _ => true
  | .pvalid _ => true
  | .aeskey => true
  | .aesenc => true
  | .aesdec => true
  | .ccmseal => true
  | .ccmopen => true

end Sys2Proof
end

