-- ==== Sys2Proof/Decode.lean ====
section
/-! DEFINITION. The command word: its fields (R121), the opcode map (R125), the decoder with its
checks in order (R126), and the encoder written from the same map. -/

namespace Sys2Proof

/-! ## Fields -/

/-- The fields of a command word (R121). -/
structure Fields where
  op   : BitVec 8
  d    : BitVec 4 := 0
  a    : BitVec 4 := 0
  b    : BitVec 4 := 0
  n    : BitVec 4 := 0
  e    : BitVec 4 := 0
  rsv0 : BitVec 4 := 0
  imm  : Imm := 0
  rsv1 : BitVec 16 := 0
  deriving DecidableEq, Repr

/-- The fields at the bit positions of R121. -/
def Fields.ofWord (w : Word) : Fields where
  op   := w.extractLsb' 0 8
  d    := w.extractLsb' 8 4
  a    := w.extractLsb' 12 4
  b    := w.extractLsb' 16 4
  n    := w.extractLsb' 20 4
  e    := w.extractLsb' 24 4
  rsv0 := w.extractLsb' 28 4
  imm  := w.extractLsb' 32 16
  rsv1 := w.extractLsb' 48 16

/-- The word with these fields, bit 63 at left as in R121's diagram. -/
def Fields.word (f : Fields) : Word :=
  f.rsv1 ++ f.imm ++ f.rsv0 ++ f.e ++ f.n ++ f.b ++ f.a ++ f.d ++ f.op

/-- A field's value as a slot index (R122). -/
def slotOf (v : BitVec 4) : Slot := v.toFin

/-- A field's value as a point index; the mask test has refused 4..15 (R122, R123). -/
def pointOf (v : BitVec 4) : PointIx := Fin.ofNat 4 v.toNat

/-- A slot index as a field. -/
def slotField (i : Slot) : BitVec 4 := BitVec.ofNat 4 i.val

/-- A point index as a field. -/
def pointField (i : PointIx) : BitVec 4 := BitVec.ofNat 4 i.val

/-! ## The opcode map -/

/-- How a command uses one of the fields D, A, B, N, E (R122, R125). -/
inductive FieldUse where
  | unused | slot | point
  deriving DecidableEq, Repr

/-- The bits of a field that R123 fixes to 0: all of an unused field, bits [3:2] of a point index,
none of a slot index. -/
def FieldUse.fixedBits : FieldUse → BitVec 4
  | .unused => 0b1111
  | .slot   => 0b0000
  | .point  => 0b1100

/-- One row of R125: the opcode, the kind of each field, whether IMM is used, and the command. -/
structure Row where
  op   : BitVec 8
  d    : FieldUse := .unused
  a    : FieldUse := .unused
  b    : FieldUse := .unused
  n    : FieldUse := .unused
  e    : FieldUse := .unused
  imm  : Bool := false
  make : Fields → Instr

/-- The row's match: its opcode, every other fixed bit 0 (R125). -/
def Row.pattern (r : Row) : Word := Fields.word { op := r.op }

/-- The row's mask: OP, the reserved fields, and the bits that R123 fixes to 0. -/
def Row.mask (r : Row) : Word := Fields.word
  { op := 0xFF, d := r.d.fixedBits, a := r.a.fixedBits, b := r.b.fixedBits, n := r.n.fixedBits,
    e := r.e.fixedBits, rsv0 := 0xF, imm := if r.imm then 0 else 0xFFFF, rsv1 := 0xFFFF }

/-- The control rows of R125. -/
def controlRows : List Row :=
  [ { op := 0x00, make := fun _ => .nop },
    { op := 0x01, make := fun _ => .zeroize },
    { op := 0x02, d := .slot, a := .slot, make := fun f => .mov (slotOf f.d) (slotOf f.a) } ]

/-- The integer rows of R125. -/
def integerRows : List Row :=
  [ { op := 0x10, d := .slot, a := .slot, b := .slot,
      make := fun f => .add (slotOf f.d) (slotOf f.a) (slotOf f.b) },
    { op := 0x11, d := .slot, a := .slot, b := .slot,
      make := fun f => .sub (slotOf f.d) (slotOf f.a) (slotOf f.b) },
    { op := 0x12, d := .slot, a := .slot, b := .slot, e := .slot,
      make := fun f => .mul (slotOf f.d) (slotOf f.e) (slotOf f.a) (slotOf f.b) },
    { op := 0x13, d := .slot, a := .slot, b := .slot,
      make := fun f => .cmpeq (slotOf f.d) (slotOf f.a) (slotOf f.b) },
    { op := 0x14, d := .slot, a := .slot, b := .slot,
      make := fun f => .cmplt (slotOf f.d) (slotOf f.a) (slotOf f.b) },
    { op := 0x15, d := .slot, a := .slot, b := .slot,
      make := fun f => .cmov (slotOf f.d) (slotOf f.a) (slotOf f.b) },
    { op := 0x16, d := .slot, a := .slot, imm := true,
      make := fun f => .shl (slotOf f.d) (slotOf f.a) f.imm },
    { op := 0x17, d := .slot, a := .slot, imm := true,
      make := fun f => .shr (slotOf f.d) (slotOf f.a) f.imm },
    { op := 0x18, d := .slot, a := .slot, imm := true,
      make := fun f => .getbit (slotOf f.d) (slotOf f.a) f.imm } ]

/-- The modular rows of R125. -/
def modularRows : List Row :=
  [ { op := 0x20, d := .slot, a := .slot, b := .slot, n := .slot,
      make := fun f => .addmod (slotOf f.d) (slotOf f.a) (slotOf f.b) (slotOf f.n) },
    { op := 0x21, d := .slot, a := .slot, b := .slot, n := .slot,
      make := fun f => .submod (slotOf f.d) (slotOf f.a) (slotOf f.b) (slotOf f.n) },
    { op := 0x22, d := .slot, a := .slot, b := .slot, n := .slot,
      make := fun f => .modred (slotOf f.d) (slotOf f.a) (slotOf f.b) (slotOf f.n) },
    { op := 0x23, d := .slot, a := .slot, n := .slot, e := .slot,
      make := fun f => .divmod (slotOf f.d) (slotOf f.e) (slotOf f.a) (slotOf f.n) },
    { op := 0x24, d := .slot, a := .slot, b := .slot, n := .slot,
      make := fun f => .modexp (slotOf f.d) (slotOf f.a) (slotOf f.b) (slotOf f.n) },
    { op := 0x25, d := .slot, a := .slot, n := .slot,
      make := fun f => .modinv (slotOf f.d) (slotOf f.a) (slotOf f.n) } ]

/-- The Montgomery rows of R125. -/
def montgomeryRows : List Row :=
  [ { op := 0x30, d := .slot, n := .slot,
      make := fun f => .montsetup (slotOf f.d) (slotOf f.n) },
    { op := 0x31, d := .slot, a := .slot, b := .slot, n := .slot, e := .slot,
      make := fun f => .montmul (slotOf f.d) (slotOf f.a) (slotOf f.b) (slotOf f.n) (slotOf f.e) },
    { op := 0x32, d := .slot, a := .slot, n := .slot,
      make := fun f => .tomont (slotOf f.d) (slotOf f.a) (slotOf f.n) },
    { op := 0x33, d := .slot, a := .slot, n := .slot, e := .slot,
      make := fun f => .frommont (slotOf f.d) (slotOf f.a) (slotOf f.n) (slotOf f.e) } ]

/-- The curve rows of R125. -/
def curveRows : List Row :=
  [ { op := 0x40, d := .point, make := fun f => .pinf (pointOf f.d) },
    { op := 0x41, d := .point, a := .point,
      make := fun f => .pmov (pointOf f.d) (pointOf f.a) },
    { op := 0x42, d := .point, a := .point,
      make := fun f => .pneg (pointOf f.d) (pointOf f.a) },
    { op := 0x43, d := .point, a := .point,
      make := fun f => .pdbl (pointOf f.d) (pointOf f.a) },
    { op := 0x44, d := .point, a := .point, b := .point,
      make := fun f => .padd (pointOf f.d) (pointOf f.a) (pointOf f.b) },
    { op := 0x45, d := .point, a := .slot, b := .point,
      make := fun f => .pmul (pointOf f.d) (slotOf f.a) (pointOf f.b) },
    { op := 0x46, d := .point, a := .point,
      make := fun f => .paff (pointOf f.d) (pointOf f.a) },
    { op := 0x47, a := .point, make := fun f => .pvalid (pointOf f.a) } ]

/-- The AES and CCM rows of R125. -/
def cipherRows : List Row :=
  [ { op := 0x50, make := fun _ => .aeskey },
    { op := 0x51, make := fun _ => .aesenc },
    { op := 0x52, make := fun _ => .aesdec },
    { op := 0x53, imm := true, make := fun f => .aeser f.imm },
    { op := 0x54, imm := true, make := fun f => .aesdr f.imm },
    { op := 0x60, make := fun _ => .ccmseal },
    { op := 0x61, make := fun _ => .ccmopen } ]

/-- The opcode map (R125): 37 rows. -/
def rows : List Row :=
  controlRows ++ integerRows ++ modularRows ++ montgomeryRows ++ curveRows ++ cipherRows

/-- The row of an opcode, if it is assigned (R125, R129). -/
def rowOf (op : BitVec 8) : Option Row := rows.find? fun r => r.op == op

/-! ## The decoder -/

/-- The two ways a command word is rejected at decode (R126): its opcode is not assigned, or it
fails one of the OPERAND checks. -/
inductive DecodeError where
  | illegal | operand
  deriving DecidableEq, Repr

/-- Decoding (R126), total on every 64-bit word.  The checks stand in R126's order: the opcode, the
mask and match, then D = E for MUL and DIVMOD (R127) and IMM > 10 for AESER and AESDR (R128). -/
def decode (w : Word) : Except DecodeError Instr :=
  let f := Fields.ofWord w
  match rowOf f.op with
  | none => .error .illegal
  | some r =>
    if w &&& r.mask = r.pattern then
      let i := r.make f
      if i.wellFormed then .ok i else .error .operand
    else .error .operand

/-- The decoder as the host asks for it: `w` is the word's low `nbits` bits, the bits above are 0.
A command is one 64-bit word and no longer (R120). -/
def decodeTableWord (nbits w : Nat) : Option Instr :=
  if nbits ≤ 64 then (decode (BitVec.ofNat 64 (w % 2 ^ nbits))).toOption else none

/-! ## The encoder -/

/-- The fields of a command, from R125's table. -/
def fieldsOf : Instr → Fields
  | .nop => { op := 0x00 }
  | .zeroize => { op := 0x01 }
  | .mov d a => { op := 0x02, d := slotField d, a := slotField a }
  | .add d a b => { op := 0x10, d := slotField d, a := slotField a, b := slotField b }
  | .sub d a b => { op := 0x11, d := slotField d, a := slotField a, b := slotField b }
  | .mul d e a b =>
    { op := 0x12, d := slotField d, e := slotField e, a := slotField a, b := slotField b }
  | .cmpeq d a b => { op := 0x13, d := slotField d, a := slotField a, b := slotField b }
  | .cmplt d a b => { op := 0x14, d := slotField d, a := slotField a, b := slotField b }
  | .cmov d a b => { op := 0x15, d := slotField d, a := slotField a, b := slotField b }
  | .shl d a k => { op := 0x16, d := slotField d, a := slotField a, imm := k }
  | .shr d a k => { op := 0x17, d := slotField d, a := slotField a, imm := k }
  | .getbit d a k => { op := 0x18, d := slotField d, a := slotField a, imm := k }
  | .addmod d a b n =>
    { op := 0x20, d := slotField d, a := slotField a, b := slotField b, n := slotField n }
  | .submod d a b n =>
    { op := 0x21, d := slotField d, a := slotField a, b := slotField b, n := slotField n }
  | .modred d a b n =>
    { op := 0x22, d := slotField d, a := slotField a, b := slotField b, n := slotField n }
  | .divmod d e a n =>
    { op := 0x23, d := slotField d, e := slotField e, a := slotField a, n := slotField n }
  | .modexp d a b n =>
    { op := 0x24, d := slotField d, a := slotField a, b := slotField b, n := slotField n }
  | .modinv d a n => { op := 0x25, d := slotField d, a := slotField a, n := slotField n }
  | .montsetup d n => { op := 0x30, d := slotField d, n := slotField n }
  | .montmul d a b n e =>
    { op := 0x31, d := slotField d, a := slotField a, b := slotField b, n := slotField n,
      e := slotField e }
  | .tomont d a n => { op := 0x32, d := slotField d, a := slotField a, n := slotField n }
  | .frommont d a n e =>
    { op := 0x33, d := slotField d, a := slotField a, n := slotField n, e := slotField e }
  | .pinf d => { op := 0x40, d := pointField d }
  | .pmov d a => { op := 0x41, d := pointField d, a := pointField a }
  | .pneg d a => { op := 0x42, d := pointField d, a := pointField a }
  | .pdbl d a => { op := 0x43, d := pointField d, a := pointField a }
  | .padd d a b => { op := 0x44, d := pointField d, a := pointField a, b := pointField b }
  | .pmul d a b => { op := 0x45, d := pointField d, a := slotField a, b := pointField b }
  | .paff d a => { op := 0x46, d := pointField d, a := pointField a }
  | .pvalid a => { op := 0x47, a := pointField a }
  | .aeskey => { op := 0x50 }
  | .aesenc => { op := 0x51 }
  | .aesdec => { op := 0x52 }
  | .aeser r => { op := 0x53, imm := r }
  | .aesdr r => { op := 0x54, imm := r }
  | .ccmseal => { op := 0x60 }
  | .ccmopen => { op := 0x61 }

/-- The command word of a command (R121, R125). -/
def encode (i : Instr) : Word := (fieldsOf i).word

end Sys2Proof
end

