-- ==== Sys2Proof/Machine/State.lean ====
section
/-! DEFINITION. The engine's state as plain data (R30), the reasons a step can stop, and the state
after reset (R55, R450). -/

namespace Sys2Proof.Machine

/-- Why the machine stops with a fault.  There is no such reason: the engine takes no traps (R410),
every error is a completion with a code (R404) and every refused bus access is a response (R408),
so each of these is a next state.  An empty type is safe: no behaviour of the spec is lost (log 7). -/
inductive Fault
  deriving DecidableEq, Repr

/-- Why a command has no meaning. -/
inductive Refusal where
  /-- Raised by an arm of `exec` whose command has no meaning yet; no arm raises it now.  Safe: it
  stops where the engine would go on. -/
  | notModelled (mnemonic : String)
  deriving DecidableEq, Repr

/-- The error codes 0-8; 9-255 are never produced (R400). -/
inductive ErrorCode where
  | ok | illegal | operand | modulus | divZero | noKey | config | auth | nonce
  deriving DecidableEq, Repr

/-- The five command flags (R50). -/
structure Flags where
  carry : Bool
  bit   : Bool
  cmp   : Bool
  inf   : Bool
  valid : Bool
  deriving DecidableEq, Repr

/-- The three used bits of IRQ_EN (R34) and of IRQ_STATUS (R35); the others read 0. -/
structure IrqBits where
  done : Bool
  err  : Bool
  ovr  : Bool
  deriving DecidableEq, Repr

/-- The fields of CCM_CFG (R36); the reserved bits read 0. -/
structure CcmCfg where
  tlen   : BitVec 5
  nlen   : BitVec 4
  nchk   : Bool
  tagraw : Bool
  deriving DecidableEq, Repr

/-- One point register: three coordinates (R45). -/
structure PointReg where
  x : Wide
  y : Wide
  z : Wide
  deriving DecidableEq, Repr

/-- The message buffer (R47) as a list of (index, byte) pairs in canonical form: indexes strictly
rising and below 1024, no entry equal to what an unlisted index reads as. -/
abbrev Memory := List Host.Cell

/-- One host bus access (R80): a read, or a write of a value, of a number of bytes at a physical
address.  The engine serves only 8-byte accesses (R81). -/
inductive Access where
  | read (addr bytes : Nat)
  | write (addr bytes : Nat) (value : Word)
  deriving DecidableEq, Repr

/-- The response to one access (R80). -/
inductive Response where
  /-- OKAY to a read, with the read data. -/
  | readOkay (data : Word)
  /-- OKAY to a write. -/
  | writeOkay
  /-- A bus error; its read data is 0 (R80). -/
  | error
  deriving DecidableEq, Repr

/-- One event of the interleaving (R25, R91): a host access, the engine's completion step, or the
reset input (R450). -/
inductive Turn where
  | host (a : Access)
  | engine
  | reset
  deriving DecidableEq, Repr

/-- The state.  The fields `config`, `schedule` and `response` are the model's own (log 1, log 3);
every other field is a row of R30. -/
structure State where
  /-- L and BASE (R8, R11); no step changes it. -/
  config    : Config
  /-- The pending command word; BUSY is whether there is one (R51). -/
  pending   : Option Word
  /-- The CMD readback: the last accepted word (R33). -/
  cmd       : Word
  /-- STATUS.LASTOP (R32). -/
  lastOp    : BitVec 8
  /-- STATUS.ERR (R32). -/
  err       : Bool
  /-- STATUS.ERRCODE (R32). -/
  errCode   : ErrorCode
  /-- CARRY, BIT, CMP, INF, VALID (R50). -/
  flags     : Flags
  /-- IRQ_EN (R34). -/
  irqEn     : IrqBits
  /-- IRQ_STATUS (R35); STATUS.OVR mirrors its OVR bit. -/
  irqStatus : IrqBits
  /-- CCM_CFG (R36). -/
  ccmCfg    : CcmCfg
  /-- CCM_ALEN (R37). -/
  ccmAlen   : BitVec 16
  /-- CCM_PLEN (R38). -/
  ccmPlen   : BitVec 16
  /-- AES_KEY (R39). -/
  aesKey    : Block
  /-- AES_DATA (R40). -/
  aesData   : Block
  /-- NONCE (R41). -/
  nonce     : Block
  /-- TAG (R42). -/
  tag       : Block
  /-- LAST_NONCE (R43). -/
  lastNonce : Block
  /-- S[0..15] (R44). -/
  slots     : Vector Wide 16
  /-- PT[0..3] (R45). -/
  points    : Vector PointReg 4
  /-- CP, the field modulus p (R46). -/
  cp        : Wide
  /-- CA, the coefficient a (R46). -/
  ca        : Wide
  /-- CB, the coefficient b (R46). -/
  cb        : Wide
  /-- MSGBUF (R47). -/
  msgbuf    : Memory
  /-- RK[0..43] (R48). -/
  rk        : Vector KeyWord 44
  /-- KEYVALID (R48); STATUS.KEYV mirrors it. -/
  keyValid  : Bool
  /-- LNV (R49). -/
  lnv       : Bool
  /-- The events still to come, the next one first; after the last, the engine runs on its own. -/
  schedule  : List Turn
  /-- The response to the last host access to the window. -/
  response  : Option Response
  deriving DecidableEq, Repr

/-- Sixteen zero bytes. -/
def zeroBlock : Block := Vector.replicate 16 0

/-- The point register (0, 0, 0). -/
def zeroPoint : PointReg := { x := 0, y := 0, z := 0 }

/-- All three bits 0. -/
def IrqBits.none : IrqBits := { done := false, err := false, ovr := false }

/-- All five flags 0. -/
def Flags.clear : Flags := { carry := false, bit := false, cmp := false, inf := false, valid := false }

/-- CCM_CFG after reset, 0x10D10: TLEN 16, NLEN 13, NCHK 1, TAGRAW 0 (R36, R55). -/
def CcmCfg.reset : CcmCfg := { tlen := 16, nlen := 13, nchk := true, tagraw := false }

/-- The state after reset of the instance with the parameters `c` (R55, R450): the spec gives every
element's value.  The model's own fields are empty (log 3). -/
def State.resetWith (c : Config) : State where
  config    := c
  pending   := .none
  cmd       := 0
  lastOp    := 0
  err       := false
  errCode   := .ok
  flags     := .clear
  irqEn     := .none
  irqStatus := .none
  ccmCfg    := .reset
  ccmAlen   := 0
  ccmPlen   := 0
  aesKey    := zeroBlock
  aesData   := zeroBlock
  nonce     := zeroBlock
  tag       := zeroBlock
  lastNonce := zeroBlock
  slots     := Vector.replicate 16 0
  points    := Vector.replicate 4 zeroPoint
  cp        := 0
  ca        := 0
  cb        := 0
  msgbuf    := []
  rk        := Vector.replicate 44 0
  keyValid  := false
  lnv       := false
  schedule  := []
  response  := .none

/-- The state after reset.  DESIGN CHOICE (log 2): the parameters are L = 1 and BASE = 0; what the
spec says about reset is said of `State.resetWith c` for every `c`. -/
def State.reset : State := State.resetWith .standard

end Sys2Proof.Machine
end

