-- ==== Sys2Proof/Machine/Bytes.lean ====
section
/-! DEFINITION. Byte order and wide-value helpers: bytes of a bus word (R82), blocks, byte strings,
big-endian numbers (R361, R365), and the limbs of a wide register (R13, R83). -/

namespace Sys2Proof.Machine

/-- Byte k of a bus word: bits [8k+7:8k] (R82). -/
def wordByte (w : Word) (k : Nat) : Byte := w.extractLsb' (8 * k) 8

/-- The bus word whose byte k is `f k` (R82). -/
def wordOfBytes (f : Nat → Byte) : Word :=
  f 7 ++ f 6 ++ f 5 ++ f 4 ++ f 3 ++ f 2 ++ f 1 ++ f 0

/-- The block whose byte j is `f j`. -/
def blockOf (f : Nat → Byte) : Block :=
  #v[f 0, f 1, f 2, f 3, f 4, f 5, f 6, f 7, f 8, f 9, f 10, f 11, f 12, f 13, f 14, f 15]

/-- Byte j of a block; 0 at and above byte 16, which no register has. -/
def blockByte (b : Block) (j : Nat) : Byte := if h : j < 16 then b[j] else 0

/-- The block that starts with the given bytes and continues with zeros. -/
def blockOfList (l : List Byte) : Block := blockOf fun j => l.getD j 0

/-- The bytes of a block, byte 0 first. -/
def blockBytes (b : Block) : List Byte := (List.range 16).map (blockByte b)

/-- The exclusive or of two blocks, byte by byte. -/
def blockXor (a b : Block) : Block := blockOf fun j => blockByte a j ^^^ blockByte b j

/-- The word of a 16-byte register at its half `h`: bytes 8h..8h+7 (R82). -/
def blockWord (b : Block) (h : Fin 2) : Word := wordOfBytes fun k => blockByte b (8 * h + k)

/-- A 16-byte register after a write of `v` to its half `h` (R82). -/
def setBlockWord (b : Block) (h : Fin 2) (v : Word) : Block :=
  blockOf fun j => if j / 8 = h then wordByte v (j % 8) else blockByte b j

/-- The exclusive or of two byte strings, as long as the shorter one. -/
def xorBytes (a b : List Byte) : List Byte := List.zipWith (· ^^^ ·) a b

/-- `[v]_q`, the number v as q bytes, most significant first (R361). -/
def bigEndian : Nat → Nat → List Byte
  | 0, _ => []
  | q + 1, v => BitVec.ofNat 8 (v / 256 ^ q) :: bigEndian q v

/-- `val(X)`, a byte string read as a big-endian number (R365). -/
def bigEndianValue (l : List Byte) : Nat := l.foldl (fun acc b => 256 * acc + b.toNat) 0

/-- The number a wide register holds: its low W bits (R13, R44). -/
def wideValue (c : Config) (x : Wide) : Nat := x.toNat % 2 ^ c.width

/-- A wide register holding a number modulo 2^W; the limbs at and above L hold 0 (R83). -/
def wideOf (c : Config) (v : Nat) : Wide := BitVec.ofNat 512 (v % 2 ^ c.width)

/-- Limb j of a wide register; limbs j ≥ L read 0 (R83). -/
def wideLimb (c : Config) (x : Wide) (j : Nat) : Word :=
  if j < c.limbs then x.extractLsb' (64 * j) 64 else 0

/-- A wide register after a write of limb j; limbs j ≥ L ignore writes (R83). -/
def setWideLimb (c : Config) (x : Wide) (j : Nat) (v : Word) : Wide :=
  if j < c.limbs then
    (x &&& ~~~((BitVec.allOnes 64).setWidth 512 <<< (64 * j))) ||| (v.setWidth 512 <<< (64 * j))
  else x

end Sys2Proof.Machine
end

