-- ==== Sys2Proof/Machine/Memory.lean ====
section
/-! DEFINITION. The message buffer MSGBUF (R47): its bytes, its canonical form, and byte ranges. -/

namespace Sys2Proof.Machine

/-- What a byte of MSGBUF reads as when the list does not hold it: its reset value 0 (R47, log 9). -/
def Memory.unlisted : Byte := 0

/-- MSGBUF[j]. -/
def Memory.read : Memory → Nat → Byte
  | [], _ => Memory.unlisted
  | (k, b) :: m, j => if k = j then b else Memory.read m j

/-- The list without the entry of index j. -/
def Memory.drop (m : Memory) (j : Nat) : Memory := m.filter fun c => c.1 != j

/-- The list with an entry for index j put before the first higher index. -/
def Memory.put : Memory → Nat → Byte → Memory
  | [], j, b => [(j, b)]
  | (k, c) :: m, j, b =>
    if j < k then (j, b) :: (k, c) :: m else (k, c) :: Memory.put m j b

/-- MSGBUF[j] <- b.  The list stays in canonical form: writing what an unlisted byte reads as
removes the entry. -/
def Memory.write (m : Memory) (j : Nat) (b : Byte) : Memory :=
  if b = Memory.unlisted then Memory.drop m j else Memory.put (Memory.drop m j) j b

/-- The canonical form: indexes strictly rising and inside the buffer, no entry that an unlisted
byte would read as. -/
abbrev Memory.wf (m : Memory) : Prop :=
  m.Pairwise (fun x y => x.1 < y.1) ∧
    ∀ c ∈ m, c.1 < Config.msgbufBytes ∧ c.2 ≠ Memory.unlisted

/-- MSGBUF[start .. start+len-1]. -/
def Memory.readRange (m : Memory) (start len : Nat) : List Byte :=
  (List.range len).map fun k => Memory.read m (start + k)

/-- MSGBUF[start ..] <- bytes, one byte after another. -/
def Memory.writeRange (m : Memory) (start : Nat) : List Byte → Memory
  | [] => m
  | b :: bs => Memory.writeRange (Memory.write m start b) (start + 1) bs

end Sys2Proof.Machine
end

