-- ==== Sys2Proof/Machine/Ops.lean ====
section
/-! DEFINITION. The shared operations over the state: the two engine events, accept and complete,
with the error completion (R402-R406), reset (R450), and the views of the state that the bus and
the interrupt line show (R31-R38, R407). -/

namespace Sys2Proof.Machine

/-- The outcome of a command or a step. -/
abbrev Result := Host.Outcome State Fault Refusal

/-- W of this instance (R9). -/
def State.width (s : State) : Nat := s.config.width

/-- R = 2^W of this instance (R9). -/
def State.radix (s : State) : Nat := s.config.radix

/-- STATUS.BUSY: a command has been accepted and has not completed (R51). -/
def State.busy (s : State) : Bool := s.pending.isSome

/-! ## Accept, overrun, complete -/

/-- Accept the command word w (R403).  Nothing is checked, and IRQ_STATUS does not change.  This is
also where an earlier error's report ends: there is no other return from an error (R411). -/
def accept (w : Word) (s : State) : State :=
  { s with
    pending := some w
    cmd := w
    lastOp := w.extractLsb' 0 8
    err := false
    errCode := .ok }

/-- A CMD write while BUSY = 1: only IRQ_STATUS.OVR is set (R406). -/
def overrun (s : State) : State :=
  { s with irqStatus := { s.irqStatus with ovr := true } }

/-- The bookkeeping at the end of R404, with the code of the command. -/
def finish (code : ErrorCode) (s : State) : State :=
  { s with
    pending := none
    err := code != .ok
    errCode := code
    irqStatus :=
      { s.irqStatus with done := true, err := s.irqStatus.err || code != .ok } }

/-- Complete without an error: `s` holds the effects of the command's body (R404). -/
def completeOk (s : State) : Result := .next (finish .ok s)

/-- `raise E`: complete with an error.  `s` is the state before the command, since every write of
the body is discarded (R402); AUTH alone passes a state with its zeroed payload.  This is all that
an error does: there is no trap (R410). -/
def raiseError (code : ErrorCode) (s : State) : Result := .next (finish code s)

/-- The error code of a rejection at decode (R126, R400). -/
def decodeErrorCode : DecodeError → ErrorCode
  | .illegal => .illegal
  | .operand => .operand

/-- The engine's completion step runs this when the pending word does not decode (R404). -/
def rejectWord (e : DecodeError) (s : State) : Result := raiseError (decodeErrorCode e) s

/-- The reset event (R450): every element takes its reset value and a pending command is discarded.
The events still to come are outside the engine and stay (log 6). -/
def resetEvent (s : State) : State :=
  { State.resetWith s.config with schedule := s.schedule }

/-! ## Views -/

/-- The number of an error code (R400). -/
def errorNumber : ErrorCode → BitVec 8
  | .ok => 0
  | .illegal => 1
  | .operand => 2
  | .modulus => 3
  | .divZero => 4
  | .noKey => 5
  | .config => 6
  | .auth => 7
  | .nonce => 8

/-- A flag as a one-bit vector. -/
def bitOf (b : Bool) : BitVec 1 := BitVec.ofBool b

/-- ID: MAGIC, reserved, LIMBS, REV (R31). -/
def idWord (s : State) : Word :=
  (0x45454743 : BitVec 32) ++ (0 : BitVec 16) ++ BitVec.ofNat 8 s.config.limbs ++ (0x01 : BitVec 8)

/-- STATUS, with its mirrors of KEYVALID, LNV and IRQ_STATUS.OVR (R32). -/
def statusWord (s : State) : Word :=
  (0 : BitVec 32) ++ s.lastOp ++ errorNumber s.errCode ++ (0 : BitVec 3) ++
    bitOf s.flags.valid ++ bitOf s.flags.inf ++ bitOf s.flags.cmp ++ bitOf s.flags.bit ++
    bitOf s.flags.carry ++ (0 : BitVec 3) ++ bitOf s.irqStatus.ovr ++ bitOf s.lnv ++
    bitOf s.keyValid ++ bitOf s.err ++ bitOf s.busy

/-- IRQ_EN or IRQ_STATUS as a word (R34, R35). -/
def irqWord (b : IrqBits) : Word :=
  (0 : BitVec 61) ++ bitOf b.ovr ++ bitOf b.err ++ bitOf b.done

/-- IRQ_EN after a write of v: the reserved bits are ignored (R34). -/
def irqEnOf (v : Word) : IrqBits :=
  { done := v.getLsbD 0, err := v.getLsbD 1, ovr := v.getLsbD 2 }

/-- IRQ_STATUS after a write of v: write 1 to clear (R35). -/
def irqClear (b : IrqBits) (v : Word) : IrqBits :=
  { done := b.done && !v.getLsbD 0, err := b.err && !v.getLsbD 1, ovr := b.ovr && !v.getLsbD 2 }

/-- CCM_CFG as a word (R36). -/
def ccmCfgWord (c : CcmCfg) : Word :=
  (0 : BitVec 46) ++ bitOf c.tagraw ++ bitOf c.nchk ++ (0 : BitVec 4) ++ c.nlen ++ (0 : BitVec 3) ++
    c.tlen

/-- CCM_CFG after a write of v: each field stores the value written (R36). -/
def ccmCfgOf (v : Word) : CcmCfg :=
  { tlen := v.extractLsb' 0 5
    nlen := v.extractLsb' 8 4
    nchk := v.getLsbD 16
    tagraw := v.getLsbD 17 }

/-- The interrupt output, a function of the state (R407, log 16). -/
def irq (s : State) : Bool :=
  (s.irqStatus.done && s.irqEn.done) || (s.irqStatus.err && s.irqEn.err) ||
    (s.irqStatus.ovr && s.irqEn.ovr)

end Sys2Proof.Machine
end

