-- ==== Sys2Proof/Machine/Operands.lean ====
section
/-! DEFINITION. The operand forms: slots (R44), point registers as triples of numbers with the
reduction and the normal form of R270, the curve registers (R46), and the immediate (R124). -/

namespace Sys2Proof.Machine

/-! ## Slots -/

/-- `S[i]`, the W-bit number in slot i (R15, R44). -/
def State.slot (s : State) (i : Slot) : Nat := wideValue s.config s.slots[i]

/-- `S[i] <- v`, of a number v taken modulo 2^W (R15, R189). -/
def State.setSlot (s : State) (i : Slot) (v : Nat) : State :=
  { s with slots := s.slots.set i (wideOf s.config v) }

/-! ## Points -/

/-- A triple (X, Y, Z) of numbers. -/
structure Triple where
  x : Nat
  y : Nat
  z : Nat
  deriving DecidableEq, Repr

/-- The canonical infinity (0, 1, 0) (R270). -/
def Triple.infinity : Triple := { x := 0, y := 1, z := 0 }

/-- `PT[i]` as numbers, not reduced (R15, R45). -/
def State.point (s : State) (i : PointIx) : Triple :=
  { x := wideValue s.config s.points[i].x
    y := wideValue s.config s.points[i].y
    z := wideValue s.config s.points[i].z }

/-- A triple as a point register. -/
def pointRegOf (c : Config) (P : Triple) : PointReg :=
  { x := wideOf c P.x, y := wideOf c P.y, z := wideOf c P.z }

/-- `PT[i] <- P` (R15). -/
def State.setPoint (s : State) (i : PointIx) (P : Triple) : State :=
  { s with points := s.points.set i (pointRegOf s.config P) }

/-- A triple with each coordinate reduced mod p (R270). -/
def Triple.reduce (p : Nat) (P : Triple) : Triple :=
  { x := P.x % p, y := P.y % p, z := P.z % p }

/-- `norm` (R270): the canonical infinity when Z ≡ 0 (mod p), else the residues. -/
def Triple.norm (p : Nat) (P : Triple) : Triple :=
  if P.z % p = 0 then Triple.infinity else P.reduce p

/-! ## The curve -/

/-- p = CP (R271). -/
def State.curveP (s : State) : Nat := wideValue s.config s.cp

/-- a = CA mod p (R271). -/
def State.curveA (s : State) : Nat := wideValue s.config s.ca % s.curveP

/-- b = CB mod p (R271). -/
def State.curveB (s : State) : Nat := wideValue s.config s.cb % s.curveP

/-- The check of the field modulus: p is odd and at least 3 (R271). -/
def State.curveOk (s : State) : Bool := s.curveP % 2 == 1 && decide (3 ≤ s.curveP)

end Sys2Proof.Machine
end

