-- ==== Sys2Proof/Machine/Bus.lean ====
section
/-! DEFINITION. Host accesses to the register window: the address map (R88), the access rules
(R80-R87), and what each register reads as and does on a write (R31-R47). -/

namespace Sys2Proof.Machine

/-- The registers of the window, each 64-bit word of a block of words by its number (R88). -/
inductive Reg where
  | id | status | cmd | irqEn | irqStatus | ccmCfg | ccmAlen | ccmPlen
  | aesKey (h : Fin 2)
  | aesData (h : Fin 2)
  | nonce (h : Fin 2)
  | tag (h : Fin 2)
  | lastNonce (h : Fin 2)
  /-- Limb j of S[i]. -/
  | slot (i : Slot) (j : Fin 8)
  /-- Limb j of coordinate c of PT[i]: X = 0, Y = 1, Z = 2 (R45). -/
  | point (i : PointIx) (c : Fin 3) (j : Fin 8)
  | cp (j : Fin 8)
  | ca (j : Fin 8)
  | cb (j : Fin 8)
  /-- Bytes 8k..8k+7 of MSGBUF. -/
  | msgbuf (k : Fin 128)
  deriving DecidableEq, Repr

/-- The register word at an 8-byte-aligned offset; none where the map is reserved (R88). -/
def regAt (off : Nat) : Option Reg :=
  if off = 0x000 then some .id
  else if off = 0x008 then some .status
  else if off = 0x010 then some .cmd
  else if off = 0x018 then some .irqEn
  else if off = 0x020 then some .irqStatus
  else if off = 0x028 then some .ccmCfg
  else if off = 0x030 then some .ccmAlen
  else if off = 0x038 then some .ccmPlen
  else if off < 0x050 then some (.aesKey (Fin.ofNat 2 ((off - 0x040) / 8)))
  else if off < 0x060 then some (.aesData (Fin.ofNat 2 ((off - 0x050) / 8)))
  else if off < 0x070 then some (.nonce (Fin.ofNat 2 ((off - 0x060) / 8)))
  else if off < 0x080 then some (.tag (Fin.ofNat 2 ((off - 0x070) / 8)))
  else if off < 0x090 then some (.lastNonce (Fin.ofNat 2 ((off - 0x080) / 8)))
  else if off < 0x200 then none
  else if off < 0x600 then
    some (.slot (Fin.ofNat 16 ((off - 0x200) / 0x40)) (Fin.ofNat 8 (off % 0x40 / 8)))
  else if off < 0x900 then
    some (.point (Fin.ofNat 4 ((off - 0x600) / 0xC0)) (Fin.ofNat 3 ((off - 0x600) % 0xC0 / 0x40))
      (Fin.ofNat 8 (off % 0x40 / 8)))
  else if off < 0x940 then some (.cp (Fin.ofNat 8 (off % 0x40 / 8)))
  else if off < 0x980 then some (.ca (Fin.ofNat 8 (off % 0x40 / 8)))
  else if off < 0x9C0 then some (.cb (Fin.ofNat 8 (off % 0x40 / 8)))
  else if off < 0x1000 then none
  else if off < 0x1400 then some (.msgbuf (Fin.ofNat 128 ((off - 0x1000) / 8)))
  else none

/-- The registers that are accessible while BUSY = 1 (R56, R85). -/
def Reg.openWhileBusy : Reg → Bool
  | .id | .status | .cmd | .irqEn | .irqStatus => true
  | _ => false

/-- Coordinate c of a point register (R45). -/
def coordinate (P : PointReg) (c : Fin 3) : Wide :=
  match c with
  | 0 => P.x
  | 1 => P.y
  | 2 => P.z

/-- A point register with coordinate c replaced. -/
def setCoordinate (P : PointReg) (c : Fin 3) (v : Wide) : PointReg :=
  match c with
  | 0 => { P with x := v }
  | 1 => { P with y := v }
  | 2 => { P with z := v }

/-- The eight bytes of MSGBUF word k (R47, R82). -/
def msgWord (m : Memory) (k : Nat) : Word := wordOfBytes fun i => Memory.read m (8 * k + i)

/-- MSGBUF after a write of word k (R47, R82). -/
def setMsgWord (m : Memory) (k : Nat) (v : Word) : Memory :=
  Memory.writeRange m (8 * k) ((List.range 8).map (wordByte v))

/-- What a register word reads as.  Reads have no side effects (R86). -/
def readReg (s : State) : Reg → Word
  | .id => idWord s
  | .status => statusWord s
  | .cmd => s.cmd
  | .irqEn => irqWord s.irqEn
  | .irqStatus => irqWord s.irqStatus
  | .ccmCfg => ccmCfgWord s.ccmCfg
  | .ccmAlen => s.ccmAlen.setWidth 64
  | .ccmPlen => s.ccmPlen.setWidth 64
  -- write-only (R39, R87)
  | .aesKey _ => 0
  | .aesData h => blockWord s.aesData h
  | .nonce h => blockWord s.nonce h
  | .tag h => blockWord s.tag h
  | .lastNonce h => blockWord s.lastNonce h
  | .slot i j => wideLimb s.config s.slots[i] j
  | .point i c j => wideLimb s.config (coordinate s.points[i] c) j
  | .cp j => wideLimb s.config s.cp j
  | .ca j => wideLimb s.config s.ca j
  | .cb j => wideLimb s.config s.cb j
  | .msgbuf k => msgWord s.msgbuf k

/-- The state after a write of v to a register word (R31-R47, R86, R87). -/
def writeReg (s : State) (r : Reg) (v : Word) : State :=
  match r with
  -- read-only (R87)
  | .id => s
  | .status => s
  | .cmd => if s.busy then overrun s else accept v s
  | .irqEn => { s with irqEn := irqEnOf v }
  | .irqStatus => { s with irqStatus := irqClear s.irqStatus v }
  | .ccmCfg => { s with ccmCfg := ccmCfgOf v }
  | .ccmAlen => { s with ccmAlen := v.extractLsb' 0 16 }
  | .ccmPlen => { s with ccmPlen := v.extractLsb' 0 16 }
  | .aesKey h => { s with aesKey := setBlockWord s.aesKey h v }
  | .aesData h => { s with aesData := setBlockWord s.aesData h v }
  | .nonce h => { s with nonce := setBlockWord s.nonce h v }
  | .tag h => { s with tag := setBlockWord s.tag h v }
  -- read-only (R43, R87)
  | .lastNonce _ => s
  | .slot i j => { s with slots := s.slots.set i (setWideLimb s.config s.slots[i] j v) }
  | .point i c j =>
    { s with
      points := s.points.set i (setCoordinate s.points[i] c
        (setWideLimb s.config (coordinate s.points[i] c) j v)) }
  | .cp j => { s with cp := setWideLimb s.config s.cp j v }
  | .ca j => { s with ca := setWideLimb s.config s.ca j v }
  | .cb j => { s with cb := setWideLimb s.config s.cb j v }
  | .msgbuf k => { s with msgbuf := setMsgWord s.msgbuf k v }

/-- The register word that an access of `bytes` bytes at window offset `off` reaches, if the engine
serves it: 8 bytes wide and aligned (R81), not reserved (R84), and not closed by BUSY (R85). -/
def served (s : State) (off bytes : Nat) : Option Reg :=
  if bytes = 8 ∧ off % 8 = 0 then
    match regAt off with
    | none => none
    | some r => if s.busy && !r.openWhileBusy then none else some r
  else none

/-- The window offset of a bus address, if the address is in the window (R80). -/
def windowOffset (c : Config) (addr : Nat) : Option Nat :=
  if c.base ≤ addr ∧ addr < c.base + Config.windowBytes then some (addr - c.base) else none

/-- One host access (R80).  ERROR has no effect on the engine (R80, R408).  An access outside the
window is not one to this engine: nothing happens and it answers nothing (log 5). -/
def hostAccess (a : Access) (s : State) : State :=
  match a with
  | .read addr bytes =>
    match windowOffset s.config addr with
    | none => s
    | some off =>
      match served s off bytes with
      | none => { s with response := some .error }
      | some r => { s with response := some (.readOkay (readReg s r)) }
  | .write addr bytes v =>
    match windowOffset s.config addr with
    | none => s
    | some off =>
      match served s off bytes with
      | none => { s with response := some .error }
      | some r => { writeReg s r v with response := some .writeOkay }

end Sys2Proof.Machine
end

