-- ==== Sys2Proof/Machine/Aes.lean ====
section
/-! DEFINITION. The AES-128 round function, the key expansion, and their commands (R310-R324). -/

namespace Sys2Proof.Machine

/-! ## The state layout and the transforms -/

/-- `s[r][c] = DATA[r + 4c]` (R310). -/
def cell (b : Block) (r c : Fin 4) : Byte := blockByte b (r + 4 * c)

/-- The block with these cells (R310). -/
def blockOfCells (f : Fin 4 → Fin 4 → Byte) : Block :=
  #v[f 0 0, f 1 0, f 2 0, f 3 0, f 0 1, f 1 1, f 2 1, f 3 1,
     f 0 2, f 1 2, f 2 2, f 3 2, f 0 3, f 1 3, f 2 3, f 3 3]

/-- SubBytes (R316). -/
def subBytes (b : Block) : Block := blockOfCells fun r c => sbox (cell b r c)

/-- InvSubBytes (R316). -/
def invSubBytes (b : Block) : Block := blockOfCells fun r c => invSbox (cell b r c)

/-- ShiftRows: `s'[r][c] = s[r][(c + r) mod 4]` (R317). -/
def shiftRows (b : Block) : Block := blockOfCells fun r c => cell b r (c + r)

/-- InvShiftRows: `s'[r][c] = s[r][(c - r) mod 4]` (R317). -/
def invShiftRows (b : Block) : Block := blockOfCells fun r c => cell b r (c - r)

/-- Row r of MixColumns on the column (s0, s1, s2, s3) (R318). -/
def mixByte (r : Fin 4) (s0 s1 s2 s3 : Byte) : Byte :=
  match r with
  | 0 => gfmul 2 s0 ^^^ gfmul 3 s1 ^^^ s2 ^^^ s3
  | 1 => s0 ^^^ gfmul 2 s1 ^^^ gfmul 3 s2 ^^^ s3
  | 2 => s0 ^^^ s1 ^^^ gfmul 2 s2 ^^^ gfmul 3 s3
  | 3 => gfmul 3 s0 ^^^ s1 ^^^ s2 ^^^ gfmul 2 s3

/-- Row r of InvMixColumns on the column (s0, s1, s2, s3) (R318). -/
def invMixByte (r : Fin 4) (s0 s1 s2 s3 : Byte) : Byte :=
  match r with
  | 0 => gfmul 0x0e s0 ^^^ gfmul 0x0b s1 ^^^ gfmul 0x0d s2 ^^^ gfmul 0x09 s3
  | 1 => gfmul 0x09 s0 ^^^ gfmul 0x0e s1 ^^^ gfmul 0x0b s2 ^^^ gfmul 0x0d s3
  | 2 => gfmul 0x0d s0 ^^^ gfmul 0x09 s1 ^^^ gfmul 0x0e s2 ^^^ gfmul 0x0b s3
  | 3 => gfmul 0x0b s0 ^^^ gfmul 0x0d s1 ^^^ gfmul 0x09 s2 ^^^ gfmul 0x0e s3

/-- MixColumns (R318). -/
def mixColumns (b : Block) : Block :=
  blockOfCells fun r c => mixByte r (cell b 0 c) (cell b 1 c) (cell b 2 c) (cell b 3 c)

/-- InvMixColumns (R318). -/
def invMixColumns (b : Block) : Block :=
  blockOfCells fun r c => invMixByte r (cell b 0 c) (cell b 1 c) (cell b 2 c) (cell b 3 c)

/-! ## Key expansion -/

/-- Byte i of a schedule word: byte 0 is bits [31:24] (R315). -/
def keyWordByte (w : KeyWord) (i : Nat) : Byte := w.extractLsb' (24 - 8 * i) 8

/-- The schedule word of four bytes, the first the most significant (R310, R315). -/
def keyWordOf (b0 b1 b2 b3 : Byte) : KeyWord := b0 ++ b1 ++ b2 ++ b3

/-- RotWord (R315). -/
def rotWord (w : KeyWord) : KeyWord :=
  keyWordOf (keyWordByte w 1) (keyWordByte w 2) (keyWordByte w 3) (keyWordByte w 0)

/-- SubWord (R315). -/
def subWord (w : KeyWord) : KeyWord :=
  keyWordOf (sbox (keyWordByte w 0)) (sbox (keyWordByte w 1)) (sbox (keyWordByte w 2))
    (sbox (keyWordByte w 3))

/-- Word i of the key itself, for i = 0..3 (R310, R315). -/
def keyHead (key : Block) (i : Nat) : KeyWord :=
  keyWordOf (blockByte key (4 * i)) (blockByte key (4 * i + 1)) (blockByte key (4 * i + 2))
    (blockByte key (4 * i + 3))

/-- `w[i]` from `w[i-4]` and `w[i-1]`, for i = 4..43 (R315). -/
def nextKeyWord (i : Nat) (back4 back1 : KeyWord) : KeyWord :=
  if i % 4 = 0 then back4 ^^^ (subWord (rotWord back1) ^^^ rcon (i / 4)) else back4 ^^^ back1

/-- The `k` schedule words from word i on, given the four before it (R315). -/
def expandFrom : Nat → Nat → KeyWord → KeyWord → KeyWord → KeyWord → List KeyWord
  | 0, _, _, _, _, _ => []
  | k + 1, i, a, b, c, d => nextKeyWord i a d :: expandFrom k (i + 1) b c d (nextKeyWord i a d)

/-- The number of words is the number asked for. -/
theorem expandFrom_length (k i : Nat) (a b c d : KeyWord) :
    (expandFrom k i a b c d).length = k := by
  induction k generalizing i a b c d with
  | zero => rfl
  | succ k ih => simp [expandFrom, ih]

/-- `w[0..43]` as a list (R315). -/
def expandList (key : Block) : List KeyWord :=
  keyHead key 0 :: keyHead key 1 :: keyHead key 2 :: keyHead key 3 ::
    expandFrom 40 4 (keyHead key 0) (keyHead key 1) (keyHead key 2) (keyHead key 3)

/-- `expand(key)` (R315). -/
def expandKey (key : Block) : Vector KeyWord 44 :=
  ⟨(expandList key).toArray, by simp [expandList, expandFrom_length]⟩

/-- Round key r: the 16 bytes of w[4r .. 4r+3] (R315). -/
def roundKey (rk : Vector KeyWord 44) (r : Fin 11) : Block :=
  blockOfCells fun row c => keyWordByte rk[4 * r.val + c.val] row

/-- AddRoundKey(r) (R319). -/
def addRoundKey (rk : Vector KeyWord 44) (r : Fin 11) (b : Block) : Block :=
  blockXor b (roundKey rk r)

/-! ## Rounds and the whole cipher -/

/-- AESER_body(r) (R323). -/
def encRound (rk : Vector KeyWord 44) (r : Fin 11) (b : Block) : Block :=
  if r = 0 then addRoundKey rk 0 b
  else if r ≤ 9 then addRoundKey rk r (mixColumns (shiftRows (subBytes b)))
  else addRoundKey rk 10 (shiftRows (subBytes b))

/-- AESDR_body(r) (R324). -/
def decRound (rk : Vector KeyWord 44) (r : Fin 11) (b : Block) : Block :=
  if r = 0 then addRoundKey rk 0 b
  else if r ≤ 9 then invSubBytes (invShiftRows (invMixColumns (addRoundKey rk r b)))
  else invSubBytes (invShiftRows (addRoundKey rk 10 b))

/-- E(X): AESER_body for r = 0..10 (R321). -/
def encryptBlock (rk : Vector KeyWord 44) (b : Block) : Block :=
  (List.finRange 11).foldl (fun x r => encRound rk r x) b

/-- AESDR_body for r = 10 down to 0 (R322). -/
def decryptBlock (rk : Vector KeyWord 44) (b : Block) : Block :=
  (List.finRange 11).foldr (fun r x => decRound rk r x) b

/-! ## Commands -/

/-- AESKEY (R320): load the schedule, KEYVALID ← 1, LNV ← 0. -/
def execAeskey (s : State) : Result :=
  completeOk { s with rk := expandKey s.aesKey, keyValid := true, lnv := false }

/-- AESENC (R321): NOKEY without a key. -/
def execAesenc (s : State) : Result :=
  if s.keyValid then completeOk { s with aesData := encryptBlock s.rk s.aesData }
  else raiseError .noKey s

/-- AESDEC (R322): NOKEY without a key. -/
def execAesdec (s : State) : Result :=
  if s.keyValid then completeOk { s with aesData := decryptBlock s.rk s.aesData }
  else raiseError .noKey s

/-- AESER (R323): OPERAND when IMM > 10 (R128), checked first (R405); then NOKEY. -/
def execAeser (r : Imm) (s : State) : Result :=
  if h : r.toNat < 11 then
    if s.keyValid then completeOk { s with aesData := encRound s.rk ⟨r.toNat, h⟩ s.aesData }
    else raiseError .noKey s
  else raiseError .operand s

/-- AESDR (R324): OPERAND when IMM > 10 (R128), checked first (R405); then NOKEY. -/
def execAesdr (r : Imm) (s : State) : Result :=
  if h : r.toNat < 11 then
    if s.keyValid then completeOk { s with aesData := decRound s.rk ⟨r.toNat, h⟩ s.aesData }
    else raiseError .noKey s
  else raiseError .operand s

end Sys2Proof.Machine
end

