-- ==== Sys2Proof/Machine/Ccm.lean ====
section
/-! DEFINITION. The CCM counter and MAC engine (R360-R368). -/

namespace Sys2Proof.Machine

/-! ## Inputs -/

/-- t (R360). -/
def State.tagLen (s : State) : Nat := s.ccmCfg.tlen.toNat

/-- n (R360). -/
def State.nonceLen (s : State) : Nat := s.ccmCfg.nlen.toNat

/-- a (R360). -/
def State.adLen (s : State) : Nat := s.ccmAlen.toNat

/-- p (R360). -/
def State.payLen (s : State) : Nat := s.ccmPlen.toNat

/-- N = NONCE[0..n-1] (R360). -/
def State.nonceBytes (s : State) : List Byte := (blockBytes s.nonce).take s.nonceLen

/-- AD = MSGBUF[0..a-1] (R360). -/
def State.adBytes (s : State) : List Byte := Memory.readRange s.msgbuf 0 s.adLen

/-- PL = MSGBUF[a..a+p-1] (R360). -/
def State.payload (s : State) : List Byte := Memory.readRange s.msgbuf s.adLen s.payLen

/-! ## Formatting, counter and MAC -/

/-- A byte string cut into `k` blocks, the last filled up with zero bytes (R361). -/
def cutBlocks : Nat → List Byte → List Block
  | 0, _ => []
  | k + 1, l => blockOfList (l.take 16) :: cutBlocks k (l.drop 16)

/-- A byte string followed by zero bytes up to a multiple of 16, as blocks; none when it is empty
(R361). -/
def paddedBlocks (l : List Byte) : List Block := cutBlocks ((l.length + 15) / 16) l

/-- The flags byte of B_0 (R361). -/
def formatFlags (t q a : Nat) : Byte :=
  BitVec.ofNat 8 (64 * (if 0 < a then 1 else 0) + 8 * ((t - 2) / 2) + (q - 1))

/-- B_0 = flags || N || [p]_q (R361). -/
def firstBlock (t : Nat) (nonce ad pay : List Byte) : Block :=
  blockOfList (formatFlags t (15 - nonce.length) ad.length :: nonce ++
    bigEndian (15 - nonce.length) pay.length)

/-- B_1 .. B_r: the associated data behind its two-byte length, then the payload (R361). -/
def laterBlocks (ad pay : List Byte) : List Block :=
  (if ad.length = 0 then [] else paddedBlocks (bigEndian 2 ad.length ++ ad)) ++ paddedBlocks pay

/-- Ctr_j = [q-1]_1 || N || [j]_q (R363). -/
def counterBlock (nonce : List Byte) (j : Nat) : Block :=
  blockOfList (BitVec.ofNat 8 (15 - nonce.length - 1) :: nonce ++ bigEndian (15 - nonce.length) j)

/-- The keystream S_1 || S_2 || ..., truncated to `len` bytes (R363). -/
def keystream (rk : Vector KeyWord 44) (nonce : List Byte) (len : Nat) : List Byte :=
  ((List.range ((len + 15) / 16)).flatMap fun j =>
    blockBytes (encryptBlock rk (counterBlock nonce (j + 1)))).take len

/-- The chaining of R364: Y <- E(Y xor B_i). -/
def cbcMac (rk : Vector KeyWord 44) (y : Block) (bs : List Block) : Block :=
  bs.foldl (fun y b => encryptBlock rk (blockXor y b)) y

/-- `mac(N, AD, P)` (R364): the tag of t bytes, encrypted with S_0 unless TAGRAW = 1. -/
def ccmTag (rk : Vector KeyWord 44) (t : Nat) (tagraw : Bool) (nonce ad pay : List Byte) :
    List Byte :=
  let y := cbcMac rk (encryptBlock rk (firstBlock t nonce ad pay)) (laterBlocks ad pay)
  let raw := (blockBytes y).take t
  if tagraw then raw
  else xorBytes raw (blockBytes (encryptBlock rk (counterBlock nonce 0)))

/-! ## Checks -/

/-- The configuration check (R362). -/
def State.ccmConfigOk (s : State) : Bool :=
  decide (s.tagLen ∈ [4, 6, 8, 10, 12, 14, 16]) && decide (7 ≤ s.nonceLen) &&
    decide (s.nonceLen ≤ 13) && decide (s.adLen + s.payLen ≤ Config.msgbufBytes)

/-- The nonce-reuse check trips (R365): the first n bytes of NONCE, read as a big-endian number, do
not exceed those of LAST_NONCE. -/
def State.nonceReused (s : State) : Bool :=
  s.ccmCfg.nchk && s.lnv &&
    decide (bigEndianValue s.nonceBytes ≤
      bigEndianValue ((blockBytes s.lastNonce).take s.nonceLen))

/-- The constant-time comparison of R366: no bit of the exclusive or is 1. -/
def tagsEqual (expected received : List Byte) : Bool :=
  (xorBytes expected received).foldl (· ||| ·) (0 : Byte) == 0

/-! ## Commands -/

/-- The state after a successful seal, before the bookkeeping (R367). -/
def sealState (s : State) : State :=
  let N := s.nonceBytes
  let P := s.payload
  { s with
    msgbuf := Memory.writeRange s.msgbuf s.adLen (xorBytes P (keystream s.rk N s.payLen))
    tag := blockOfList (ccmTag s.rk s.tagLen s.ccmCfg.tagraw N s.adBytes P)
    lastNonce := blockOfList N
    lnv := true }

/-- CCMSEAL (R367): NOKEY, CONFIG, NONCE in this order, each with nothing written. -/
def execCcmseal (s : State) : Result :=
  if !s.keyValid then raiseError .noKey s
  else if !s.ccmConfigOk then raiseError .config s
  else if s.nonceReused then raiseError .nonce s
  else completeOk (sealState s)

/-- The candidate plaintext of CCMOPEN (R368). -/
def State.openedPayload (s : State) : List Byte :=
  xorBytes s.payload (keystream s.rk s.nonceBytes s.payLen)

/-- Whether the received tag is the expected one (R366, R368). -/
def State.tagMatches (s : State) : Bool :=
  tagsEqual (ccmTag s.rk s.tagLen s.ccmCfg.tagraw s.nonceBytes s.adBytes s.openedPayload)
    ((blockBytes s.tag).take s.tagLen)

/-- CCMOPEN (R368): NOKEY, CONFIG, then AUTH, which zeroes the payload region (R402). -/
def execCcmopen (s : State) : Result :=
  if !s.keyValid then raiseError .noKey s
  else if !s.ccmConfigOk then raiseError .config s
  else if s.tagMatches then
    completeOk { s with msgbuf := Memory.writeRange s.msgbuf s.adLen s.openedPayload }
  else
    raiseError .auth
      { s with msgbuf := Memory.writeRange s.msgbuf s.adLen (List.replicate s.payLen 0) }

end Sys2Proof.Machine
end

