-- ==== Sys2Proof/Machine/Flags.lean ====
section
/-! DEFINITION. The five flags: how each is computed and written (R50 and the rules it names). -/

namespace Sys2Proof.Machine

/-- The carry out of a W-bit addition: bit W of the exact sum (R180). -/
def carryOut (W a b : Nat) : Bool := (a + b).testBit W

/-- The borrow of a subtraction (R181). -/
def borrowOut (a b : Nat) : Bool := decide (a < b)

/-- Bit k of a W-bit value, 0 when k ≥ W (R188). -/
def bitAt (W v k : Nat) : Bool := decide (k < W) && v.testBit k

/-- INF after a point result: the written Z is 0 (R272). -/
def infOf (P : Triple) : Bool := P.z == 0

/-- `flag.CARRY <- b`. -/
def State.setCarry (s : State) (b : Bool) : State := { s with flags := { s.flags with carry := b } }

/-- `flag.BIT <- b`. -/
def State.setBit (s : State) (b : Bool) : State := { s with flags := { s.flags with bit := b } }

/-- `flag.CMP <- b`. -/
def State.setCmp (s : State) (b : Bool) : State := { s with flags := { s.flags with cmp := b } }

/-- `flag.INF <- b`. -/
def State.setInf (s : State) (b : Bool) : State := { s with flags := { s.flags with inf := b } }

/-- `flag.VALID <- b`. -/
def State.setValid (s : State) (b : Bool) : State := { s with flags := { s.flags with valid := b } }

end Sys2Proof.Machine
end

