-- ==== Sys2Proof/Machine/Control.lean ====
section
/-! DEFINITION. The control commands NOP, ZEROIZE and MOV (R160-R162). -/

namespace Sys2Proof.Machine

/-- NOP (R160): only the completion bookkeeping. -/
def execNop (s : State) : Result := completeOk s

/-- The state that ZEROIZE leaves before the bookkeeping (R161): all data and key state at its
reset value; CCM_CFG, IRQ_EN, IRQ_STATUS, the CMD readback and LASTOP kept. -/
def zeroizeState (s : State) : State :=
  { s with
    slots := Vector.replicate 16 0
    points := Vector.replicate 4 zeroPoint
    cp := 0
    ca := 0
    cb := 0
    aesKey := zeroBlock
    aesData := zeroBlock
    nonce := zeroBlock
    tag := zeroBlock
    lastNonce := zeroBlock
    rk := Vector.replicate 44 0
    keyValid := false
    lnv := false
    msgbuf := []
    ccmAlen := 0
    ccmPlen := 0
    flags := .clear }

/-- ZEROIZE (R161). -/
def execZeroize (s : State) : Result := completeOk (zeroizeState s)

/-- MOV (R162): `S[D] <- S[A]`. -/
def execMov (d a : Slot) (s : State) : Result := completeOk (s.setSlot d (s.slot a))

end Sys2Proof.Machine
end

