-- ==== Sys2Proof/Machine/Modular.lean ====
section
/-! DEFINITION. The modular reduction engine (R220-R228). -/

namespace Sys2Proof.Machine

/-- `select(v >= n, v - n, v)`: one correction after an addition (R18, R220). -/
def correctOnce (n v : Nat) : Nat := if n ≤ v then v - n else v

/-- ADDMOD's value, before it is taken modulo 2^W (R220). -/
def addMod (a b n : Nat) : Nat := correctOnce n (a + b)

/-- SUBMOD's value, modulo R = 2^W (R221). -/
def subMod (R a b n : Nat) : Nat :=
  let d := (a + R - b) % R
  if a < b then (d + n) % R else d

/-- The exponentiation ladder of R224 from bit `i - 1` down to bit 0, at the running value r. -/
def ladder (a e n : Nat) : Nat → Nat → Nat
  | 0, r => r
  | i + 1, r =>
    let r := r * r % n
    let t := r * a % n
    ladder a e n i (if e.testBit i then t else r)

/-- a^e mod n by W iterations of the ladder (R224). -/
def modExp (W a e n : Nat) : Nat := ladder a e n W (1 % n)

/-- ADDMOD (R220): no modulus value is an error. -/
def execAddmod (d a b n : Slot) (s : State) : Result :=
  completeOk (s.setSlot d (addMod (s.slot a) (s.slot b) (s.slot n)))

/-- SUBMOD (R221): no modulus value is an error. -/
def execSubmod (d a b n : Slot) (s : State) : Result :=
  completeOk (s.setSlot d (subMod s.radix (s.slot a) (s.slot b) (s.slot n)))

/-- MODRED (R222): the 2W-bit value hi·2^W + lo modulo n. -/
def execModred (d a b n : Slot) (s : State) : Result :=
  if s.slot n = 0 then raiseError .divZero s
  else completeOk (s.setSlot d ((s.slot b * s.radix + s.slot a) % s.slot n))

/-- DIVMOD (R223): quotient to D, remainder to E; OPERAND when D = E (R127). -/
def execDivmod (d e a n : Slot) (s : State) : Result :=
  if d = e then raiseError .operand s
  else if s.slot n = 0 then raiseError .divZero s
  else completeOk ((s.setSlot d (s.slot a / s.slot n)).setSlot e (s.slot a % s.slot n))

/-- MODEXP (R224). -/
def execModexp (d a b n : Slot) (s : State) : Result :=
  if s.slot n = 0 then raiseError .divZero s
  else completeOk (s.setSlot d (modExp s.width (s.slot a) (s.slot b) (s.slot n)))

/-- MODINV (R225): a^(n-2) mod n, by the same ladder. -/
def execModinv (d a n : Slot) (s : State) : Result :=
  if s.slot n < 2 then raiseError .modulus s
  else completeOk (s.setSlot d (modExp s.width (s.slot a) (s.slot n - 2) (s.slot n)))

end Sys2Proof.Machine
end

