-- ==== Sys2Proof/Machine/Curve.lean ====
section
/-! DEFINITION. The elliptic-curve point commands (R270-R280). -/

namespace Sys2Proof.Machine

/-! ## Field arithmetic: least non-negative residues mod p (R19) -/

/-- x + y mod p. -/
def fieldAdd (p x y : Nat) : Nat := (x + y) % p

/-- x - y mod p. -/
def fieldSub (p x y : Nat) : Nat := (x + (p - y % p)) % p

/-- x · y mod p. -/
def fieldMul (p x y : Nat) : Nat := x * y % p

/-- x² mod p. -/
def fieldSq (p x : Nat) : Nat := fieldMul p x x

/-! ## Point bodies -/

/-- PNEG's result on reduced coordinates (R275). -/
def pointNeg (p : Nat) (P : Triple) : Triple :=
  Triple.norm p { x := P.x, y := (p - P.y) % p, z := P.z }

/-- PDBL_body (R276): the doubling formulas for a general a. -/
def pointDouble (p a : Nat) (P : Triple) : Triple :=
  let x1 := P.x % p
  let y1 := P.y % p
  let z1 := P.z % p
  if z1 = 0 then Triple.infinity
  else
    let w := fieldAdd p (fieldMul p a (fieldSq p z1)) (fieldMul p 3 (fieldSq p x1))
    let s := fieldMul p y1 z1
    let b := fieldMul p (fieldMul p x1 y1) s
    let h := fieldSub p (fieldSq p w) (fieldMul p 8 b)
    let x3 := fieldMul p (fieldMul p 2 h) s
    let y3 := fieldSub p (fieldMul p w (fieldSub p (fieldMul p 4 b) h))
      (fieldMul p (fieldMul p 8 (fieldSq p y1)) (fieldSq p s))
    let z3 := fieldMul p 8 (fieldMul p s (fieldSq p s))
    Triple.norm p { x := x3, y := y3, z := z3 }

/-- The general sum of R277, with its u and v. -/
def pointSum (p : Nat) (P Q : Triple) (u v : Nat) : Triple :=
  let uu := fieldSq p u
  let vv := fieldSq p v
  let vvv := fieldMul p v vv
  let rv := fieldMul p (fieldMul p vv P.x) Q.z
  let av := fieldSub p (fieldSub p (fieldMul p (fieldMul p uu P.z) Q.z) vvv) (fieldMul p 2 rv)
  let x3 := fieldMul p v av
  let y3 := fieldSub p (fieldMul p u (fieldSub p rv av)) (fieldMul p (fieldMul p vvv P.y) Q.z)
  let z3 := fieldMul p (fieldMul p vvv P.z) Q.z
  Triple.norm p { x := x3, y := y3, z := z3 }

/-- PADD_body (R277), with its special cases. -/
def pointAdd (p a : Nat) (P Q : Triple) : Triple :=
  let P := P.reduce p
  let Q := Q.reduce p
  if P.z = 0 then Triple.norm p Q
  else if Q.z = 0 then Triple.norm p P
  else
    let u := fieldSub p (fieldMul p Q.y P.z) (fieldMul p P.y Q.z)
    let v := fieldSub p (fieldMul p Q.x P.z) (fieldMul p P.x Q.z)
    if v = 0 then if u = 0 then pointDouble p a P else Triple.infinity
    else pointSum p P Q u v

/-- The loop of R278 from bit `i - 1` down to bit 0, at the running point Q. -/
def pointLadder (p a k : Nat) (P : Triple) : Nat → Triple → Triple
  | 0, Q => Q
  | i + 1, Q =>
    let Q := pointDouble p a Q
    let T := pointAdd p a Q P
    pointLadder p a k P i (if k.testBit i then T else Q)

/-- k·P by W iterations (R278). -/
def pointMul (W p a k : Nat) (P : Triple) : Triple := pointLadder p a k P W Triple.infinity

/-- PAFF's result on any triple (R279): the Fermat inverse of Z is computed as MODINV does. -/
def pointAffine (W p : Nat) (P : Triple) : Triple :=
  let x := P.x % p
  let y := P.y % p
  let z := P.z % p
  if z = 0 then Triple.infinity
  else
    let zi := modExp W z (p - 2) p
    { x := x * zi % p, y := y * zi % p, z := 1 }

/-- PVALID's test (R280): not infinity, and Y²Z = X³ + aXZ² + bZ³ mod p. -/
def pointOnCurve (p a b : Nat) (P : Triple) : Bool :=
  let x := P.x % p
  let y := P.y % p
  let z := P.z % p
  z != 0 && (y ^ 2 * z) % p == (x ^ 3 + a * x * z ^ 2 + b * z ^ 3) % p

/-! ## Commands -/

/-- The shared end of the point commands: PT[D] <- P and INF (R272). -/
def writePoint (d : PointIx) (P : Triple) (s : State) : State :=
  (s.setPoint d P).setInf (infOf P)

/-- PINF (R273): no curve check. -/
def execPinf (d : PointIx) (s : State) : Result := completeOk (writePoint d Triple.infinity s)

/-- PMOV (R274): all coordinates as stored; no curve check, no flag. -/
def execPmov (d a : PointIx) (s : State) : Result := completeOk (s.setPoint d (s.point a))

/-- PNEG (R275). -/
def execPneg (d a : PointIx) (s : State) : Result :=
  if s.curveOk then
    completeOk (writePoint d (pointNeg s.curveP ((s.point a).reduce s.curveP)) s)
  else raiseError .modulus s

/-- PDBL (R276). -/
def execPdbl (d a : PointIx) (s : State) : Result :=
  if s.curveOk then completeOk (writePoint d (pointDouble s.curveP s.curveA (s.point a)) s)
  else raiseError .modulus s

/-- PADD (R277). -/
def execPadd (d a b : PointIx) (s : State) : Result :=
  if s.curveOk then
    completeOk (writePoint d (pointAdd s.curveP s.curveA (s.point a) (s.point b)) s)
  else raiseError .modulus s

/-- PMUL (R278). -/
def execPmul (d : PointIx) (a : Slot) (b : PointIx) (s : State) : Result :=
  if s.curveOk then
    completeOk (writePoint d (pointMul s.width s.curveP s.curveA (s.slot a) (s.point b)) s)
  else raiseError .modulus s

/-- PAFF (R279). -/
def execPaff (d a : PointIx) (s : State) : Result :=
  if s.curveOk then completeOk (writePoint d (pointAffine s.width s.curveP (s.point a)) s)
  else raiseError .modulus s

/-- PVALID (R280): only VALID is written. -/
def execPvalid (a : PointIx) (s : State) : Result :=
  if s.curveOk then
    completeOk (s.setValid (pointOnCurve s.curveP s.curveA s.curveB (s.point a)))
  else raiseError .modulus s

end Sys2Proof.Machine
end

