-- ==== Sys2Proof/Machine/Integer.lean ====
section
/-! DEFINITION. The fixed-width integer commands (R180-R189). -/

namespace Sys2Proof.Machine

/-- The all-ones mask when the predicate holds, else 0 (R183, R184). -/
def maskOf (W : Nat) (b : Bool) : Nat := if b then 2 ^ W - 1 else 0

/-- `(d & ~m) | (a & m)` on W-bit values (R185). -/
def maskedMerge (W d a m : Nat) : Nat := (d &&& (2 ^ W - 1 - m)) ||| (a &&& m)

/-- ADD (R180). -/
def execAdd (d a b : Slot) (s : State) : Result :=
  completeOk ((s.setSlot d (s.slot a + s.slot b)).setCarry (carryOut s.width (s.slot a) (s.slot b)))

/-- SUB (R181): the difference modulo 2^W; CARRY holds the borrow. -/
def execSub (d a b : Slot) (s : State) : Result :=
  completeOk ((s.setSlot d (s.slot a + s.radix - s.slot b)).setCarry
    (borrowOut (s.slot a) (s.slot b)))

/-- MUL (R182): the low half to D, the high half to E; OPERAND when D = E (R127). -/
def execMul (d e a b : Slot) (s : State) : Result :=
  if d = e then raiseError .operand s
  else completeOk ((s.setSlot d (s.slot a * s.slot b % s.radix)).setSlot e
    (s.slot a * s.slot b / s.radix))

/-- CMPEQ (R183). -/
def execCmpeq (d a b : Slot) (s : State) : Result :=
  completeOk ((s.setSlot d (maskOf s.width (s.slot a == s.slot b))).setCmp (s.slot a == s.slot b))

/-- CMPLT (R184): unsigned. -/
def execCmplt (d a b : Slot) (s : State) : Result :=
  completeOk ((s.setSlot d (maskOf s.width (decide (s.slot a < s.slot b)))).setCmp
    (decide (s.slot a < s.slot b)))

/-- CMOV (R185): D is also an input. -/
def execCmov (d a b : Slot) (s : State) : Result :=
  completeOk (s.setSlot d (maskedMerge s.width (s.slot d) (s.slot a) (s.slot b)))

/-- SHL (R186): a count of W or more gives 0. -/
def execShl (d a : Slot) (k : Imm) (s : State) : Result :=
  completeOk (s.setSlot d (if k.toNat < s.width then s.slot a <<< k.toNat else 0))

/-- SHR (R187): a count of W or more gives 0. -/
def execShr (d a : Slot) (k : Imm) (s : State) : Result :=
  completeOk (s.setSlot d (if k.toNat < s.width then s.slot a >>> k.toNat else 0))

/-- GETBIT (R188). -/
def execGetbit (d a : Slot) (k : Imm) (s : State) : Result :=
  completeOk ((s.setSlot d (bitAt s.width (s.slot a) k.toNat).toNat).setBit
    (bitAt s.width (s.slot a) k.toNat))

end Sys2Proof.Machine
end

