-- ==== Sys2Proof/Machine/Montgomery.lean ====
section
/-! DEFINITION. The Montgomery multiplier (R250-R257). -/

namespace Sys2Proof.Machine

/-- One Newton step towards the inverse of n modulo R: the number of right low bits doubles. -/
def inverseStep (R n x : Nat) : Nat := x * (R + 2 - n * x % R) % R

/-- `k` Newton steps from 1, which is right modulo 2 for an odd n. -/
def inverseSteps (R n : Nat) : Nat → Nat
  | 0 => 1 % R
  | k + 1 => inverseStep R n (inverseSteps R n k)

/-- n^(-1) mod R for an odd n and R = 2^W with W ≤ 512: nine steps give 2^9 right bits.  The method
is not observable: only the result is given (R250, log 12). -/
def inverseMod (R n : Nat) : Nat := inverseSteps R n 9

/-- n' = (R - n^(-1) mod R) mod R (R250). -/
def montgomeryConstant (R n : Nat) : Nat := (R - inverseMod R n) % R

/-- R251's pseudocode from `t <- a * b` on. -/
def montgomeryProduct (R a b n np : Nat) : Nat :=
  let t := a * b
  let m := t % R * np % R
  let u := (t + m * n) / R
  correctOnce n u

/-- MONTSETUP (R250): MODULUS when the modulus is even. -/
def execMontsetup (d n : Slot) (s : State) : Result :=
  if s.slot n % 2 = 0 then raiseError .modulus s
  else completeOk (s.setSlot d (montgomeryConstant s.radix (s.slot n)))

/-- MONTMUL (R251): MODULUS when the modulus is even; n' is not checked. -/
def execMontmul (d a b n e : Slot) (s : State) : Result :=
  if s.slot n % 2 = 0 then raiseError .modulus s
  else completeOk (s.setSlot d
    (montgomeryProduct s.radix (s.slot a) (s.slot b) (s.slot n) (s.slot e)))

/-- TOMONT (R252): (a · R) mod n; MODULUS when the modulus is even. -/
def execTomont (d a n : Slot) (s : State) : Result :=
  if s.slot n % 2 = 0 then raiseError .modulus s
  else completeOk (s.setSlot d (s.slot a * s.radix % s.slot n))

/-- FROMMONT (R253): R251 with b = 1; MODULUS when the modulus is even. -/
def execFrommont (d a n e : Slot) (s : State) : Result :=
  if s.slot n % 2 = 0 then raiseError .modulus s
  else completeOk (s.setSlot d
    (montgomeryProduct s.radix (s.slot a) 1 (s.slot n) (s.slot e)))

end Sys2Proof.Machine
end

