-- ==== Sys2Proof/Machine/Dispatch.lean ====
section
/-! DEFINITION. One arm per command: the body of R404's step, with its bookkeeping. -/

namespace Sys2Proof.Machine

def exec (i : Instr) (s : State) : Host.Outcome State Fault Refusal :=
  match i with
  | .nop => Sys2Proof.Machine.execNop s
  | .zeroize => Sys2Proof.Machine.execZeroize s
  | .mov d a => Sys2Proof.Machine.execMov d a s
  | .add d a b => Sys2Proof.Machine.execAdd d a b s
  | .sub d a b => Sys2Proof.Machine.execSub d a b s
  | .mul d e a b => Sys2Proof.Machine.execMul d e a b s
  | .cmpeq d a b => Sys2Proof.Machine.execCmpeq d a b s
  | .cmplt d a b => Sys2Proof.Machine.execCmplt d a b s
  | .cmov d a b => Sys2Proof.Machine.execCmov d a b s
  | .shl d a k => Sys2Proof.Machine.execShl d a k s
  | .shr d a k => Sys2Proof.Machine.execShr d a k s
  | .getbit d a k => Sys2Proof.Machine.execGetbit d a k s
  | .addmod d a b n => Sys2Proof.Machine.execAddmod d a b n s
  | .submod d a b n => Sys2Proof.Machine.execSubmod d a b n s
  | .modred d a b n => Sys2Proof.Machine.execModred d a b n s
  | .divmod d e a n => Sys2Proof.Machine.execDivmod d e a n s
  | .modexp d a b n => Sys2Proof.Machine.execModexp d a b n s
  | .modinv d a n => Sys2Proof.Machine.execModinv d a n s
  | .montsetup d n => Sys2Proof.Machine.execMontsetup d n s
  | .montmul d a b n e => Sys2Proof.Machine.execMontmul d a b n e s
  | .tomont d a n => Sys2Proof.Machine.execTomont d a n s
  | .frommont d a n e => Sys2Proof.Machine.execFrommont d a n e s
  | .pinf d => Sys2Proof.Machine.execPinf d s
  | .pmov d a => Sys2Proof.Machine.execPmov d a s
  | .pneg d a => Sys2Proof.Machine.execPneg d a s
  | .pdbl d a => Sys2Proof.Machine.execPdbl d a s
  | .padd d a b => Sys2Proof.Machine.execPadd d a b s
  | .pmul d a b => Sys2Proof.Machine.execPmul d a b s
  | .paff d a => Sys2Proof.Machine.execPaff d a s
  | .pvalid a => Sys2Proof.Machine.execPvalid a s
  | .aeskey => Sys2Proof.Machine.execAeskey s
  | .aesenc => Sys2Proof.Machine.execAesenc s
  | .aesdec => Sys2Proof.Machine.execAesdec s
  | .aeser r => Sys2Proof.Machine.execAeser r s
  | .aesdr r => Sys2Proof.Machine.execAesdr r s
  | .ccmseal => Sys2Proof.Machine.execCcmseal s
  | .ccmopen => Sys2Proof.Machine.execCcmopen s

end Sys2Proof.Machine
end

