-- ==== Sys2Proof/Machine/Step.lean ====
section
/-! DEFINITION. One step of the interleaving of host accesses, engine completions and resets (R25,
R91). -/

namespace Sys2Proof.Machine

/-- The engine's step (R404): decode and run the pending word; not enabled while BUSY = 0. -/
def engineStep (s : State) : Result :=
  match s.pending with
  | none => .next s
  | some w =>
    match decode w with
    | .error e => rejectWord e s
    | .ok i => exec i s

/-- One event: the next of the schedule, or the engine's step when no event is left (R91, R472). -/
def step (s : State) : Host.Outcome State Fault Refusal :=
  match s.schedule with
  | [] => engineStep s
  | .engine :: rest => engineStep { s with schedule := rest }
  | .host a :: rest => .next (hostAccess a { s with schedule := rest })
  | .reset :: rest => .next (resetEvent { s with schedule := rest })

/-- `s` with the word w accepted (R403) and the engine's step next, so that the next step runs
exactly that command: with no event to come the engine runs on its own, else its step is put before
them (log 4). -/
def State.withFetchWord (s : State) (nbits w : Nat) : State :=
  { accept (BitVec.ofNat 64 (w % 2 ^ nbits)) s with
    schedule :=
      match s.schedule with
      | [] => []
      | t :: rest => .engine :: t :: rest }

end Sys2Proof.Machine
end

