-- ==== Sys2Proof/Safety.lean ====
section
/-! DEFINITION. The vocabulary of the statements: a command word by its bit positions, what a
completion reports, what a command leaves unchanged, and the invariant of the machine. -/

namespace Sys2Proof.Machine

/-! ## Command words -/

/-- The command word with the given field values, as a number: OP at bit 0, D at 8, A at 12, B at
16, N at 20, E at 24, IMM at 32 (R121). -/
def commandWord (op : Nat) (d a b n e imm : Nat := 0) : Word :=
  BitVec.ofNat 64
    (op + 2 ^ 8 * d + 2 ^ 12 * a + 2 ^ 16 * b + 2 ^ 20 * n + 2 ^ 24 * e + 2 ^ 32 * imm)

/-- The opcode map as opcode and mask, copied from the spec's opcode table (R125); each row's match
is its opcode.  The decoder has its own masks, computed from the kinds of the fields. -/
def specMasks : List (BitVec 8 × Word) :=
  [(0x00, 0xffffffffffffffff), (0x01, 0xffffffffffffffff), (0x02, 0xffffffffffff00ff),
   (0x10, 0xfffffffffff000ff), (0x11, 0xfffffffffff000ff), (0x12, 0xfffffffff0f000ff),
   (0x13, 0xfffffffffff000ff), (0x14, 0xfffffffffff000ff), (0x15, 0xfffffffffff000ff),
   (0x16, 0xffff0000ffff00ff), (0x17, 0xffff0000ffff00ff), (0x18, 0xffff0000ffff00ff),
   (0x20, 0xffffffffff0000ff), (0x21, 0xffffffffff0000ff), (0x22, 0xffffffffff0000ff),
   (0x23, 0xfffffffff00f00ff), (0x24, 0xffffffffff0000ff), (0x25, 0xffffffffff0f00ff)] ++
  [(0x30, 0xffffffffff0ff0ff), (0x31, 0xfffffffff00000ff), (0x32, 0xffffffffff0f00ff),
   (0x33, 0xfffffffff00f00ff), (0x40, 0xfffffffffffffcff), (0x41, 0xffffffffffffccff),
   (0x42, 0xffffffffffffccff), (0x43, 0xffffffffffffccff), (0x44, 0xfffffffffffcccff),
   (0x45, 0xfffffffffffc0cff), (0x46, 0xffffffffffffccff), (0x47, 0xffffffffffffcfff),
   (0x50, 0xffffffffffffffff), (0x51, 0xffffffffffffffff), (0x52, 0xffffffffffffffff),
   (0x53, 0xffff0000ffffffff), (0x54, 0xffff0000ffffffff), (0x60, 0xffffffffffffffff),
   (0x61, 0xffffffffffffffff)]

/-! ## Completion -/

/-- What a completion with a code leaves in the engine's reports (R404). -/
structure Completed (code : ErrorCode) (s t : State) : Prop where
  pending : t.pending = none
  err     : t.err = (code != .ok)
  errCode : t.errCode = code
  irqDone : t.irqStatus.done = true
  irqErr  : t.irqStatus.err = (s.irqStatus.err || code != .ok)
  irqOvr  : t.irqStatus.ovr = s.irqStatus.ovr

/-! ## Frames -/

/-- The state that a command may change, beside the completion reports. -/
structure Touch where
  slots     : List Slot := []
  points    : List PointIx := []
  carry     : Bool := false
  bit       : Bool := false
  cmp       : Bool := false
  inf       : Bool := false
  valid     : Bool := false
  aesData   : Bool := false
  tag       : Bool := false
  lastNonce : Bool := false
  rk        : Bool := false
  keyValid  : Bool := false
  lnv       : Bool := false
  /-- The first byte of the MSGBUF region that may change. -/
  msgLo     : Nat := 0
  /-- The number of bytes of that region. -/
  msgLen    : Nat := 0

/-- Everything outside `τ` and the completion reports is as it was. -/
structure Frame (τ : Touch) (s t : State) : Prop where
  config    : t.config = s.config
  cmd       : t.cmd = s.cmd
  lastOp    : t.lastOp = s.lastOp
  irqEn     : t.irqEn = s.irqEn
  ccmCfg    : t.ccmCfg = s.ccmCfg
  ccmAlen   : t.ccmAlen = s.ccmAlen
  ccmPlen   : t.ccmPlen = s.ccmPlen
  aesKey    : t.aesKey = s.aesKey
  nonce     : t.nonce = s.nonce
  cp        : t.cp = s.cp
  ca        : t.ca = s.ca
  cb        : t.cb = s.cb
  schedule  : t.schedule = s.schedule
  response  : t.response = s.response
  slots     : ∀ i : Slot, i ∉ τ.slots → t.slots[i] = s.slots[i]
  points    : ∀ i : PointIx, i ∉ τ.points → t.points[i] = s.points[i]
  carry     : τ.carry = false → t.flags.carry = s.flags.carry
  bit       : τ.bit = false → t.flags.bit = s.flags.bit
  cmp       : τ.cmp = false → t.flags.cmp = s.flags.cmp
  inf       : τ.inf = false → t.flags.inf = s.flags.inf
  valid     : τ.valid = false → t.flags.valid = s.flags.valid
  aesData   : τ.aesData = false → t.aesData = s.aesData
  tag       : τ.tag = false → t.tag = s.tag
  lastNonce : τ.lastNonce = false → t.lastNonce = s.lastNonce
  rk        : τ.rk = false → t.rk = s.rk
  keyValid  : τ.keyValid = false → t.keyValid = s.keyValid
  lnv       : τ.lnv = false → t.lnv = s.lnv
  msgbuf    : ∀ j, ¬ (τ.msgLo ≤ j ∧ j < τ.msgLo + τ.msgLen) →
    Memory.read t.msgbuf j = Memory.read s.msgbuf j

/-- The command i completes without an error from s to t, and changes only what `τ` names. -/
def Runs (i : Instr) (τ : Touch) (s t : State) : Prop :=
  exec i s = .next t ∧ Completed .ok s t ∧ Frame τ s t

/-- The command i completes with an error code at s, and has no other effect (R402). -/
def Raises (code : ErrorCode) (i : Instr) (s : State) : Prop :=
  ∃ t, exec i s = .next t ∧ Completed code s t ∧ Frame {} s t

/-! ## Host reads -/

/-- A read of the word at a window offset is served and answers `data`, and it changes nothing but
the response (R80, R86). -/
def Reads (s : State) (off : Nat) (data : Word) : Prop :=
  hostAccess (.read (s.config.base + off) 8) s = { s with response := some (.readOkay data) }

/-! ## Nonces -/

/-- val(X) of R365: X[0]·256^(n-1) + X[1]·256^(n-2) + ... + X[n-1]. -/
def nonceValue (n : Nat) (X : Block) : Nat :=
  ((List.range n).map fun k => (blockByte X k).toNat * 256 ^ (n - 1 - k)).sum

/-! ## Points -/

/-- A triple of integers as a normalised point mod p (R270). -/
def normalised (p : Nat) (X Y Z : Int) : Triple :=
  if Z % p = 0 then { x := 0, y := 1, z := 0 }
  else { x := (X % p).toNat, y := (Y % p).toNat, z := (Z % p).toNat }

/-- The field modulus is one that the curve commands accept (R271). -/
def GoodCurve (s : State) : Prop := s.curveP % 2 = 1 ∧ 3 ≤ s.curveP

/-- The configuration is one that the CCM commands accept (R362). -/
def GoodCcmConfig (s : State) : Prop :=
  s.ccmCfg.tlen.toNat ∈ [4, 6, 8, 10, 12, 14, 16] ∧ 7 ≤ s.ccmCfg.nlen.toNat ∧
    s.ccmCfg.nlen.toNat ≤ 13 ∧ s.ccmAlen.toNat + s.ccmPlen.toNat ≤ 1024

/-! ## The invariant -/

/-- What every step keeps: the canonical form of MSGBUF, zero limbs at and above L (R83), the
agreement of STATUS.ERR with ERRCODE and of LASTOP with the CMD readback (R403, R404), that a
pending word is the last accepted one (R403), and that without a key the schedule is 0 and no
nonce is held (R48, R49). -/
structure Invariant (s : State) : Prop where
  msgbuf  : Memory.wf s.msgbuf
  slots   : ∀ i : Slot, s.slots[i].toNat < 2 ^ s.width
  points  : ∀ i : PointIx, s.points[i].x.toNat < 2 ^ s.width ∧
    s.points[i].y.toNat < 2 ^ s.width ∧ s.points[i].z.toNat < 2 ^ s.width
  curve   : s.cp.toNat < 2 ^ s.width ∧ s.ca.toNat < 2 ^ s.width ∧ s.cb.toNat < 2 ^ s.width
  err     : s.err = (s.errCode != .ok)
  lastOp  : s.lastOp = s.cmd.extractLsb' 0 8
  pending : ∀ w, s.pending = some w → w = s.cmd ∧ s.errCode = .ok
  noKey   : s.keyValid = false → s.rk = Vector.replicate 44 0 ∧ s.lnv = false

end Sys2Proof.Machine
end

