-- ==== Sys2Proof/Certificates/Slice0/Obligations.lean ====
section
/-! DEFINITION. The statements for the provers, rule by rule of the spec. -/

open Sys2Proof Sys2Proof.Machine

/-! ## Reset and the step -/

/-- R450 with the table of R55: the reset event gives every piece of state its reset value, whatever
the instance and the state before, and discards a pending command; the words the host reads are
those of R55, and `irq` is deasserted.  (What stays, `config` and `schedule`, is the model's own:
log 1 and log 3.) -/
def Obligations.ResetLeavesTheTable : Prop :=
  ∀ (s : State) (rest : List Turn), s.schedule = .reset :: rest →
    ∃ t, step s = .next t ∧ t.config = s.config ∧ t.schedule = rest ∧
      idWord t = idWord s ∧ t.busy = false ∧ t.pending = none ∧ t.cmd = 0 ∧ t.lastOp = 0 ∧ t.err = false ∧
      t.errCode = .ok ∧ statusWord t = 0 ∧ irqWord t.irqEn = 0 ∧ irqWord t.irqStatus = 0 ∧
      ccmCfgWord t.ccmCfg = 0x0000000000010D10 ∧ t.ccmAlen = 0 ∧ t.ccmPlen = 0 ∧
      (∀ j, j < 16 → blockByte t.aesKey j = 0 ∧ blockByte t.aesData j = 0 ∧
        blockByte t.nonce j = 0 ∧ blockByte t.tag j = 0 ∧ blockByte t.lastNonce j = 0) ∧
      (∀ i : Slot, t.slot i = 0) ∧
      (∀ i : PointIx, t.point i = { x := 0, y := 0, z := 0 }) ∧
      t.cp = 0 ∧ t.ca = 0 ∧ t.cb = 0 ∧ (∀ j, Memory.read t.msgbuf j = 0) ∧
      (∀ i : Fin 44, t.rk[i] = 0) ∧ t.keyValid = false ∧ t.lnv = false ∧ irq t = false

/-- What one step does with each event.  R404: when the engine's step is next and a word is pending,
the step runs the decoded command; a word that does not decode completes with ILLEGAL or OPERAND, as
its check says, and changes nothing else; with nothing pending the engine's step is not enabled and
only the event goes.  R25, R80, R91: a host event is that access, and nothing else.  That the events
to come stand in `schedule` (log 3), and that with none left the engine's step runs by itself
(log 8), is the model's choice. -/
def Obligations.StepRunsTheDecodedCommand : Prop :=
  ∀ (s : State) (rest : List Turn),
    ((s.schedule = .engine :: rest ∨ (s.schedule = [] ∧ rest = [])) →
      (∀ w, s.pending = some w →
        (∀ i, decode w = .ok i → step s = exec i { s with schedule := rest }) ∧
        (decode w = .error .illegal →
          ∃ t, step s = .next t ∧ Completed .illegal s t ∧
            Frame {} { s with schedule := rest } t) ∧
        (decode w = .error .operand →
          ∃ t, step s = .next t ∧ Completed .operand s t ∧
            Frame {} { s with schedule := rest } t)) ∧
      (s.pending = none → step s = .next { s with schedule := rest })) ∧
    (∀ a, s.schedule = .host a :: rest →
      step s = .next (hostAccess a { s with schedule := rest }))

/-- Command words written out in the spec decode to the commands the spec says they are: the example
of R131 and the programs of 95_test_vectors.md. -/
def Obligations.SpecWordsDecode : Prop :=
  decode 0x0000000003054631 = .ok (.montmul 6 4 5 0 3) ∧
  decode 0x0000000000001202 = .ok (.mov 2 1) ∧
  decode 0x0000000009021812 = .ok (.mul 8 9 1 2) ∧
  decode 0x0000000000098a22 = .ok (.modred 10 8 9 0) ∧
  decode 0x00000000000a7b13 = .ok (.cmpeq 11 7 10) ∧
  decode 0x0000000300002518 = .ok (.getbit 5 2 3) ∧
  decode 0x0000000000000145 = .ok (.pmul 1 0 0) ∧
  decode 0x0000000000032344 = .ok (.padd 3 2 3) ∧
  decode 0x0000000000000053 = .ok (.aeser 0) ∧
  decode 0x0000000000000060 = .ok .ccmseal ∧
  decode 0x00000000000000ff = .error .illegal ∧
  decode 0x8000000000021010 = .error .operand ∧
  decode 0x0000000001032112 = .error .operand ∧
  decode 0x0000000b00000053 = .error .operand ∧
  decode 0x0000000000000443 = .error .operand

/-- Decode and encode agree: decoding the word of a well-formed command gives the command back, with
every operand (R121, R125). -/
def Obligations.DecodeInvertsEncode : Prop :=
  ∀ i : Instr, i.wellFormed = true → decode (encode i) = .ok i

/-- A word that decodes is the encoding of a well-formed command: each legal word has one meaning
(R125, R126). -/
def Obligations.EncodeInvertsDecode : Prop :=
  ∀ (w : Word) (i : Instr), decode w = .ok i → i.wellFormed = true ∧ encode i = w

/-- R126: the checks of the decoder in their order.  The word is ILLEGAL exactly when its opcode is
in no row; else it is OPERAND when the mask test fails, then when MUL or DIVMOD has D = E (R127),
then when AESER or AESDR has IMM > 10 (R128); and a word that passes all of them decodes. -/
def Obligations.DecodeChecksInOrder : Prop :=
  ∀ w : Word,
    (decode w = .error .illegal ↔ ∀ r ∈ specMasks, r.1 ≠ w.extractLsb' 0 8) ∧
    ∀ r ∈ specMasks, r.1 = w.extractLsb' 0 8 →
      (w &&& r.2 ≠ r.1.setWidth 64 → decode w = .error .operand) ∧
      (w &&& r.2 = r.1.setWidth 64 →
        ((r.1 = 0x12 ∨ r.1 = 0x23) ∧ w.extractLsb' 8 4 = w.extractLsb' 24 4 →
          decode w = .error .operand) ∧
        ((r.1 = 0x53 ∨ r.1 = 0x54) ∧ 10 < (w.extractLsb' 32 16).toNat →
          decode w = .error .operand) ∧
        (¬ ((r.1 = 0x12 ∨ r.1 = 0x23) ∧ w.extractLsb' 8 4 = w.extractLsb' 24 4) →
          ¬ ((r.1 = 0x53 ∨ r.1 = 0x54) ∧ 10 < (w.extractLsb' 32 16).toNat) →
          ∃ i, decode w = .ok i))

/-! ## Control -/

/-- R160: NOP is the word 0; any other bit beside OP 0 makes it OPERAND; it completes normally and
changes nothing but the completion reports; once accepted, it ends with LASTOP 0 and no error. -/
def Obligations.NopOnlyCompletes : Prop :=
  decode 0x0000000000000000 = .ok .nop ∧
  (∀ w : Word, w.extractLsb' 0 8 = 0 → w ≠ 0 → decode w = .error .operand) ∧
  (∀ s, ∃ t, Runs .nop {} s t ∧ t.err = false ∧ t.errCode = .ok ∧ t.irqStatus.done = true) ∧
  ∀ s, ∃ t, exec .nop (accept 0 s) = .next t ∧ t.lastOp = 0 ∧ t.cmd = 0 ∧ t.err = false ∧
    t.busy = false

/-- R161: ZEROIZE leaves every state element at its reset value except CCM_CFG, IRQ_EN, IRQ_STATUS,
the CMD readback and LASTOP.  (`config`, `schedule` and `response` are the model's own: log 1 and
log 3.) -/
def Obligations.ZeroizeErasesAllButReports : Prop :=
  decode 0x0000000000000001 = .ok .zeroize ∧
  ∀ s, ∃ t, exec .zeroize s = .next t ∧ Completed .ok s t ∧
    t = { State.resetWith s.config with
      ccmCfg := s.ccmCfg, irqEn := s.irqEn, irqStatus := t.irqStatus, cmd := s.cmd,
      lastOp := s.lastOp, schedule := s.schedule, response := s.response } ∧
    (∀ i : Slot, t.slot i = 0) ∧ (∀ i : PointIx, t.point i = { x := 0, y := 0, z := 0 }) ∧
    (∀ j, Memory.read t.msgbuf j = 0) ∧ (∀ i : Fin 44, t.rk[i] = 0) ∧ t.flags = .clear

/-- R162: MOV copies all W bits of a slot and changes no other slot. -/
def Obligations.MovCopiesASlot : Prop :=
  ∀ (d a : Slot) (s : State),
    decode (commandWord 0x02 (d := d) (a := a)) = .ok (.mov d a) ∧
    ∃ t, Runs (.mov d a) { slots := [d] } s t ∧ t.slot d = s.slot a

/-! ## Integer -/

/-- R180: ADD writes the sum modulo 2^W; CARRY is bit W of the exact sum. -/
def Obligations.AddWritesSumAndCarry : Prop :=
  ∀ (d a b : Slot) (s : State),
    decode (commandWord 0x10 (d := d) (a := a) (b := b)) = .ok (.add d a b) ∧
    ∃ t, Runs (.add d a b) { slots := [d], carry := true } s t ∧
      t.slot d = (s.slot a + s.slot b) % 2 ^ s.width ∧
      (t.flags.carry = true ↔ 2 ^ s.width ≤ s.slot a + s.slot b)

/-- R181: SUB writes the difference modulo 2^W; CARRY is the borrow. -/
def Obligations.SubWritesDifferenceAndBorrow : Prop :=
  ∀ (d a b : Slot) (s : State),
    decode (commandWord 0x11 (d := d) (a := a) (b := b)) = .ok (.sub d a b) ∧
    ∃ t, Runs (.sub d a b) { slots := [d], carry := true } s t ∧
      (t.slot d : Int) = ((s.slot a : Int) - s.slot b) % 2 ^ s.width ∧
      (t.flags.carry = true ↔ s.slot a < s.slot b)

/-- R182: MUL writes the low half of the exact product to D and the high half to E; with D = E it is
OPERAND and writes nothing (R127). -/
def Obligations.MulWritesBothHalves : Prop :=
  ∀ (d e a b : Slot) (s : State),
    (d ≠ e →
      decode (commandWord 0x12 (d := d) (e := e) (a := a) (b := b)) = .ok (.mul d e a b) ∧
      ∃ t, Runs (.mul d e a b) { slots := [d, e] } s t ∧
        t.slot d < 2 ^ s.width ∧ t.slot d + 2 ^ s.width * t.slot e = s.slot a * s.slot b) ∧
    (d = e →
      decode (commandWord 0x12 (d := d) (e := e) (a := a) (b := b)) = .error .operand ∧
      Raises .operand (.mul d e a b) s)

/-- R183 and R184: CMPEQ and CMPLT write the all-ones or all-zero mask and CMP. -/
def Obligations.ComparesWriteMaskAndCmp : Prop :=
  ∀ (d a b : Slot) (s : State),
    decode (commandWord 0x13 (d := d) (a := a) (b := b)) = .ok (.cmpeq d a b) ∧
    decode (commandWord 0x14 (d := d) (a := a) (b := b)) = .ok (.cmplt d a b) ∧
    (∃ t, Runs (.cmpeq d a b) { slots := [d], cmp := true } s t ∧
      t.slot d = (if s.slot a = s.slot b then 2 ^ s.width - 1 else 0) ∧
      (t.flags.cmp = true ↔ s.slot a = s.slot b)) ∧
    (∃ t, Runs (.cmplt d a b) { slots := [d], cmp := true } s t ∧
      t.slot d = (if s.slot a < s.slot b then 2 ^ s.width - 1 else 0) ∧
      (t.flags.cmp = true ↔ s.slot a < s.slot b))

/-- R185: CMOV takes each bit of S[A] where the mask S[B] has a 1 and keeps the bit of S[D] where it
has a 0. -/
def Obligations.CmovMergesBitByBit : Prop :=
  ∀ (d a b : Slot) (s : State),
    decode (commandWord 0x15 (d := d) (a := a) (b := b)) = .ok (.cmov d a b) ∧
    ∃ t, Runs (.cmov d a b) { slots := [d] } s t ∧
      ∀ k, (t.slot d).testBit k =
        if (s.slot b).testBit k then (s.slot a).testBit k else (s.slot d).testBit k

/-- R186 and R187: SHL and SHR by an immediate count; a count of W or more gives 0. -/
def Obligations.ShiftsByAnImmediate : Prop :=
  ∀ (d a : Slot) (k : Imm) (s : State),
    decode (commandWord 0x16 (d := d) (a := a) (imm := k.toNat)) = .ok (.shl d a k) ∧
    decode (commandWord 0x17 (d := d) (a := a) (imm := k.toNat)) = .ok (.shr d a k) ∧
    (∃ t, Runs (.shl d a k) { slots := [d] } s t ∧
      t.slot d =
        if k.toNat < s.width then s.slot a * 2 ^ k.toNat % 2 ^ s.width else 0) ∧
    (∃ t, Runs (.shr d a k) { slots := [d] } s t ∧
      t.slot d = if k.toNat < s.width then s.slot a / 2 ^ k.toNat else 0)

/-- R188: GETBIT writes bit k of S[A], or 0 for k ≥ W, to S[D] and to BIT. -/
def Obligations.GetbitWritesOneBit : Prop :=
  ∀ (d a : Slot) (k : Imm) (s : State),
    decode (commandWord 0x18 (d := d) (a := a) (imm := k.toNat)) = .ok (.getbit d a k) ∧
    ∃ t, Runs (.getbit d a k) { slots := [d], bit := true } s t ∧
      t.slot d = (if k.toNat < s.width then s.slot a / 2 ^ k.toNat % 2 else 0) ∧
      (t.flags.bit = true ↔ t.slot d = 1)

/-! ## Modular reduction -/

/-- R220: ADDMOD subtracts n once when the exact sum reaches it; with reduced operands that is the
sum mod n, and with n = 0 the sum mod 2^W. -/
def Obligations.AddmodCorrectsOnce : Prop :=
  ∀ (d a b n : Slot) (s : State),
    decode (commandWord 0x20 (d := d) (a := a) (b := b) (n := n)) = .ok (.addmod d a b n) ∧
    ∃ t, Runs (.addmod d a b n) { slots := [d] } s t ∧
      t.slot d = (if s.slot n ≤ s.slot a + s.slot b then s.slot a + s.slot b - s.slot n
        else s.slot a + s.slot b) % 2 ^ s.width ∧
      (s.slot a < s.slot n → s.slot b < s.slot n →
        t.slot d = (s.slot a + s.slot b) % s.slot n) ∧
      (s.slot n = 0 → t.slot d = (s.slot a + s.slot b) % 2 ^ s.width)

/-- R221: SUBMOD adds n once when the difference borrows; with reduced operands that is the
difference mod n. -/
def Obligations.SubmodCorrectsOnce : Prop :=
  ∀ (d a b n : Slot) (s : State),
    decode (commandWord 0x21 (d := d) (a := a) (b := b) (n := n)) = .ok (.submod d a b n) ∧
    ∃ t, Runs (.submod d a b n) { slots := [d] } s t ∧
      (t.slot d : Int) =
        (if s.slot a < s.slot b then
          (((s.slot a : Int) - s.slot b) % 2 ^ s.width + s.slot n) % 2 ^ s.width
        else ((s.slot a : Int) - s.slot b) % 2 ^ s.width) ∧
      (s.slot a < s.slot n → s.slot b < s.slot n →
        (t.slot d : Int) = ((s.slot a : Int) - s.slot b) % s.slot n)

/-- R222: MODRED reduces hi·2^W + lo modulo n; n = 0 is DIVZERO. -/
def Obligations.ModredReducesADoubleWidth : Prop :=
  ∀ (d a b n : Slot) (s : State),
    decode (commandWord 0x22 (d := d) (a := a) (b := b) (n := n)) = .ok (.modred d a b n) ∧
    (s.slot n ≠ 0 → ∃ t, Runs (.modred d a b n) { slots := [d] } s t ∧
      t.slot d = (s.slot b * 2 ^ s.width + s.slot a) % s.slot n ∧ t.slot d < s.slot n) ∧
    (s.slot n = 0 → Raises .divZero (.modred d a b n) s)

/-- R223: DIVMOD writes the quotient to D and the remainder to E; D = E is OPERAND, and n = 0 is
DIVZERO with no slot written. -/
def Obligations.DivmodWritesQuotientAndRemainder : Prop :=
  ∀ (d e a n : Slot) (s : State),
    (d ≠ e →
      decode (commandWord 0x23 (d := d) (e := e) (a := a) (n := n)) = .ok (.divmod d e a n) ∧
      (s.slot n ≠ 0 → ∃ t, Runs (.divmod d e a n) { slots := [d, e] } s t ∧
        s.slot a = s.slot n * t.slot d + t.slot e ∧ t.slot e < s.slot n) ∧
      (s.slot n = 0 → Raises .divZero (.divmod d e a n) s)) ∧
    (d = e →
      decode (commandWord 0x23 (d := d) (e := e) (a := a) (n := n)) = .error .operand ∧
      Raises .operand (.divmod d e a n) s)

/-- R224: MODEXP writes a^e mod n, for every n ≥ 1, with a^0 = 1; n = 0 is DIVZERO. -/
def Obligations.ModexpIsThePower : Prop :=
  ∀ (d a b n : Slot) (s : State),
    decode (commandWord 0x24 (d := d) (a := a) (b := b) (n := n)) = .ok (.modexp d a b n) ∧
    (s.slot n ≠ 0 → ∃ t, Runs (.modexp d a b n) { slots := [d] } s t ∧
      t.slot d = s.slot a ^ s.slot b % s.slot n) ∧
    (s.slot n = 0 → Raises .divZero (.modexp d a b n) s)

/-- R225: MODINV writes a^(n-2) mod n, which for a prime n and a not divisible by n is the inverse
of a; n < 2 is MODULUS. -/
def Obligations.ModinvIsTheFermatPower : Prop :=
  ∀ (d a n : Slot) (s : State),
    decode (commandWord 0x25 (d := d) (a := a) (n := n)) = .ok (.modinv d a n) ∧
    (2 ≤ s.slot n → ∃ t, Runs (.modinv d a n) { slots := [d] } s t ∧
      t.slot d = s.slot a ^ (s.slot n - 2) % s.slot n ∧
      (2 < s.slot n → s.slot n ∣ s.slot a → t.slot d = 0) ∧
      (Nat.Prime (s.slot n) → ¬ s.slot n ∣ s.slot a → s.slot a * t.slot d % s.slot n = 1)) ∧
    (s.slot n < 2 → Raises .modulus (.modinv d a n) s)

/-- R226: for reduced operands, ADDMOD after SUBMOD gives the minuend back.  SUBMOD's destination is
apart from the slots of b and n, which ADDMOD reads again. -/
def Obligations.AddmodUndoesSubmod : Prop :=
  ∀ (d e a b n : Slot) (s t u : State), d ≠ b → d ≠ n →
    s.slot a < s.slot n → s.slot b < s.slot n →
    exec (.submod d a b n) s = .next t → exec (.addmod e d b n) t = .next u →
    u.slot e = s.slot a

/-! ## Montgomery -/

/-- R250: MONTSETUP writes the n' below R with n·n' + 1 ≡ 0 (mod R); an even modulus is MODULUS. -/
def Obligations.MontsetupGivesTheNegativeInverse : Prop :=
  ∀ (d n : Slot) (s : State),
    decode (commandWord 0x30 (d := d) (n := n)) = .ok (.montsetup d n) ∧
    (s.slot n % 2 = 1 → ∃ t, Runs (.montsetup d n) { slots := [d] } s t ∧
      t.slot d < 2 ^ s.width ∧ (s.slot n * t.slot d + 1) % 2 ^ s.width = 0) ∧
    (s.slot n % 2 = 0 → Raises .modulus (.montsetup d n) s)

/-- R251: MONTMUL computes t = a·b, m = (t mod R)·n' mod R, u = (t + m·n) div R and one correction;
with n' right and reduced operands the result is (a·b·R⁻¹) mod n, the residue r with
r·R ≡ a·b (mod n); an even modulus is MODULUS. -/
def Obligations.MontmulReducesByTheRadix : Prop :=
  ∀ (d a b n e : Slot) (s : State),
    decode (commandWord 0x31 (d := d) (a := a) (b := b) (n := n) (e := e)) =
      .ok (.montmul d a b n e) ∧
    (s.slot n % 2 = 1 → ∃ t, Runs (.montmul d a b n e) { slots := [d] } s t ∧
      (∃ m u, m = s.slot a * s.slot b % 2 ^ s.width * s.slot e % 2 ^ s.width ∧
        u = (s.slot a * s.slot b + m * s.slot n) / 2 ^ s.width ∧
        t.slot d = if s.slot n ≤ u then u - s.slot n else u) ∧
      ((s.slot n * s.slot e + 1) % 2 ^ s.width = 0 → s.slot a < s.slot n →
        s.slot b < s.slot n →
        t.slot d < s.slot n ∧
          t.slot d * 2 ^ s.width % s.slot n = s.slot a * s.slot b % s.slot n)) ∧
    (s.slot n % 2 = 0 → Raises .modulus (.montmul d a b n e) s)

/-- R252: TOMONT writes (a·R) mod n; an even modulus is MODULUS. -/
def Obligations.TomontScalesByTheRadix : Prop :=
  ∀ (d a n : Slot) (s : State),
    decode (commandWord 0x32 (d := d) (a := a) (n := n)) = .ok (.tomont d a n) ∧
    (s.slot n % 2 = 1 → ∃ t, Runs (.tomont d a n) { slots := [d] } s t ∧
      t.slot d = s.slot a * 2 ^ s.width % s.slot n) ∧
    (s.slot n % 2 = 0 → Raises .modulus (.tomont d a n) s)

/-- R253: FROMMONT is R251 with b = 1; its result is always below n, and with n' right it is
(a·R⁻¹) mod n; an even modulus is MODULUS. -/
def Obligations.FrommontDividesByTheRadix : Prop :=
  ∀ (d a n e : Slot) (s : State),
    decode (commandWord 0x33 (d := d) (a := a) (n := n) (e := e)) = .ok (.frommont d a n e) ∧
    (s.slot n % 2 = 1 → ∃ t, Runs (.frommont d a n e) { slots := [d] } s t ∧
      (∃ m u, m = s.slot a % 2 ^ s.width * s.slot e % 2 ^ s.width ∧
        u = (s.slot a + m * s.slot n) / 2 ^ s.width ∧
        t.slot d = if s.slot n ≤ u then u - s.slot n else u) ∧
      t.slot d < s.slot n ∧
      ((s.slot n * s.slot e + 1) % 2 ^ s.width = 0 →
        t.slot d * 2 ^ s.width % s.slot n = s.slot a % s.slot n)) ∧
    (s.slot n % 2 = 0 → Raises .modulus (.frommont d a n e) s)

/-- R254 and R255: for an odd modulus and the n' that MONTSETUP writes, MONTMUL of two TOMONT values
is TOMONT of the product mod n, and FROMMONT of it is the product mod n; and FROMMONT of a TOMONT
value is the value mod n.  The four slots written are apart from each other and from the sources,
which are read again later. -/
def Obligations.MontgomeryAgreesWithThePlainProduct : Prop :=
  ∀ (a b n p x y z : Slot) (s s0 s1 s2 s3 s4 s5 : State),
    [p, x, y, z].Nodup → (∀ r ∈ [p, x, y, z], r ∉ [a, b, n]) → s.slot n % 2 = 1 →
    exec (.montsetup p n) s = .next s0 → exec (.tomont x a n) s0 = .next s1 →
    exec (.tomont y b n) s1 = .next s2 → exec (.montmul z x y n p) s2 = .next s3 →
    exec (.frommont z z n p) s3 = .next s4 → exec (.frommont z x n p) s3 = .next s5 →
    s3.slot z = s.slot a * s.slot b % s.slot n * 2 ^ s.width % s.slot n ∧
    s4.slot z = s.slot a * s.slot b % s.slot n ∧
    s5.slot z = s.slot a % s.slot n

/-! ## Elliptic curve -/

/-- R273 and R274: PINF writes (0, 1, 0) and INF, and PMOV copies a point register exactly as
stored, with no curve check. -/
def Obligations.PinfAndPmovWriteAPoint : Prop :=
  ∀ (d a : PointIx) (s : State),
    decode (commandWord 0x40 (d := d)) = .ok (.pinf d) ∧
    decode (commandWord 0x41 (d := d) (a := a)) = .ok (.pmov d a) ∧
    (∃ t, Runs (.pinf d) { points := [d], inf := true } s t ∧
      t.point d = { x := 0, y := 1, z := 0 } ∧ t.flags.inf = true) ∧
    (∃ t, Runs (.pmov d a) { points := [d] } s t ∧ t.point d = s.point a)

/-- R275: PNEG writes the normalised (X, -Y, Z) and INF; a bad field modulus is MODULUS (R271). -/
def Obligations.PnegNegatesY : Prop :=
  ∀ (d a : PointIx) (s : State),
    decode (commandWord 0x42 (d := d) (a := a)) = .ok (.pneg d a) ∧
    (GoodCurve s → ∃ t, Runs (.pneg d a) { points := [d], inf := true } s t ∧
      t.point d = normalised s.curveP (s.point a).x (-(s.point a).y) (s.point a).z ∧
      (t.flags.inf = true ↔ (t.point d).z = 0)) ∧
    (¬ GoodCurve s → Raises .modulus (.pneg d a) s)

/-- R276: PDBL of infinity is (0, 1, 0); of any other triple it is the doubling formulas, mod p and
normalised; INF says whether the result is infinity; a bad field modulus is MODULUS (R271). -/
def Obligations.PdblDoublesAPoint : Prop :=
  ∀ (d a : PointIx) (s : State),
    decode (commandWord 0x43 (d := d) (a := a)) = .ok (.pdbl d a) ∧
    (GoodCurve s → ∃ t, Runs (.pdbl d a) { points := [d], inf := true } s t ∧
      ((s.point a).z % s.curveP = 0 → t.point d = { x := 0, y := 1, z := 0 }) ∧
      ((s.point a).z % s.curveP ≠ 0 →
        ∃ X Y Z w u B h : Int, X = (s.point a).x ∧ Y = (s.point a).y ∧ Z = (s.point a).z ∧
          w = wideValue s.config s.ca * Z ^ 2 + 3 * X ^ 2 ∧ u = Y * Z ∧ B = X * Y * u ∧
          h = w ^ 2 - 8 * B ∧
          t.point d = normalised s.curveP (2 * h * u) (w * (4 * B - h) - 8 * Y ^ 2 * u ^ 2)
            (8 * u ^ 3)) ∧
      (t.flags.inf = true ↔ (t.point d).z = 0)) ∧
    (¬ GoodCurve s → Raises .modulus (.pdbl d a) s)

/-- R277: PADD returns the other operand when one is infinity, doubles when the operands are
projectively equal, gives (0, 1, 0) when only their x agree, and else the addition formulas, mod p
and normalised; INF says whether the result is infinity; a bad field modulus is MODULUS (R271). -/
def Obligations.PaddAddsTwoPoints : Prop :=
  ∀ (d a b : PointIx) (s : State),
    decode (commandWord 0x44 (d := d) (a := a) (b := b)) = .ok (.padd d a b) ∧
    (GoodCurve s → ∃ t, Runs (.padd d a b) { points := [d], inf := true } s t ∧
      (t.flags.inf = true ↔ (t.point d).z = 0) ∧
      ∃ X1 Y1 Z1 X2 Y2 Z2 u v : Int,
        X1 = (s.point a).x ∧ Y1 = (s.point a).y ∧ Z1 = (s.point a).z ∧
        X2 = (s.point b).x ∧ Y2 = (s.point b).y ∧ Z2 = (s.point b).z ∧
        u = Y2 * Z1 - Y1 * Z2 ∧ v = X2 * Z1 - X1 * Z2 ∧
        (Z1 % s.curveP = 0 → t.point d = normalised s.curveP X2 Y2 Z2) ∧
        (Z1 % s.curveP ≠ 0 → Z2 % s.curveP = 0 → t.point d = normalised s.curveP X1 Y1 Z1) ∧
        (Z1 % s.curveP ≠ 0 → Z2 % s.curveP ≠ 0 →
          (u % s.curveP = 0 → v % s.curveP = 0 →
            ∃ t', exec (.pdbl d a) s = .next t' ∧ t.point d = t'.point d) ∧
          (u % s.curveP ≠ 0 → v % s.curveP = 0 → t.point d = { x := 0, y := 1, z := 0 }) ∧
          (v % s.curveP ≠ 0 →
            ∃ R A : Int, R = v ^ 2 * X1 * Z2 ∧ A = u ^ 2 * Z1 * Z2 - v ^ 3 - 2 * R ∧
              t.point d = normalised s.curveP (v * A) (u * (R - A) - v ^ 3 * Y1 * Z2)
                (v ^ 3 * Z1 * Z2)))) ∧
    (¬ GoodCurve s → Raises .modulus (.padd d a b) s)

/-- The loop of R278 written out: W iterations from the top bit of k down, each doubling and then
keeping the sum with P where the bit of k is 1.  `pointDouble` and `pointAdd` are the bodies that
the statements on PDBL and PADD describe. -/
def Obligations.PmulScansEveryBit : Prop :=
  ∀ (d : PointIx) (a : Slot) (b : PointIx) (s : State),
    decode (commandWord 0x45 (d := d) (a := a) (b := b)) = .ok (.pmul d a b) ∧
    (GoodCurve s → ∃ t, Runs (.pmul d a b) { points := [d], inf := true } s t ∧
      (t.flags.inf = true ↔ (t.point d).z = 0) ∧
      ∃ Q : Nat → Triple, Q 0 = { x := 0, y := 1, z := 0 } ∧
        (∀ i, i < s.width → Q (i + 1) =
          if (s.slot a).testBit (s.width - 1 - i) then
            pointAdd s.curveP s.curveA (pointDouble s.curveP s.curveA (Q i)) (s.point b)
          else pointDouble s.curveP s.curveA (Q i)) ∧
        t.point d = Q s.width) ∧
    (¬ GoodCurve s → Raises .modulus (.pmul d a b) s)

/-- R279: PAFF of infinity is (0, 1, 0); of any other triple it is (X·z, Y·z, 1) with
z = Z^(p-2) mod p, which for a prime p is the inverse of Z; INF says whether the result is
infinity; a bad field modulus is MODULUS (R271). -/
def Obligations.PaffDividesByZ : Prop :=
  ∀ (d a : PointIx) (s : State),
    decode (commandWord 0x46 (d := d) (a := a)) = .ok (.paff d a) ∧
    (GoodCurve s → ∃ t, Runs (.paff d a) { points := [d], inf := true } s t ∧
      (t.flags.inf = true ↔ (t.point d).z = 0) ∧
      ((s.point a).z % s.curveP = 0 → t.point d = { x := 0, y := 1, z := 0 }) ∧
      ((s.point a).z % s.curveP ≠ 0 →
        t.point d =
          { x := (s.point a).x * (s.point a).z ^ (s.curveP - 2) % s.curveP
            y := (s.point a).y * (s.point a).z ^ (s.curveP - 2) % s.curveP
            z := 1 } ∧
        (Nat.Prime s.curveP →
          (t.point d).x * (s.point a).z % s.curveP = (s.point a).x % s.curveP ∧
          (t.point d).y * (s.point a).z % s.curveP = (s.point a).y % s.curveP))) ∧
    (¬ GoodCurve s → Raises .modulus (.paff d a) s)

/-- R280: PVALID sets VALID exactly for a triple that is not infinity and is on the curve
Y²Z = X³ + aXZ² + bZ³ mod p; it writes nothing else; a bad field modulus is MODULUS (R271). -/
def Obligations.PvalidTestsTheCurve : Prop :=
  ∀ (a : PointIx) (s : State),
    decode (commandWord 0x47 (a := a)) = .ok (.pvalid a) ∧
    (GoodCurve s → ∃ t, Runs (.pvalid a) { valid := true } s t ∧
      ∃ X Y Z A B : Int, X = (s.point a).x ∧ Y = (s.point a).y ∧ Z = (s.point a).z ∧
        A = wideValue s.config s.ca ∧ B = wideValue s.config s.cb ∧
        (t.flags.valid = true ↔ Z % s.curveP ≠ 0 ∧
          (Y ^ 2 * Z - (X ^ 3 + A * X * Z ^ 2 + B * Z ^ 3)) % s.curveP = 0)) ∧
    (¬ GoodCurve s → Raises .modulus (.pvalid a) s)

/-- R281: PADD with infinity normalises the point, and PADD of a point and its PNEG is (0, 1, 0).
For this model it holds of every triple and every odd p ≥ 3, on the curve or not. -/
def Obligations.PaddHasIdentityAndInverse : Prop :=
  ∀ (d e a b : PointIx) (s t u : State), GoodCurve s → d ≠ a → e ≠ a →
    (exec (.pinf d) s = .next t → exec (.padd b a d) t = .next u →
      u.point b = normalised s.curveP (s.point a).x (s.point a).y (s.point a).z) ∧
    (exec (.pneg e a) s = .next t → exec (.padd b a e) t = .next u →
      u.point b = { x := 0, y := 1, z := 0 })

/-- PMUL by 0 is (0, 1, 0), PMUL by 1 is the normalised point, and PMUL of infinity is (0, 1, 0)
for every scalar (the corner cases of R278, and the first two laws of R282). -/
def Obligations.PmulByZeroOneAndOfInfinity : Prop :=
  ∀ (d : PointIx) (a : Slot) (b : PointIx) (s t : State), GoodCurve s →
    exec (.pmul d a b) s = .next t →
    (s.slot a = 0 → t.point d = { x := 0, y := 1, z := 0 }) ∧
    (s.slot a = 1 →
      t.point d = normalised s.curveP (s.point b).x (s.point b).y (s.point b).z) ∧
    ((s.point b).z % s.curveP = 0 → t.point d = { x := 0, y := 1, z := 0 })

/-! ## AES -/

/-- R312, R313 and R314: the S-box table is the affine transform of the inverse b^254, the inverse
S-box undoes it both ways, and the round constants are the powers of 2. -/
def Obligations.SboxIsTheAffineInverse : Prop :=
  (∀ b : Byte, ∀ i : Nat, i < 8 →
    (sbox b).getLsbD i =
      ((((((gfpow b 254).getLsbD i ^^ (gfpow b 254).getLsbD ((i + 4) % 8)) ^^
        (gfpow b 254).getLsbD ((i + 5) % 8)) ^^ (gfpow b 254).getLsbD ((i + 6) % 8)) ^^
        (gfpow b 254).getLsbD ((i + 7) % 8)) ^^ (0x63 : Byte).getLsbD i)) ∧
  (∀ b : Byte, invSbox (sbox b) = b ∧ sbox (invSbox b) = b) ∧
  (List.range 10).map (fun j => rcon (j + 1)) =
    [0x01000000, 0x02000000, 0x04000000, 0x08000000, 0x10000000, 0x20000000, 0x40000000,
     0x80000000, 0x1b000000, 0x36000000]

/-- R310 and R316-R319: the transforms cell by cell of the 4×4 state s[r][c] = DATA[r + 4c]. -/
def Obligations.AesTransformsActOnCells : Prop :=
  ∀ (x : Block) (rk : Vector KeyWord 44) (k : Fin 11) (r c : Fin 4),
    cell x r c = blockByte x (r + 4 * c) ∧
    cell (subBytes x) r c = sbox (cell x r c) ∧
    cell (invSubBytes x) r c = invSbox (cell x r c) ∧
    cell (shiftRows x) r c = cell x r (Fin.ofNat 4 (c + r)) ∧
    cell (invShiftRows x) r c = cell x r (Fin.ofNat 4 (c + 4 - r)) ∧
    cell (mixColumns x) 0 c =
      gfmul 2 (cell x 0 c) ^^^ gfmul 3 (cell x 1 c) ^^^ cell x 2 c ^^^ cell x 3 c ∧
    cell (mixColumns x) 1 c =
      cell x 0 c ^^^ gfmul 2 (cell x 1 c) ^^^ gfmul 3 (cell x 2 c) ^^^ cell x 3 c ∧
    cell (mixColumns x) 2 c =
      cell x 0 c ^^^ cell x 1 c ^^^ gfmul 2 (cell x 2 c) ^^^ gfmul 3 (cell x 3 c) ∧
    cell (mixColumns x) 3 c =
      gfmul 3 (cell x 0 c) ^^^ cell x 1 c ^^^ cell x 2 c ^^^ gfmul 2 (cell x 3 c) ∧
    cell (invMixColumns x) 0 c =
      gfmul 0x0e (cell x 0 c) ^^^ gfmul 0x0b (cell x 1 c) ^^^ gfmul 0x0d (cell x 2 c) ^^^
        gfmul 0x09 (cell x 3 c) ∧
    cell (invMixColumns x) 1 c =
      gfmul 0x09 (cell x 0 c) ^^^ gfmul 0x0e (cell x 1 c) ^^^ gfmul 0x0b (cell x 2 c) ^^^
        gfmul 0x0d (cell x 3 c) ∧
    cell (invMixColumns x) 2 c =
      gfmul 0x0d (cell x 0 c) ^^^ gfmul 0x09 (cell x 1 c) ^^^ gfmul 0x0e (cell x 2 c) ^^^
        gfmul 0x0b (cell x 3 c) ∧
    cell (invMixColumns x) 3 c =
      gfmul 0x0b (cell x 0 c) ^^^ gfmul 0x0d (cell x 1 c) ^^^ gfmul 0x09 (cell x 2 c) ^^^
        gfmul 0x0e (cell x 3 c) ∧
    cell (addRoundKey rk k x) r c = cell x r c ^^^ rk[4 * k.val + c.val]!.extractLsb' (24 - 8 * r) 8

/-- R320 with the key expansion of R315: AESKEY fills the schedule by the recurrence from AES_KEY,
sets KEYVALID, clears LNV, and leaves AES_KEY. -/
def Obligations.AeskeyExpandsTheKey : Prop :=
  decode 0x0000000000000050 = .ok .aeskey ∧
  ∀ s, ∃ t, Runs .aeskey { rk := true, keyValid := true, lnv := true } s t ∧
    t.keyValid = true ∧ t.lnv = false ∧
    (∀ i, i < 4 → t.rk[i]! =
      blockByte s.aesKey (4 * i) ++ blockByte s.aesKey (4 * i + 1) ++
        blockByte s.aesKey (4 * i + 2) ++ blockByte s.aesKey (4 * i + 3)) ∧
    (∀ i, 4 ≤ i → i < 44 → i % 4 ≠ 0 → t.rk[i]! = t.rk[i - 4]! ^^^ t.rk[i - 1]!) ∧
    (∀ i, 4 ≤ i → i < 44 → i % 4 = 0 → ∃ b0 b1 b2 b3 : Byte,
      t.rk[i - 1]! = b0 ++ b1 ++ b2 ++ b3 ∧
      t.rk[i]! = t.rk[i - 4]! ^^^
        ((sbox b1 ++ sbox b2 ++ sbox b3 ++ sbox b0) ^^^ rcon (i / 4)))

/-- R321 and R322: with a key, AESENC runs AESER_body for r = 0 to 10 and AESDEC runs AESDR_body for
r = 10 down to 0 on AES_DATA; without a key both are NOKEY. -/
def Obligations.AesencAndAesdecRunTheRounds : Prop :=
  decode 0x0000000000000051 = .ok .aesenc ∧ decode 0x0000000000000052 = .ok .aesdec ∧
  ∀ s,
    (s.keyValid = true → ∃ t, Runs .aesenc { aesData := true } s t ∧
      ∃ X : Nat → Block, X 0 = s.aesData ∧
        (∀ r : Fin 11, X (r + 1) = encRound s.rk r (X r)) ∧ t.aesData = X 11) ∧
    (s.keyValid = true → ∃ t, Runs .aesdec { aesData := true } s t ∧
      ∃ X : Nat → Block, X 11 = s.aesData ∧
        (∀ r : Fin 11, X r = decRound s.rk r (X (r + 1))) ∧ t.aesData = X 0) ∧
    (s.keyValid = false → Raises .noKey .aesenc s ∧ Raises .noKey .aesdec s)

/-- R323 and R324: with a key, AESER r and AESDR r apply one round step to AES_DATA; without a key
they are NOKEY; a round number above 10 is OPERAND, key or no key (R128, R405). -/
def Obligations.AesRoundCommandsApplyOneRound : Prop :=
  ∀ (k : Imm) (s : State),
    (k.toNat ≤ 10 →
      decode (commandWord 0x53 (imm := k.toNat)) = .ok (.aeser k) ∧
      decode (commandWord 0x54 (imm := k.toNat)) = .ok (.aesdr k) ∧
      (s.keyValid = true →
        (∃ t, Runs (.aeser k) { aesData := true } s t ∧
          ∀ r : Fin 11, r.val = k.toNat → t.aesData =
            if r = 0 then addRoundKey s.rk 0 s.aesData
            else if r = 10 then addRoundKey s.rk 10 (shiftRows (subBytes s.aesData))
            else addRoundKey s.rk r (mixColumns (shiftRows (subBytes s.aesData)))) ∧
        (∃ t, Runs (.aesdr k) { aesData := true } s t ∧
          ∀ r : Fin 11, r.val = k.toNat → t.aesData =
            if r = 0 then addRoundKey s.rk 0 s.aesData
            else if r = 10 then invSubBytes (invShiftRows (addRoundKey s.rk 10 s.aesData))
            else invSubBytes (invShiftRows (invMixColumns (addRoundKey s.rk r s.aesData))))) ∧
      (s.keyValid = false → Raises .noKey (.aeser k) s ∧ Raises .noKey (.aesdr k) s)) ∧
    (10 < k.toNat →
      decode (commandWord 0x53 (imm := k.toNat)) = .error .operand ∧
      decode (commandWord 0x54 (imm := k.toNat)) = .error .operand ∧
      Raises .operand (.aeser k) s ∧ Raises .operand (.aesdr k) s)

/-- R325: the known answer of the source, encryption and decryption. -/
def Obligations.AesKnownAnswer : Prop :=
  ∀ (s t u v : State),
    s.aesKey = blockOf (fun j => BitVec.ofNat 8 j) →
    s.aesData = blockOf (fun j => BitVec.ofNat 8 (0x11 * j)) →
    exec .aeskey s = .next t → exec .aesenc t = .next u → exec .aesdec u = .next v →
    u.aesData = blockOfList [0x69, 0xc4, 0xe0, 0xd8, 0x6a, 0x7b, 0x04, 0x30, 0xd8, 0xcd, 0xb7,
      0x80, 0x70, 0xb4, 0xc5, 0x5a] ∧
    v.aesData = s.aesData

/-- R326: AESDR r undoes AESER r for every r, and AESDEC undoes AESENC, for every schedule and every
block.  (Without a key neither command of a pair changes the block.) -/
def Obligations.AesDecryptionUndoesEncryption : Prop :=
  ∀ s t u : State,
    (exec .aesenc s = .next t → exec .aesdec t = .next u → u.aesData = s.aesData) ∧
    (∀ k : Imm, k.toNat ≤ 10 → exec (.aeser k) s = .next t → exec (.aesdr k) t = .next u →
      u.aesData = s.aesData)

/-! ## CCM -/

/-- R361 and R363: the bytes of B_0, of the later blocks, and of a counter block. -/
def Obligations.CcmBlocksAreFormatted : Prop :=
  ∀ (t j : Nat) (N AD P : List Byte), 7 ≤ N.length → N.length ≤ 13 → 4 ≤ t → t ≤ 16 →
    (blockByte (firstBlock t N AD P) 0).toNat =
      64 * (if 0 < AD.length then 1 else 0) + 8 * ((t - 2) / 2) + (15 - N.length - 1) ∧
    (blockByte (counterBlock N j) 0).toNat = 15 - N.length - 1 ∧
    (∀ i, i < N.length → blockByte (firstBlock t N AD P) (1 + i) = N.getD i 0 ∧
      blockByte (counterBlock N j) (1 + i) = N.getD i 0) ∧
    (∀ k, k < 15 - N.length →
      (blockByte (firstBlock t N AD P) (15 - k)).toNat = P.length / 256 ^ k % 256 ∧
      (blockByte (counterBlock N j) (15 - k)).toNat = j / 256 ^ k % 256) ∧
    (∀ pad : List Byte → List Byte,
      (∀ l, pad l = l ++ List.replicate ((16 - l.length % 16) % 16) 0) →
      (laterBlocks AD P).flatMap blockBytes =
        (if AD.length = 0 then [] else
          pad (BitVec.ofNat 8 (AD.length / 256) :: BitVec.ofNat 8 AD.length :: AD)) ++ pad P)

/-- R367, with the keystream of R363, the tag of R364 and the checks of R362 and R365 in the order
of R405, nonces compared by val of R365: a seal encrypts the payload in place, writes TAG and
LAST_NONCE and sets LNV, and touches no other byte of MSGBUF; NOKEY, CONFIG and NONCE write
nothing. -/
def Obligations.CcmsealEncryptsAndTags : Prop :=
  decode 0x0000000000000060 = .ok .ccmseal ∧
  ∀ s,
    (s.keyValid = false → Raises .noKey .ccmseal s) ∧
    (s.keyValid = true → ¬ GoodCcmConfig s → Raises .config .ccmseal s) ∧
    (s.keyValid = true → GoodCcmConfig s →
      ∃ (N AD P : List Byte) (n a p t : Nat), n = s.ccmCfg.nlen.toNat ∧ a = s.ccmAlen.toNat ∧
        p = s.ccmPlen.toNat ∧ t = s.ccmCfg.tlen.toNat ∧
        N = (List.range n).map (blockByte s.nonce) ∧
        AD = (List.range a).map (Memory.read s.msgbuf) ∧
        P = (List.range p).map (fun k => Memory.read s.msgbuf (a + k)) ∧
        (s.ccmCfg.nchk = true ∧ s.lnv = true ∧
            nonceValue n s.nonce ≤ nonceValue n s.lastNonce →
          Raises .nonce .ccmseal s) ∧
        (¬ (s.ccmCfg.nchk = true ∧ s.lnv = true ∧
            nonceValue n s.nonce ≤ nonceValue n s.lastNonce) →
          ∃ u Y, Runs .ccmseal { tag := true, lastNonce := true, lnv := true, msgLo := a, msgLen := p }
              s u ∧
            u.lnv = true ∧
            (∀ k, k < p → Memory.read u.msgbuf (a + k) = Memory.read s.msgbuf (a + k) ^^^
              blockByte (encryptBlock s.rk (counterBlock N (k / 16 + 1))) (k % 16)) ∧
            Y = (laterBlocks AD P).foldl (fun y b => encryptBlock s.rk (blockXor y b))
              (encryptBlock s.rk (firstBlock t N AD P)) ∧
            (∀ i, i < 16 → blockByte u.tag i =
              if i < t then
                if s.ccmCfg.tagraw then blockByte Y i
                else blockByte Y i ^^^ blockByte (encryptBlock s.rk (counterBlock N 0)) i
              else 0) ∧
            (∀ i, i < 16 → blockByte u.lastNonce i = if i < n then blockByte s.nonce i else 0)))

/-- R368: CCMOPEN releases the decrypted payload exactly when each of the t bytes of TAG is the tag
of R364 over that payload; else it is AUTH and the payload region is zero, and nothing else is
written (R402); NOKEY and CONFIG write nothing, and there is no nonce check. -/
def Obligations.CcmopenReleasesOnlyOnMatch : Prop :=
  decode 0x0000000000000061 = .ok .ccmopen ∧
  ∀ s,
    (s.keyValid = false → Raises .noKey .ccmopen s) ∧
    (s.keyValid = true → ¬ GoodCcmConfig s → Raises .config .ccmopen s) ∧
    (s.keyValid = true → GoodCcmConfig s →
      ∃ (N AD P : List Byte) (n a p t : Nat) (Y : Block), n = s.ccmCfg.nlen.toNat ∧
        a = s.ccmAlen.toNat ∧ p = s.ccmPlen.toNat ∧ t = s.ccmCfg.tlen.toNat ∧
        N = (List.range n).map (blockByte s.nonce) ∧
        AD = (List.range a).map (Memory.read s.msgbuf) ∧
        P = (List.range p).map (fun k => Memory.read s.msgbuf (a + k) ^^^
          blockByte (encryptBlock s.rk (counterBlock N (k / 16 + 1))) (k % 16)) ∧
        Y = (laterBlocks AD P).foldl (fun y b => encryptBlock s.rk (blockXor y b))
          (encryptBlock s.rk (firstBlock t N AD P)) ∧
        ((∀ i, i < t → blockByte s.tag i =
            if s.ccmCfg.tagraw then blockByte Y i
            else blockByte Y i ^^^ blockByte (encryptBlock s.rk (counterBlock N 0)) i) →
          ∃ u, Runs .ccmopen { msgLo := a, msgLen := p } s u ∧
            ∀ k, k < p → Memory.read u.msgbuf (a + k) = P.getD k 0) ∧
        (¬ (∀ i, i < t → blockByte s.tag i =
            if s.ccmCfg.tagraw then blockByte Y i
            else blockByte Y i ^^^ blockByte (encryptBlock s.rk (counterBlock N 0)) i) →
          ∃ u, exec .ccmopen s = .next u ∧ Completed .auth s u ∧
            Frame { msgLo := a, msgLen := p } s u ∧
            ∀ k, k < p → Memory.read u.msgbuf (a + k) = 0))

/-- R369, first law: after a seal without error, CCMOPEN with the same registers completes without
error and restores every byte of MSGBUF, for every legal configuration, key, nonce, associated data
and plaintext. -/
def Obligations.CcmopenUndoesCcmseal : Prop :=
  ∀ (s t u : State), exec .ccmseal s = .next t → t.errCode = .ok →
    exec .ccmopen t = .next u →
    u.errCode = .ok ∧ ∀ j, Memory.read u.msgbuf j = Memory.read s.msgbuf j

/-- R365: right after a seal without error and with NCHK = 1, a second seal with the same nonce is
refused with NONCE and writes nothing; after AESKEY in between it is not. -/
def Obligations.RepeatedNonceIsRefused : Prop :=
  ∀ (s t u v : State), s.ccmCfg.nchk = true → exec .ccmseal s = .next t → t.errCode = .ok →
    exec .aeskey t = .next u → exec .ccmseal u = .next v →
    Raises .nonce .ccmseal t ∧ v.errCode = .ok

/-! ## The machine as a whole -/

/-- R402: a command that completes with an error changes nothing but the completion reports, except
AUTH, where exactly the payload region of MSGBUF is zeroed. -/
def Obligations.ErrorsArePrecise : Prop :=
  ∀ (i : Instr) (s : State), ∃ t, exec i s = .next t ∧ Completed t.errCode s t ∧
    (t.errCode ≠ .ok → t.errCode ≠ .auth → Frame {} s t) ∧
    (t.errCode = .auth → i = .ccmopen ∧
      Frame { msgLo := s.ccmAlen.toNat, msgLen := s.ccmPlen.toNat } s t ∧
      ∀ k, k < s.ccmPlen.toNat → Memory.read t.msgbuf (s.ccmAlen.toNat + k) = 0)

/-- Every step, whatever its event, keeps the invariant: the canonical form of MSGBUF, zero limbs at
and above L, the agreement of the report fields, and no schedule without a key.  (That an access
outside the window keeps it too rests on log 5, the model's choice.) -/
def Obligations.StepKeepsTheInvariant : Prop :=
  ∀ s t : State, Invariant s → step s = .next t → Invariant t

/-- The state after reset meets the invariant, for every instance. -/
def Obligations.ResetMeetsTheInvariant : Prop :=
  ∀ c : Config, Invariant (State.resetWith c)

/-- R80, R81, R84 and R85 (with R56): an access of another width than 8 bytes, at an offset that is
not a multiple of 8, at an offset the map reserves, or, while BUSY = 1, outside ID, STATUS, CMD,
IRQ_EN and IRQ_STATUS is answered ERROR and has no effect; those five are served, busy or not. -/
def Obligations.RefusedAccessesHaveNoEffect : Prop :=
  ∀ (s : State) (off bytes : Nat) (v : Word), off < 0x2000 →
    ((bytes ≠ 8 ∨ off % 8 ≠ 0 ∨ (0x090 ≤ off ∧ off < 0x200) ∨ (0x9C0 ≤ off ∧ off < 0x1000) ∨
        0x1400 ≤ off ∨ (s.busy = true ∧ off ∉ [0x000, 0x008, 0x010, 0x018, 0x020])) →
      hostAccess (.read (s.config.base + off) bytes) s = { s with response := some .error } ∧
      hostAccess (.write (s.config.base + off) bytes v) s = { s with response := some .error }) ∧
    (off ∈ [0x000, 0x008, 0x010, 0x018, 0x020] →
      (∃ data, hostAccess (.read (s.config.base + off) 8) s =
        { s with response := some (.readOkay data) }) ∧
      (hostAccess (.write (s.config.base + off) 8 v) s).response = some .writeOkay)

/-- What a host write to a register word of an idle engine leaves, at every aligned offset of the
window, over the address map of R88.  A read of the same word then answers: limbs below L, CMD,
AES_DATA, NONCE, TAG and MSGBUF the word written; limbs at and above L and AES_KEY 0; IRQ_EN,
CCM_CFG, CCM_ALEN and CCM_PLEN its used bits; IRQ_STATUS the old bits without those written as 1;
ID, STATUS and LAST_NONCE ignore the write.  A write to AES_KEY stores its eight bytes.  Every other
word answers as before (R86), but for a CMD write, which makes the engine busy, and for STATUS after
an IRQ_STATUS write, whose OVR it mirrors (the whole states are in the statements on CMD and on the
interrupt bits); and no write reaches the schedule of round keys. -/
def Obligations.RegistersReadBack : Prop :=
  ∀ (s : State) (off : Nat) (v : Word), s.busy = false → off < 0x2000 → off % 8 = 0 →
    ∃ t r, t = hostAccess (.write (s.config.base + off) 8 v) s ∧
      r = (hostAccess (.read (s.config.base + off) 8) t).response ∧
      ((0x200 ≤ off ∧ off < 0x9C0) →
        r = some (.readOkay (if off % 0x40 / 8 < s.config.limbs then v else 0))) ∧
      ((off = 0x010 ∨ (0x050 ≤ off ∧ off < 0x080) ∨ (0x1000 ≤ off ∧ off < 0x1400)) →
        r = some (.readOkay v)) ∧
      ((0x040 ≤ off ∧ off < 0x050) → r = some (.readOkay 0) ∧
        ∀ j, j < 16 → blockByte t.aesKey j =
          if off ≤ 0x040 + j ∧ 0x040 + j < off + 8 then v.extractLsb' (8 * (j % 8)) 8
          else blockByte s.aesKey j) ∧
      (off = 0x018 → r = some (.readOkay (v &&& 0x7))) ∧
      (off = 0x020 → ∃ old, Reads s 0x020 old ∧ r = some (.readOkay (old &&& ~~~v))) ∧
      (off = 0x028 → r = some (.readOkay (v &&& 0x30F1F))) ∧
      (off = 0x030 ∨ off = 0x038 → r = some (.readOkay (v &&& 0xFFFF))) ∧
      ((off = 0x000 ∨ off = 0x008 ∨ (0x080 ≤ off ∧ off < 0x090)) →
        t = { s with response := some .writeOkay }) ∧
      (off ≠ 0x010 →
        (∀ o, o < 0x2000 → o ≠ off → ¬ (off = 0x020 ∧ o = 0x008) →
          (hostAccess (.read (s.config.base + o) 8) t).response =
            (hostAccess (.read (s.config.base + o) 8) s).response) ∧
        (¬ (0x040 ≤ off ∧ off < 0x050) → t.aesKey = s.aesKey) ∧
        t.rk = s.rk ∧ t.pending = s.pending ∧ t.config = s.config ∧ t.schedule = s.schedule)

/-- R82 and R83 with the address map of R88: where each register stands in the window of an idle
engine.  Limb j of slot i, of a coordinate of point register i, and of CP, CA and CB is the word at
its offset + 8·j, least significant first; byte k of a 16-byte register or of MSGBUF is bits
[8k+7:8k] of the word at its offset.  Each read is served and changes nothing else. -/
def Obligations.WindowIsLittleEndian : Prop :=
  ∀ s : State, s.busy = false →
    (∀ j, j < 8 →
      (∀ i : Slot, Reads s (0x200 + 0x40 * i + 8 * j)
        (BitVec.ofNat 64 (s.slot i / 2 ^ (64 * j)))) ∧
      (∀ i : PointIx,
        Reads s (0x600 + 0xC0 * i + 8 * j) (BitVec.ofNat 64 ((s.point i).x / 2 ^ (64 * j))) ∧
        Reads s (0x640 + 0xC0 * i + 8 * j) (BitVec.ofNat 64 ((s.point i).y / 2 ^ (64 * j))) ∧
        Reads s (0x680 + 0xC0 * i + 8 * j) (BitVec.ofNat 64 ((s.point i).z / 2 ^ (64 * j)))) ∧
      Reads s (0x900 + 8 * j) (BitVec.ofNat 64 (wideValue s.config s.cp / 2 ^ (64 * j))) ∧
      Reads s (0x940 + 8 * j) (BitVec.ofNat 64 (wideValue s.config s.ca / 2 ^ (64 * j))) ∧
      Reads s (0x980 + 8 * j) (BitVec.ofNat 64 (wideValue s.config s.cb / 2 ^ (64 * j)))) ∧
    (∀ h, h < 2 → ∃ data nonce tag last : Word,
      Reads s (0x050 + 8 * h) data ∧ Reads s (0x060 + 8 * h) nonce ∧
      Reads s (0x070 + 8 * h) tag ∧ Reads s (0x080 + 8 * h) last ∧
      ∀ k, k < 8 → data.extractLsb' (8 * k) 8 = blockByte s.aesData (8 * h + k) ∧
        nonce.extractLsb' (8 * k) 8 = blockByte s.nonce (8 * h + k) ∧
        tag.extractLsb' (8 * k) 8 = blockByte s.tag (8 * h + k) ∧
        last.extractLsb' (8 * k) 8 = blockByte s.lastNonce (8 * h + k)) ∧
    (∀ m, m < 128 → ∃ data : Word, Reads s (0x1000 + 8 * m) data ∧
      ∀ k, k < 8 → data.extractLsb' (8 * k) 8 = Memory.read s.msgbuf (8 * m + k))

/-- Key material is unreadable (R39, R48, R89): two states that differ only in AES_KEY and in the
schedule of round keys answer every access alike and keep differing only there.  (For an access
outside the window this rests on log 5, the model's choice.) -/
def Obligations.KeyMaterialIsUnreadable : Prop :=
  ∀ (s : State) (key : Block) (rk : Vector KeyWord 44) (a : Access),
    (hostAccess a { s with aesKey := key, rk := rk }).response = (hostAccess a s).response ∧
    ∃ key', hostAccess a { s with aesKey := key, rk := rk } =
      { hostAccess a s with aesKey := key', rk := rk }

/-- R403 and R406: a write to CMD of an idle engine is accepted, and of a busy one only sets OVR;
the response is OKAY. -/
def Obligations.CmdWriteAcceptsOrOverruns : Prop :=
  ∀ (s : State) (w : Word),
    (s.busy = false →
      hostAccess (.write (s.config.base + 0x010) 8 w) s =
        { s with
          pending := some w, cmd := w, lastOp := w.extractLsb' 0 8, err := false, errCode := .ok,
          response := some .writeOkay }) ∧
    (s.busy = true →
      hostAccess (.write (s.config.base + 0x010) 8 w) s =
        { s with
          irqStatus := { s.irqStatus with ovr := true }, response := some .writeOkay })

/-- R35 and R407: a write to IRQ_STATUS clears exactly the bits written as 1, busy or not, and `irq`
is asserted exactly when some event's pending bit and enable bit are both 1. -/
def Obligations.InterruptBitsClearAndAssert : Prop :=
  ∀ (s : State) (v : Word), ∃ t, t = hostAccess (.write (s.config.base + 0x020) 8 v) s ∧
    t = { s with irqStatus := t.irqStatus, response := some .writeOkay } ∧
    (t.irqStatus.done = true ↔ s.irqStatus.done = true ∧ v.getLsbD 0 = false) ∧
    (t.irqStatus.err = true ↔ s.irqStatus.err = true ∧ v.getLsbD 1 = false) ∧
    (t.irqStatus.ovr = true ↔ s.irqStatus.ovr = true ∧ v.getLsbD 2 = false) ∧
    (irq s = true ↔ (s.irqStatus.done = true ∧ s.irqEn.done = true) ∨
      (s.irqStatus.err = true ∧ s.irqEn.err = true) ∨
      (s.irqStatus.ovr = true ∧ s.irqEn.ovr = true))

/-- R31 and R32: what ID and STATUS read as, field by field, busy or not, with the numbers of the error
codes (R400), and that writes to them are ignored; what CMD, IRQ_EN and IRQ_STATUS read as, busy or
not (R33, R34, R35); and what CCM_CFG, CCM_ALEN and CCM_PLEN read as when idle (R36, R37, R38). -/
def Obligations.IdAndStatusFields : Prop :=
  ∀ s : State, ∃ d w en st : Word,
    (∀ v, hostAccess (.write (s.config.base + 0x000) 8 v) s =
        { s with response := some .writeOkay } ∧
      hostAccess (.write (s.config.base + 0x008) 8 v) s =
        { s with response := some .writeOkay }) ∧
    Reads s 0x000 d ∧ Reads s 0x008 w ∧ Reads s 0x010 s.cmd ∧ Reads s 0x018 en ∧
    Reads s 0x020 st ∧
    d = BitVec.ofNat 64 (0x4545474300000001 + 0x100 * s.config.limbs) ∧
    w.getLsbD 0 = s.busy ∧ w.getLsbD 1 = s.err ∧ w.getLsbD 2 = s.keyValid ∧
    w.getLsbD 3 = s.lnv ∧ w.getLsbD 4 = s.irqStatus.ovr ∧ w.extractLsb' 5 3 = 0 ∧
    w.getLsbD 8 = s.flags.carry ∧ w.getLsbD 9 = s.flags.bit ∧ w.getLsbD 10 = s.flags.cmp ∧
    w.getLsbD 11 = s.flags.inf ∧ w.getLsbD 12 = s.flags.valid ∧ w.extractLsb' 13 3 = 0 ∧
    w.extractLsb' 16 8 =
      (match s.errCode with
      | .ok => 0
      | .illegal => 1
      | .operand => 2
      | .modulus => 3
      | .divZero => 4
      | .noKey => 5
      | .config => 6
      | .auth => 7
      | .nonce => 8) ∧
    w.extractLsb' 24 8 = s.lastOp ∧ w.extractLsb' 32 32 = 0 ∧
    en.getLsbD 0 = s.irqEn.done ∧ en.getLsbD 1 = s.irqEn.err ∧ en.getLsbD 2 = s.irqEn.ovr ∧
    en.extractLsb' 3 61 = 0 ∧
    st.getLsbD 0 = s.irqStatus.done ∧ st.getLsbD 1 = s.irqStatus.err ∧
    st.getLsbD 2 = s.irqStatus.ovr ∧ st.extractLsb' 3 61 = 0 ∧
    (s.busy = false → ∃ c : Word, Reads s 0x028 c ∧
      c.extractLsb' 0 5 = s.ccmCfg.tlen ∧ c.extractLsb' 5 3 = 0 ∧
      c.extractLsb' 8 4 = s.ccmCfg.nlen ∧ c.extractLsb' 12 4 = 0 ∧
      c.getLsbD 16 = s.ccmCfg.nchk ∧ c.getLsbD 17 = s.ccmCfg.tagraw ∧ c.extractLsb' 18 46 = 0 ∧
      Reads s 0x030 (s.ccmAlen.setWidth 64) ∧ Reads s 0x038 (s.ccmPlen.setWidth 64))

/-- Every accepted command completes, or is discarded by a reset, after finitely many steps: at most
one more than there are events still to come.  R472 has the first part as a fairness premise; that
the engine's step runs by itself once the events are used up (log 3, log 8), and so the bound, is the
model's choice. -/
def Obligations.AcceptedCommandsComplete : Prop :=
  ∀ s : State, ∃ k t, k ≤ s.schedule.length + 1 ∧ core.run k s = .next t ∧ t.busy = false
end

