-- ==== Sys2Proof/Laws/Bytes.lean ====
section
/-! SUPPORT. Laws of the byte and wide-value helpers: reading back what was built or written. -/

namespace Sys2Proof.Machine

/-! ## Widths -/

theorem limbs_pos (c : Config) : 1 ≤ c.limbs := by simp [Config.limbs]

theorem limbs_le (c : Config) : c.limbs ≤ 8 := by
  have := c.limbsLessOne.isLt
  simp only [Config.limbs]; omega

theorem width_le (c : Config) : c.width ≤ 512 := by
  have := limbs_le c
  simp only [Config.width]; omega

theorem width_pos (c : Config) : 64 ≤ c.width := by
  have := limbs_pos c
  simp only [Config.width]; omega

/-! ## Wide values -/

theorem wideValue_lt (c : Config) (x : Wide) : wideValue c x < 2 ^ c.width :=
  Nat.mod_lt _ (Nat.two_pow_pos _)

/-- Reading a wide register back gives the number written, modulo 2^W. -/
@[simp] theorem wideValue_wideOf (c : Config) (v : Nat) :
    wideValue c (wideOf c v) = v % 2 ^ c.width := by
  have h1 : v % 2 ^ c.width < 2 ^ 512 :=
    lt_of_lt_of_le (Nat.mod_lt _ (Nat.two_pow_pos _))
      (Nat.pow_le_pow_right (by decide) (width_le c))
  rw [wideValue, wideOf, BitVec.toNat_ofNat, Nat.mod_eq_of_lt h1, Nat.mod_mod]

/-- What `wideOf` stores has no bit at or above W. -/
theorem wideOf_toNat_lt (c : Config) (v : Nat) : (wideOf c v).toNat < 2 ^ c.width := by
  have h1 : v % 2 ^ c.width < 2 ^ 512 :=
    lt_of_lt_of_le (Nat.mod_lt _ (Nat.two_pow_pos _))
      (Nat.pow_le_pow_right (by decide) (width_le c))
  rw [wideOf, BitVec.toNat_ofNat, Nat.mod_eq_of_lt h1]
  exact Nat.mod_lt _ (Nat.two_pow_pos _)

/-- Every bit of a wide register after a write of limb i < L. -/
theorem getLsbD_setWideLimb (c : Config) (x : Wide) (i k : Nat) (v : Word) (hi : i < c.limbs) :
    (setWideLimb c x i v).getLsbD k =
      if 64 * i ≤ k ∧ k < 64 * i + 64 then v.getLsbD (k - 64 * i) else x.getLsbD k := by
  have hL := limbs_le c
  by_cases hk : k < 512
  · simp only [setWideLimb, hi, if_true, BitVec.getLsbD_or, BitVec.getLsbD_and, BitVec.getLsbD_not,
      BitVec.getLsbD_shiftLeft, BitVec.getLsbD_setWidth, BitVec.getLsbD_allOnes, hk, decide_true,
      Bool.true_and]
    by_cases h1 : k < 64 * i
    · have : ¬ 64 * i ≤ k := by omega
      simp [h1, this]
    · by_cases h2 : k < 64 * i + 64
      · have h3 : 64 * i ≤ k := by omega
        have h4 : k - 64 * i < 64 := by omega
        have h5 : k - 64 * i < 512 := by omega
        simp [h1, h2, h3, h4, h5]
      · have h4 : ¬ k - 64 * i < 64 := by omega
        have h5 : v.getLsbD (k - 64 * i) = false := BitVec.getLsbD_of_ge _ _ (by omega)
        simp [h1, h2, h4, h5]
  · have h : ¬ k < 64 * i + 64 := by omega
    rw [BitVec.getLsbD_of_ge _ _ (by omega), BitVec.getLsbD_of_ge x _ (by omega)]
    simp [h]

/-- Limb j of a wide register after a write of limb i. -/
theorem wideLimb_setWideLimb (c : Config) (x : Wide) (i j : Nat) (v : Word) (hj : j < c.limbs) :
    wideLimb c (setWideLimb c x i v) j = if j = i then v else wideLimb c x j := by
  have hL := limbs_le c
  by_cases hi : i < c.limbs
  · apply BitVec.eq_of_getLsbD_eq
    intro k hk
    simp only [wideLimb, hj, if_true]
    rw [BitVec.getLsbD_extractLsb', getLsbD_setWideLimb c x i _ v hi]
    by_cases h : j = i
    · subst h
      simp [hk]
    · have h1 : ¬ (64 * i ≤ 64 * j + k ∧ 64 * j + k < 64 * i + 64) := by omega
      simp [hk, h1, h, -not_and]
  · have : j ≠ i := by omega
    simp [setWideLimb, hi, this]

/-- A wide register is below 2^W when no bit at or above W is set. -/
theorem wide_lt_of_bits (c : Config) (x : Wide) (h : ∀ k, c.width ≤ k → x.getLsbD k = false) :
    x.toNat < 2 ^ c.width :=
  Nat.lt_pow_two_of_testBit _ fun k hk => h k hk

/-- A host write of a limb keeps the limbs at and above L at 0. -/
theorem setWideLimb_toNat_lt (c : Config) (x : Wide) (i : Nat) (v : Word)
    (h : x.toNat < 2 ^ c.width) : (setWideLimb c x i v).toNat < 2 ^ c.width := by
  by_cases hi : i < c.limbs
  · refine wide_lt_of_bits c _ fun k hk => ?_
    rw [getLsbD_setWideLimb c x i k v hi]
    have h1 : ¬ (64 * i ≤ k ∧ k < 64 * i + 64) := by
      simp only [Config.width] at hk; omega
    simp only [h1, if_false]
    exact Nat.testBit_lt_two_pow (lt_of_lt_of_le h (Nat.pow_le_pow_right (by decide) hk))
  · simpa [setWideLimb, hi] using h

/-! ## Blocks and bus words -/

@[simp] theorem blockByte_blockOf (f : Nat → Byte) (j : Nat) (h : j < 16) :
    blockByte (blockOf f) j = f j := by
  simp only [blockByte, h, dif_pos]
  interval_cases j <;> rfl

/-- Two blocks with equal bytes are equal. -/
theorem block_ext {a b : Block} (h : ∀ j, j < 16 → blockByte a j = blockByte b j) : a = b := by
  apply Vector.ext
  intro j hj
  have := h j hj
  simpa [blockByte, hj] using this

/-- A block is built from its own bytes. -/
theorem blockOf_blockByte (b : Block) : blockOf (blockByte b) = b :=
  block_ext fun j hj => blockByte_blockOf _ j hj

@[simp] theorem blockBytes_length (b : Block) : (blockBytes b).length = 16 := by
  simp [blockBytes]

@[simp] theorem blockByte_blockXor (a b : Block) (j : Nat) (h : j < 16) :
    blockByte (blockXor a b) j = blockByte a j ^^^ blockByte b j := by
  simp [blockXor, h]

/-- Byte k of a bus word built from bytes. -/
@[simp] theorem wordByte_wordOfBytes (f : Nat → Byte) (k : Nat) (h : k < 8) :
    wordByte (wordOfBytes f) k = f k := by
  apply BitVec.eq_of_getLsbD_eq
  intro i hi
  simp only [wordByte, wordOfBytes, BitVec.getLsbD_extractLsb', hi, decide_true, Bool.true_and,
    BitVec.getLsbD_append]
  interval_cases k <;> interval_cases i <;> rfl

/-- A bus word is built from its own bytes. -/
theorem wordOfBytes_wordByte (w : Word) : wordOfBytes (wordByte w) = w := by
  apply BitVec.eq_of_getLsbD_eq
  intro i hi
  simp only [wordByte, wordOfBytes, BitVec.getLsbD_append, BitVec.getLsbD_extractLsb']
  interval_cases i <;> simp

/-- The bytes of a 16-byte register after a bus write of one half. -/
theorem blockByte_setBlockWord (b : Block) (h : Fin 2) (v : Word) (j : Nat) (hj : j < 16) :
    blockByte (setBlockWord b h v) j =
      if j / 8 = h then wordByte v (j % 8) else blockByte b j := by
  simp [setBlockWord, hj]

end Sys2Proof.Machine
end

