-- ==== Sys2Proof/Laws/Memory.lean ====
section
/-! SUPPORT. Laws of the message buffer: read after write, and that every operation keeps the
canonical form. -/

namespace Sys2Proof.Machine

/-! ## Reading after a write -/

theorem read_drop (m : Memory) (j k : Nat) :
    Memory.read (Memory.drop m j) k = if k = j then Memory.unlisted else Memory.read m k := by
  induction m with
  | nil => simp [Memory.drop, Memory.read]
  | cons c m ih =>
    obtain ⟨i, b⟩ := c
    simp only [Memory.drop] at ih ⊢
    by_cases hi : i = j
    · subst hi
      simp only [List.filter_cons, bne_self_eq_false, Bool.false_eq_true, if_false, ih, Memory.read]
      by_cases hk : k = i
      · simp [hk]
      · simp [hk, Ne.symm hk]
    · have hb : (i != j) = true := by simpa using hi
      simp only [List.filter_cons, hb, if_true, Memory.read, ih]
      by_cases hk : i = k
      · subst hk; simp [hi]
      · simp [hk]

theorem read_put (m : Memory) (j k : Nat) (b : Byte) (hj : ∀ c ∈ m, c.1 ≠ j) :
    Memory.read (Memory.put m j b) k = if k = j then b else Memory.read m k := by
  induction m with
  | nil => simp [Memory.put, Memory.read, eq_comm]
  | cons c m ih =>
    obtain ⟨i, c⟩ := c
    have hij : i ≠ j := hj (i, c) (by simp)
    have ih := ih fun d hd => hj d (by simp [hd])
    simp only [Memory.put]
    split
    · simp [Memory.read, eq_comm]
    · simp only [Memory.read, ih]
      by_cases hk : i = k
      · subst hk; simp [hij]
      · simp [hk]

theorem drop_ne (m : Memory) (j : Nat) : ∀ c ∈ Memory.drop m j, c.1 ≠ j := by
  intro c hc
  simpa [Memory.drop] using (List.mem_filter.mp hc).2

/-- MSGBUF[k] after a write of MSGBUF[j], for every list, canonical or not. -/
theorem read_write (m : Memory) (j k : Nat) (b : Byte) :
    Memory.read (Memory.write m j b) k = if k = j then b else Memory.read m k := by
  simp only [Memory.write]
  split
  · rename_i h; rw [read_drop, h]
  · rw [read_put _ _ _ _ (drop_ne m j), read_drop]
    split <;> rfl

/-- MSGBUF[k] after a write of a range: the range's byte inside it, the old byte outside. -/
theorem read_writeRange (m : Memory) (start k : Nat) (bs : List Byte) :
    Memory.read (Memory.writeRange m start bs) k =
      if start ≤ k ∧ k < start + bs.length then bs.getD (k - start) 0 else Memory.read m k := by
  induction bs generalizing m start with
  | nil =>
    have : ¬ (start ≤ k ∧ k < start + 0) := by omega
    simp only [Memory.writeRange, List.length_nil, this, if_false]
  | cons b bs ih =>
    simp only [Memory.writeRange, ih, read_write, List.length_cons]
    rcases Nat.lt_trichotomy k start with h | h | h
    · have h1 : ¬ (start + 1 ≤ k ∧ k < start + 1 + bs.length) := by omega
      have h2 : ¬ (start ≤ k ∧ k < start + (bs.length + 1)) := by omega
      have h3 : k ≠ start := by omega
      simp only [h1, h2, h3, if_false]
    · subst h
      have h1 : ¬ (k + 1 ≤ k ∧ k < k + 1 + bs.length) := by omega
      simp only [h1, if_false, if_true]
      simp
    · by_cases h0 : k < start + (bs.length + 1)
      · have h1 : start + 1 ≤ k ∧ k < start + 1 + bs.length := by omega
        have h2 : start ≤ k ∧ k < start + (bs.length + 1) := by omega
        obtain ⟨d, rfl⟩ : ∃ d, k = start + 1 + d := ⟨k - (start + 1), by omega⟩
        have h3 : start + 1 + d - (start + 1) = d := by omega
        have h4 : start + 1 + d - start = d + 1 := by omega
        rw [if_pos h1, if_pos h2, h3, h4]; simp
      · have h1 : ¬ (start + 1 ≤ k ∧ k < start + 1 + bs.length) := by omega
        have h2 : ¬ (start ≤ k ∧ k < start + (bs.length + 1)) := by omega
        have h3 : k ≠ start := by omega
        simp only [h1, h2, h3, if_false]

@[simp] theorem readRange_length (m : Memory) (start len : Nat) :
    (Memory.readRange m start len).length = len := by simp [Memory.readRange]

/-- Reading back a range just written. -/
theorem readRange_writeRange (m : Memory) (start : Nat) (bs : List Byte) :
    Memory.readRange (Memory.writeRange m start bs) start bs.length = bs := by
  apply List.ext_getElem (by simp)
  intro i h1 h2
  simp [Memory.readRange, read_writeRange, h2]

/-- Reading a range disjoint from the one written. -/
theorem readRange_writeRange_disjoint (m : Memory) (start len lo : Nat) (bs : List Byte)
    (h : start + len ≤ lo ∨ lo + bs.length ≤ start) :
    Memory.readRange (Memory.writeRange m lo bs) start len = Memory.readRange m start len := by
  apply List.ext_getElem (by simp)
  intro i h1 h2
  have h1 : i < len := by simpa using h1
  have h3 : ¬ (lo ≤ start + i ∧ start + i < lo + bs.length) := by omega
  simp only [Memory.readRange, List.getElem_map, List.getElem_range, read_writeRange, h3, if_false]

/-! ## The canonical form -/

theorem drop_wf {m : Memory} (h : m.wf) (j : Nat) : Memory.wf (Memory.drop m j) :=
  ⟨h.1.filter _, fun c hc => h.2 c (List.mem_filter.mp hc).1⟩

theorem mem_put {m : Memory} {j : Nat} {b : Byte} {c : Host.Cell} :
    c ∈ Memory.put m j b ↔ c = (j, b) ∨ c ∈ m := by
  induction m with
  | nil => simp [Memory.put]
  | cons d m ih =>
    obtain ⟨i, d⟩ := d
    simp only [Memory.put]
    split <;> simp [ih]
    tauto

theorem put_sorted {m : Memory} {j : Nat} {b : Byte} (h : m.Pairwise fun x y => x.1 < y.1)
    (hj : ∀ c ∈ m, c.1 ≠ j) : (Memory.put m j b).Pairwise fun x y => x.1 < y.1 := by
  induction m with
  | nil => simp [Memory.put]
  | cons d m ih =>
    obtain ⟨i, d⟩ := d
    rw [List.pairwise_cons] at h
    have hij : i ≠ j := hj (i, d) (by simp)
    simp only [Memory.put]
    split
    · rename_i hlt
      refine List.pairwise_cons.mpr ⟨fun c hc => ?_, List.pairwise_cons.mpr h⟩
      rcases List.mem_cons.mp hc with rfl | hc
      · exact hlt
      · exact lt_trans hlt (h.1 c hc)
    · refine List.pairwise_cons.mpr ⟨fun c hc => ?_, ih h.2 fun c hc => hj c (by simp [hc])⟩
      rcases mem_put.mp hc with rfl | hc
      · show i < j; omega
      · exact h.1 c hc

/-- A write inside the buffer keeps the canonical form. -/
theorem write_wf {m : Memory} (h : m.wf) {j : Nat} (hj : j < Config.msgbufBytes) (b : Byte) :
    Memory.wf (Memory.write m j b) := by
  simp only [Memory.write]
  split
  · exact drop_wf h j
  · rename_i hb
    have hd := drop_wf h j
    refine ⟨put_sorted hd.1 (drop_ne m j), fun c hc => ?_⟩
    rcases mem_put.mp hc with rfl | hc
    · exact ⟨hj, hb⟩
    · exact hd.2 c hc

/-- A write of a range inside the buffer keeps the canonical form. -/
theorem writeRange_wf {m : Memory} (h : m.wf) {start : Nat} (bs : List Byte)
    (hb : start + bs.length ≤ Config.msgbufBytes) : Memory.wf (Memory.writeRange m start bs) := by
  induction bs generalizing m start with
  | nil => exact h
  | cons b bs ih =>
    simp only [List.length_cons] at hb
    exact ih (write_wf h (by omega) b) (by omega)

end Sys2Proof.Machine
end

