-- ==== Sys2Proof/Laws/Bus.lean ====
section
/-! SUPPORT. Laws of the register window: an access at an offset is its register word's, each word
has one offset, and what a write of one word leaves in that word and in every other. -/

namespace Sys2Proof.Machine

/-! ## Offsets -/

@[simp] theorem windowOffset_base (c : Config) {off : Nat} (h : off < 0x2000) :
    windowOffset c (c.base + off) = some off := by
  rw [windowOffset, if_pos ⟨by omega, Nat.add_lt_add_left h _⟩, Nat.add_sub_cancel_left]

/-- The offset of each register word in the window (R88). -/
def Reg.offset : Reg → Nat
  | .id => 0x000
  | .status => 0x008
  | .cmd => 0x010
  | .irqEn => 0x018
  | .irqStatus => 0x020
  | .ccmCfg => 0x028
  | .ccmAlen => 0x030
  | .ccmPlen => 0x038
  | .aesKey h => 0x040 + 8 * h
  | .aesData h => 0x050 + 8 * h
  | .nonce h => 0x060 + 8 * h
  | .tag h => 0x070 + 8 * h
  | .lastNonce h => 0x080 + 8 * h
  | .slot i j => 0x200 + 0x40 * i + 8 * j
  | .point i c j => 0x600 + 0xC0 * i + 0x40 * c + 8 * j
  | .cp j => 0x900 + 8 * j
  | .ca j => 0x940 + 8 * j
  | .cb j => 0x980 + 8 * j
  | .msgbuf k => 0x1000 + 8 * k

theorem offset_lt (r : Reg) : r.offset < 0x2000 := by
  cases r <;> simp only [Reg.offset] <;> omega

theorem offset_aligned (r : Reg) : r.offset % 8 = 0 := by
  cases r <;> simp only [Reg.offset] <;> omega

theorem regAt_of_ge {off : Nat} (h : 0x1400 ≤ off) : regAt off = none := by
  unfold regAt
  repeat rw [if_neg (by omega)]

theorem regAt_words : ∀ k < 0x280, (regAt (8 * k)).all (fun r => r.offset == 8 * k) = true := by
  decide +kernel

/-- The word at an aligned offset stands at that offset, so two offsets never share a word. -/
theorem offset_of_regAt {off : Nat} {r : Reg} (h8 : off % 8 = 0) (h : regAt off = some r) :
    r.offset = off := by
  by_cases hb : 0x1400 ≤ off
  · rw [regAt_of_ge hb] at h; contradiction
  · have e : 8 * (off / 8) = off := by omega
    have := regAt_words (off / 8) (by omega)
    rw [e, h] at this
    simpa using this

/-- Each register word is the one at its offset. -/
theorem regAt_offset (r : Reg) : regAt r.offset = some r := by
  cases r <;> simp only [Reg.offset] <;> unfold regAt
  all_goals
    repeat rw [if_neg (by omega)]
    first
      | rfl
      | (rw [if_pos (by omega)]
         simp only [Option.some.injEq, Reg.aesKey.injEq, Reg.aesData.injEq, Reg.nonce.injEq,
           Reg.tag.injEq, Reg.lastNonce.injEq, Reg.slot.injEq, Reg.point.injEq, Reg.cp.injEq,
           Reg.ca.injEq, Reg.cb.injEq, Reg.msgbuf.injEq, Fin.ext_iff, Fin.ofNat]
         omega)

/-! ## Accesses at an offset -/

theorem hostAccess_read {s : State} {off bytes : Nat} (h : off < 0x2000) :
    hostAccess (.read (s.config.base + off) bytes) s =
      { s with
        response := some (match served s off bytes with
          | none => .error
          | some r => .readOkay (readReg s r)) } := by
  cases hs : served s off bytes <;> simp only [hostAccess, windowOffset_base s.config h, hs]

theorem hostAccess_write {s : State} {off bytes : Nat} {v : Word} (h : off < 0x2000) :
    hostAccess (.write (s.config.base + off) bytes v) s =
      match served s off bytes with
      | none => { s with response := some .error }
      | some r => { writeReg s r v with response := some .writeOkay } := by
  cases hs : served s off bytes <;> simp only [hostAccess, windowOffset_base s.config h, hs]

/-- An idle engine serves every word of the map; a busy one those that stay open (R81, R85). -/
theorem served_offset {s : State} {r : Reg} (h : s.busy = false ∨ r.openWhileBusy = true) :
    served s r.offset 8 = some r := by
  simp only [served, offset_aligned, and_self, if_true, regAt_offset]
  rcases h with h | h <;> simp [h]

/-- A read of a word that is open answers what the word reads as. -/
theorem reads_of_open {s : State} {r : Reg} (h : s.busy = false ∨ r.openWhileBusy = true) :
    Reads s r.offset (readReg s r) := by
  rw [Reads, hostAccess_read (offset_lt r), served_offset h]

/-! ## Limbs and bytes -/

/-- Limb j of a wide register is its value's base-2^64 digit j. -/
theorem wideLimb_eq (c : Config) (x : Wide) (j : Nat) :
    wideLimb c x j = BitVec.ofNat 64 (wideValue c x / 2 ^ (64 * j)) := by
  apply BitVec.eq_of_toNat_eq
  have hp : 2 ^ (64 * j) * 2 ^ (c.width - 64 * j) = 2 ^ c.width ∨ c.limbs ≤ j := by
    by_cases h : c.limbs ≤ j
    · exact .inr h
    · refine .inl ?_
      rw [← pow_add]
      congr 1
      simp only [Config.width]; omega
  by_cases hj : j < c.limbs
  · have hp := hp.resolve_right (by omega)
    simp only [wideLimb, hj, if_true, BitVec.extractLsb'_toNat, BitVec.toNat_ofNat, wideValue,
      Nat.shiftRight_eq_div_pow]
    rw [← hp, Nat.mod_mul_right_div_self, Nat.mod_mod_of_dvd]
    apply pow_dvd_pow
    simp only [Config.width]; omega
  · have hlt := wideValue_lt c x
    have hle : 2 ^ c.width ≤ 2 ^ (64 * j) := Nat.pow_le_pow_right (by decide) (by
      simp only [Config.width]; omega)
    rw [Nat.div_eq_of_lt (by omega)]
    simp [wideLimb, hj]

/-- Byte j of a 16-byte register in its window word (R82). -/
theorem extractLsb'_blockWord (b : Block) (h : Fin 2) {k : Nat} (hk : k < 8) :
    (blockWord b h).extractLsb' (8 * k) 8 = blockByte b (8 * h + k) :=
  wordByte_wordOfBytes _ k hk

theorem extractLsb'_msgWord (m : Memory) (n : Nat) {k : Nat} (hk : k < 8) :
    (msgWord m n).extractLsb' (8 * k) 8 = Memory.read m (8 * n + k) :=
  wordByte_wordOfBytes _ k hk

/-- The two words of a 16-byte register after a write of one of them. -/
theorem blockWord_setBlockWord (b : Block) (h k : Fin 2) (v : Word) :
    blockWord (setBlockWord b h v) k = if k = h then v else blockWord b k := by
  have key : ∀ i, i < 8 → blockByte (setBlockWord b h v) (8 * k + i) =
      if k = h then wordByte v i else blockByte b (8 * k + i) := by
    intro i hi
    have hk := k.isLt
    have e1 : (8 * k.val + i) / 8 = k := by omega
    have e2 : (8 * k.val + i) % 8 = i := by omega
    rw [blockByte_setBlockWord b h v _ (by omega), e1, e2]
    simp only [Fin.ext_iff]
  simp only [blockWord, wordOfBytes, key 0 (by decide), key 1 (by decide), key 2 (by decide),
    key 3 (by decide), key 4 (by decide), key 5 (by decide), key 6 (by decide), key 7 (by decide)]
  by_cases e : k = h
  · simp only [e, if_true]
    exact wordOfBytes_wordByte v
  · simp only [e, if_false]

/-- The words of MSGBUF after a write of one of them. -/
theorem msgWord_setMsgWord (m : Memory) (h k : Nat) (v : Word) :
    msgWord (setMsgWord m h v) k = if k = h then v else msgWord m k := by
  have key : ∀ i, i < 8 → Memory.read (setMsgWord m h v) (8 * k + i) =
      if k = h then wordByte v i else Memory.read m (8 * k + i) := by
    intro i hi
    simp only [setMsgWord, read_writeRange, List.length_map, List.length_range]
    by_cases e : k = h
    · subst e
      rw [if_pos (by omega), if_pos rfl, Nat.add_sub_cancel_left, List.getD_eq_getElem?_getD]
      simp [hi]
    · rw [if_neg (by omega), if_neg e]
  simp only [msgWord, wordOfBytes, key 0 (by decide), key 1 (by decide), key 2 (by decide),
    key 3 (by decide), key 4 (by decide), key 5 (by decide), key 6 (by decide), key 7 (by decide)]
  by_cases e : k = h
  · simp only [e, if_true]
    exact wordOfBytes_wordByte v
  · simp only [e, if_false]

/-- Limb j of a wide register after a write of limb i, at every limb. -/
theorem wideLimb_setWideLimb_of_ne (c : Config) (x : Wide) {i j : Nat} (v : Word) (h : j ≠ i) :
    wideLimb c (setWideLimb c x i v) j = wideLimb c x j := by
  by_cases hj : j < c.limbs
  · rw [wideLimb_setWideLimb c x i j v hj, if_neg h]
  · simp [wideLimb, hj]

/-- The coordinates of a point register after one of them is replaced. -/
theorem coordinate_setCoordinate (P : PointReg) (c d : Fin 3) (x : Wide) :
    coordinate (setCoordinate P c x) d = if d = c then x else coordinate P d := by
  fin_cases c <;> fin_cases d <;> rfl

/-! ## What a write leaves -/

/-- No register word shows the last response. -/
@[simp] theorem readReg_response (s : State) (x : Option Response) (r : Reg) :
    readReg { s with response := x } r = readReg s r := by
  cases r <;> rfl

/-- Only a CMD write gives the engine a command. -/
theorem writeReg_pending {s : State} {r : Reg} {v : Word} (h : r ≠ .cmd) :
    (writeReg s r v).pending = s.pending := by
  cases r <;> first | rfl | exact absurd rfl h

/-- No write reaches the schedule of round keys (R48). -/
@[simp] theorem writeReg_rk (s : State) (r : Reg) (v : Word) : (writeReg s r v).rk = s.rk := by
  cases r <;> simp only [writeReg]
  split <;> rfl

/-- A write of one word leaves every other word as it was (R86); CMD apart, whose write makes the
engine busy or sets OVR, and STATUS, which mirrors OVR of IRQ_STATUS. -/
theorem readReg_writeReg_of_ne {s : State} {r q : Reg} {v : Word} (hc : r ≠ .cmd) (hq : q ≠ r)
    (hs : ¬ (r = .irqStatus ∧ q = .status)) : readReg (writeReg s r v) q = readReg s q := by
  cases r with
  | cmd => exact absurd rfl hc
  | id => rfl
  | status => rfl
  | lastNonce h => rfl
  | irqEn => cases q <;> first | rfl | exact absurd rfl hq
  | irqStatus => cases q <;> first | exact absurd ⟨rfl, rfl⟩ hs | rfl | exact absurd rfl hq
  | ccmCfg => cases q <;> first | rfl | exact absurd rfl hq
  | ccmAlen => cases q <;> first | rfl | exact absurd rfl hq
  | ccmPlen => cases q <;> first | rfl | exact absurd rfl hq
  | aesKey h => cases q <;> rfl
  | aesData h =>
    cases q with
    | aesData k =>
      exact (blockWord_setBlockWord s.aesData h k v).trans (if_neg fun e => hq (by rw [e]))
    | _ => rfl
  | nonce h =>
    cases q with
    | nonce k =>
      exact (blockWord_setBlockWord s.nonce h k v).trans (if_neg fun e => hq (by rw [e]))
    | _ => rfl
  | tag h =>
    cases q with
    | tag k => exact (blockWord_setBlockWord s.tag h k v).trans (if_neg fun e => hq (by rw [e]))
    | _ => rfl
  | slot i j =>
    cases q with
    | slot i' j' =>
      show wideLimb s.config (s.slots.set i _)[i'] j' = wideLimb s.config s.slots[i'] j'
      by_cases e : i = i'
      · subst e
        have hj : j'.val ≠ j.val := fun e => hq (by rw [Fin.ext e])
        simp [wideLimb_setWideLimb_of_ne _ _ _ hj]
      · have e : i.val ≠ i'.val := fun h => e (Fin.ext h)
        simp [e]
    | _ => rfl
  | point i c j =>
    cases q with
    | point i' c' j' =>
      show wideLimb s.config (coordinate (s.points.set i _)[i'] c') j' =
        wideLimb s.config (coordinate s.points[i'] c') j'
      by_cases e : i = i'
      · subst e
        simp only [Fin.getElem_fin, Vector.getElem_set_self, coordinate_setCoordinate]
        split
        · rename_i e
          subst e
          have hj : j'.val ≠ j.val := fun e => hq (by rw [Fin.ext e])
          exact wideLimb_setWideLimb_of_ne _ _ _ hj
        · rfl
      · have e : i.val ≠ i'.val := fun h => e (Fin.ext h)
        simp [e]
    | _ => rfl
  | cp j =>
    cases q with
    | cp k => exact wideLimb_setWideLimb_of_ne _ _ _ fun e => hq (by rw [Fin.ext e])
    | _ => rfl
  | ca j =>
    cases q with
    | ca k => exact wideLimb_setWideLimb_of_ne _ _ _ fun e => hq (by rw [Fin.ext e])
    | _ => rfl
  | cb j =>
    cases q with
    | cb k => exact wideLimb_setWideLimb_of_ne _ _ _ fun e => hq (by rw [Fin.ext e])
    | _ => rfl
  | msgbuf k =>
    cases q with
    | msgbuf k' =>
      exact (msgWord_setMsgWord s.msgbuf k k' v).trans (if_neg fun e => hq (by rw [Fin.ext e]))
    | _ => rfl

end Sys2Proof.Machine
end

