-- ==== Sys2Proof/Laws/Cipher.lean ====
section
/-! SUPPORT. Laws of the cipher's shared operations: cells of a built state, and the lengths and bytes
of the strings that the CCM commands handle. -/

namespace Sys2Proof.Machine

/-! ## Cells -/

@[simp] theorem cell_blockOfCells (f : Fin 4 → Fin 4 → Byte) (r c : Fin 4) :
    cell (blockOfCells f) r c = f r c := by
  fin_cases r <;> fin_cases c <;> rfl

/-- Two blocks with equal cells are equal. -/
theorem cell_ext {x y : Block} (h : ∀ r c, cell x r c = cell y r c) : x = y := by
  apply block_ext
  intro j hj
  have hr : j % 4 < 4 := Nat.mod_lt _ (by decide)
  have hc : j / 4 < 4 := by omega
  have e : j % 4 + 4 * (j / 4) = j := by omega
  have := h ⟨j % 4, hr⟩ ⟨j / 4, hc⟩
  simpa only [cell, e] using this

@[simp] theorem cell_blockXor (x y : Block) (r c : Fin 4) :
    cell (blockXor x y) r c = cell x r c ^^^ cell y r c := by
  have h : r.val + 4 * c.val < 16 := by omega
  simp [cell, h]

/-- AddRoundKey undoes itself (R319). -/
theorem addRoundKey_addRoundKey (rk : Vector KeyWord 44) (r : Fin 11) (x : Block) :
    addRoundKey rk r (addRoundKey rk r x) = x := by
  apply cell_ext
  intro i j
  simp [addRoundKey]

/-! ## Byte strings -/

@[simp] theorem blockByte_blockOfList (l : List Byte) (j : Nat) (h : j < 16) :
    blockByte (blockOfList l) j = l.getD j 0 := by
  simp [blockOfList, h]

@[simp] theorem bigEndian_length (q v : Nat) : (bigEndian q v).length = q := by
  induction q with
  | zero => rfl
  | succ q ih => simp [bigEndian, ih]

/-- The k-th byte from the end of `[v]_q` is the k-th base-256 digit of v (R361). -/
theorem bigEndian_getD (q v k : Nat) (h : k < q) :
    (bigEndian q v).getD (q - 1 - k) 0 = BitVec.ofNat 8 (v / 256 ^ k) := by
  induction q with
  | zero => omega
  | succ q ih =>
    by_cases hk : k = q
    · subst hk; simp [bigEndian]
    · have e : q + 1 - 1 - k = (q - 1 - k) + 1 := by omega
      rw [bigEndian, e, List.getD_cons_succ, ih (by omega)]

@[simp] theorem bigEndianValue_append (l : List Byte) (b : Byte) :
    bigEndianValue (l ++ [b]) = 256 * bigEndianValue l + b.toNat := by
  simp [bigEndianValue]

/-- The value of a nonce register's first n bytes is val of R365. -/
theorem bigEndianValue_take (X : Block) {n : Nat} (hn : n ≤ 16) :
    bigEndianValue ((blockBytes X).take n) = nonceValue n X := by
  rw [blockBytes, ← List.map_take, List.take_range, Nat.min_eq_left hn]
  induction n with
  | zero => rfl
  | succ n ih =>
    rw [List.range_succ, List.map_append, List.map_singleton, bigEndianValue_append, ih (by omega),
      nonceValue, nonceValue, List.range_succ, List.map_append, List.sum_append,
      ← List.sum_map_mul_left]
    congr 1
    · congr 1
      apply List.map_congr_left
      intro k hk
      have hk := List.mem_range.mp hk
      rw [show n + 1 - 1 - k = (n - 1 - k) + 1 by omega, pow_succ]
      ring
    · simp

@[simp] theorem xorBytes_length (a b : List Byte) :
    (xorBytes a b).length = min a.length b.length := by simp [xorBytes]

/-- Adding a string twice gives the first one back. -/
theorem xorBytes_xorBytes (a k : List Byte) (h : a.length = k.length) :
    xorBytes (xorBytes a k) k = a := by
  apply List.ext_getElem (by simp [h])
  intro i h1 h2
  simp [xorBytes]

@[simp] theorem payload_length (s : State) : s.payload.length = s.payLen := by
  simp [State.payload]

@[simp] theorem adBytes_length (s : State) : s.adBytes.length = s.adLen := by
  simp [State.adBytes]

theorem flatMap_blockBytes_length {α : Type} (f : α → Block) (l : List α) :
    (l.flatMap fun x => blockBytes (f x)).length = 16 * l.length := by
  induction l with
  | nil => rfl
  | cons x l ih => simp [List.flatMap_cons, ih]; omega

/-- The keystream has the length asked for (R363). -/
@[simp] theorem keystream_length (rk : Vector KeyWord 44) (nonce : List Byte) (len : Nat) :
    (keystream rk nonce len).length = len := by
  have h := flatMap_blockBytes_length
    (fun j => encryptBlock rk (counterBlock nonce (j + 1))) (List.range ((len + 15) / 16))
  simp only [keystream, List.length_take, h, List.length_range]
  omega

/-- A tag of legal length has the length asked for (R364). -/
theorem ccmTag_length (rk : Vector KeyWord 44) {t : Nat} (ht : t ≤ 16) (raw : Bool)
    (nonce ad pay : List Byte) : (ccmTag rk t raw nonce ad pay).length = t := by
  simp only [ccmTag]
  split <;> simp [ht]

/-- The configuration check says what R362 says. -/
theorem ccmConfigOk_iff (s : State) : s.ccmConfigOk = true ↔
    s.tagLen ∈ [4, 6, 8, 10, 12, 14, 16] ∧ 7 ≤ s.nonceLen ∧ s.nonceLen ≤ 13 ∧
      s.adLen + s.payLen ≤ 1024 := by
  simp only [State.ccmConfigOk, Bool.and_eq_true, decide_eq_true_eq, and_assoc]
  rfl

end Sys2Proof.Machine
end

