-- ==== Sys2Proof/Laws/Decode.lean ====
section
/-! SUPPORT. Laws of the command word: its fields read back, and the mask test field by field. -/

namespace Sys2Proof

/-- The fields of a word built from fields (R121). -/
@[simp] theorem Fields.ofWord_word (f : Fields) : Fields.ofWord f.word = f := by
  obtain ⟨op, d, a, b, n, e, r0, imm, r1⟩ := f
  simp only [Fields.ofWord, Fields.word, Fields.mk.injEq]
  refine ⟨?_, ?_, ?_, ?_, ?_, ?_, ?_, ?_, ?_⟩ <;>
  · apply BitVec.eq_of_getLsbD_eq
    intro i hi
    simp only [BitVec.getLsbD_extractLsb', BitVec.getLsbD_append, hi, decide_true, Bool.true_and]
    interval_cases i <;> rfl

/-- A word is built from its own fields (R121). -/
theorem Fields.word_ofWord (w : Word) : (Fields.ofWord w).word = w := by
  apply BitVec.eq_of_getLsbD_eq
  intro i hi
  simp only [Fields.ofWord, Fields.word, BitVec.getLsbD_append, BitVec.getLsbD_extractLsb']
  interval_cases i <;> simp

/-- The number that a word built from fields is (R121). -/
theorem Fields.word_toNat (f : Fields) : f.word.toNat =
    f.op.toNat + 2 ^ 8 * f.d.toNat + 2 ^ 12 * f.a.toNat + 2 ^ 16 * f.b.toNat +
      2 ^ 20 * f.n.toNat + 2 ^ 24 * f.e.toNat + 2 ^ 28 * f.rsv0.toNat + 2 ^ 32 * f.imm.toNat +
      2 ^ 48 * f.rsv1.toNat := by
  have append : ∀ {m n : Nat} (x : BitVec m) (y : BitVec n),
      (x ++ y).toNat = x.toNat * 2 ^ n + y.toNat := by
    intro m n x y
    rw [BitVec.toNat_append, Nat.shiftLeft_eq, Nat.mul_comm, ← Nat.two_pow_add_eq_or_of_lt y.isLt]
  simp only [Fields.word, append]; omega

/-- Fields masked one by one. -/
def Fields.and (f g : Fields) : Fields where
  op := f.op &&& g.op
  d := f.d &&& g.d
  a := f.a &&& g.a
  b := f.b &&& g.b
  n := f.n &&& g.n
  e := f.e &&& g.e
  rsv0 := f.rsv0 &&& g.rsv0
  imm := f.imm &&& g.imm
  rsv1 := f.rsv1 &&& g.rsv1

theorem Fields.word_and (f g : Fields) : f.word &&& g.word = (f.and g).word := by
  apply BitVec.eq_of_getLsbD_eq
  intro i hi
  simp only [Fields.and, Fields.word, BitVec.getLsbD_and, BitVec.getLsbD_append]
  interval_cases i <;> rfl

theorem Fields.word_inj {f g : Fields} (h : f.word = g.word) : f = g := by
  rw [← Fields.ofWord_word f, ← Fields.ofWord_word g, h]

/-- A field that keeps R123: the bits its use fixes are 0. -/
def FieldUse.legal (u : FieldUse) (v : BitVec 4) : Prop := v &&& u.fixedBits = 0

/-- The mask test of R126 says R123 field by field: the reserved fields and every unused field are
0, and each point field is below 4. -/
theorem mask_test_iff (r : Row) (f : Fields) (h : f.op = r.op) :
    f.word &&& r.mask = r.pattern ↔
      r.d.legal f.d ∧ r.a.legal f.a ∧ r.b.legal f.b ∧ r.n.legal f.n ∧ r.e.legal f.e ∧
      f.rsv0 = 0 ∧ (r.imm = false → f.imm = 0) ∧ f.rsv1 = 0 := by
  have h8 : r.op &&& 0xFF#8 = r.op := BitVec.and_allOnes
  have h4 : ∀ v : BitVec 4, v &&& 0xF#4 = v := fun v => BitVec.and_allOnes
  have h16 : ∀ v : BitVec 16, v &&& 0xFFFF#16 = v := fun v => BitVec.and_allOnes
  simp only [Row.mask, Row.pattern, Fields.word_and, FieldUse.legal]
  constructor
  · intro e
    have e := Fields.word_inj e
    simp only [Fields.and, Fields.mk.injEq] at e
    obtain ⟨-, hd, ha, hb, hn, he, h0, hi, h1⟩ := e
    refine ⟨hd, ha, hb, hn, he, by simpa [h4] using h0, fun hf => ?_, by simpa [h16] using h1⟩
    simpa [hf, h16] using hi
  · rintro ⟨hd, ha, hb, hn, he, h0, hi, h1⟩
    congr 1
    simp only [Fields.and, Fields.mk.injEq, hd, ha, hb, hn, he, h0, h1, h, true_and]
    refine ⟨h8, by simp, ?_, by simp⟩
    cases hr : r.imm with
    | true => simp
    | false => simp [hi hr]

@[simp] theorem slotOf_slotField (i : Slot) : slotOf (slotField i) = i := by
  revert i; decide

@[simp] theorem pointOf_pointField (i : PointIx) : pointOf (pointField i) = i := by
  revert i; decide

theorem slotField_slotOf (v : BitVec 4) : slotField (slotOf v) = v := by
  revert v; decide

theorem pointField_pointOf (v : BitVec 4) (h : FieldUse.point.legal v) :
    pointField (pointOf v) = v := by
  revert v; unfold FieldUse.legal; decide

@[simp] theorem slot_legal (v : BitVec 4) : FieldUse.slot.legal v := by
  revert v; unfold FieldUse.legal; decide

@[simp] theorem point_legal (i : PointIx) : FieldUse.point.legal (pointField i) := by
  revert i; unfold FieldUse.legal; decide

@[simp] theorem unused_legal (v : BitVec 4) : FieldUse.unused.legal v ↔ v = 0 := by
  revert v; unfold FieldUse.legal; decide

/-- Decoding of a word whose opcode has the row r. -/
theorem decode_of_row {f : Fields} {r : Row} (hr : rowOf f.op = some r)
    (hm : f.word &&& r.mask = r.pattern) :
    decode f.word = if (r.make f).wellFormed then .ok (r.make f) else .error .operand := by
  simp only [decode, Fields.ofWord_word, hr, hm, if_true]

/-- The row of an opcode is one of the map, and has that opcode. -/
theorem rowOf_some {op : BitVec 8} {r : Row} (h : rowOf op = some r) : r ∈ rows ∧ r.op = op :=
  ⟨List.mem_of_find?_eq_some h, by simpa using List.find?_some h⟩

/-- A word that decodes has a row, passes its mask test, and its command is well formed. -/
theorem decode_ok {w : Word} {i : Instr} (h : decode w = .ok i) :
    ∃ r, rowOf (Fields.ofWord w).op = some r ∧ w &&& r.mask = r.pattern ∧
      r.make (Fields.ofWord w) = i ∧ i.wellFormed = true := by
  simp only [decode] at h
  split at h
  · exact absurd h (by simp)
  · rename_i r hr
    split at h
    · rename_i hm
      split at h
      · rename_i hw
        have h := Except.ok.inj h
        exact ⟨r, hr, hm, h, h ▸ hw⟩
      · exact absurd h (by simp)
    · exact absurd h (by simp)

end Sys2Proof
end

