-- ==== Sys2Proof/Laws/PerInstr.lean ====
section
/-! SUPPORT. Laws about every command as syntax, one lemma per constructor. -/

namespace Sys2Proof.Laws.EncodingMatchesRow

/-- The encoding of i has a row of R125 for its opcode, passes that row's mask test, and the row
makes i from it. -/
def Statement (i : Instr) : Prop :=
  ∃ r, rowOf (fieldsOf i).op = some r ∧ encode i &&& r.mask = r.pattern ∧
    r.make (fieldsOf i) = i

theorem nop : Statement .nop :=
  ⟨_, rfl, (mask_test_iff _ _ rfl).mpr (by simp [fieldsOf]), rfl⟩

theorem zeroize : Statement .zeroize :=
  ⟨_, rfl, (mask_test_iff _ _ rfl).mpr (by simp [fieldsOf]), rfl⟩

theorem mov (d a : Slot) : Statement (.mov d a) :=
  ⟨_, rfl, (mask_test_iff _ _ rfl).mpr (by simp [fieldsOf]), by simp [fieldsOf]⟩

theorem add (d a b : Slot) : Statement (.add d a b) :=
  ⟨_, rfl, (mask_test_iff _ _ rfl).mpr (by simp [fieldsOf]), by simp [fieldsOf]⟩

theorem sub (d a b : Slot) : Statement (.sub d a b) :=
  ⟨_, rfl, (mask_test_iff _ _ rfl).mpr (by simp [fieldsOf]), by simp [fieldsOf]⟩

theorem mul (d e a b : Slot) : Statement (.mul d e a b) :=
  ⟨_, rfl, (mask_test_iff _ _ rfl).mpr (by simp [fieldsOf]), by simp [fieldsOf]⟩

theorem cmpeq (d a b : Slot) : Statement (.cmpeq d a b) :=
  ⟨_, rfl, (mask_test_iff _ _ rfl).mpr (by simp [fieldsOf]), by simp [fieldsOf]⟩

theorem cmplt (d a b : Slot) : Statement (.cmplt d a b) :=
  ⟨_, rfl, (mask_test_iff _ _ rfl).mpr (by simp [fieldsOf]), by simp [fieldsOf]⟩

theorem cmov (d a b : Slot) : Statement (.cmov d a b) :=
  ⟨_, rfl, (mask_test_iff _ _ rfl).mpr (by simp [fieldsOf]), by simp [fieldsOf]⟩

theorem shl (d a : Slot) (k : Imm) : Statement (.shl d a k) :=
  ⟨_, rfl, (mask_test_iff _ _ rfl).mpr (by simp [fieldsOf]), by simp [fieldsOf]⟩

theorem shr (d a : Slot) (k : Imm) : Statement (.shr d a k) :=
  ⟨_, rfl, (mask_test_iff _ _ rfl).mpr (by simp [fieldsOf]), by simp [fieldsOf]⟩

theorem getbit (d a : Slot) (k : Imm) : Statement (.getbit d a k) :=
  ⟨_, rfl, (mask_test_iff _ _ rfl).mpr (by simp [fieldsOf]), by simp [fieldsOf]⟩

theorem addmod (d a b n : Slot) : Statement (.addmod d a b n) :=
  ⟨_, rfl, (mask_test_iff _ _ rfl).mpr (by simp [fieldsOf]), by simp [fieldsOf]⟩

theorem submod (d a b n : Slot) : Statement (.submod d a b n) :=
  ⟨_, rfl, (mask_test_iff _ _ rfl).mpr (by simp [fieldsOf]), by simp [fieldsOf]⟩

theorem modred (d a b n : Slot) : Statement (.modred d a b n) :=
  ⟨_, rfl, (mask_test_iff _ _ rfl).mpr (by simp [fieldsOf]), by simp [fieldsOf]⟩

theorem divmod (d e a n : Slot) : Statement (.divmod d e a n) :=
  ⟨_, rfl, (mask_test_iff _ _ rfl).mpr (by simp [fieldsOf]), by simp [fieldsOf]⟩

theorem modexp (d a b n : Slot) : Statement (.modexp d a b n) :=
  ⟨_, rfl, (mask_test_iff _ _ rfl).mpr (by simp [fieldsOf]), by simp [fieldsOf]⟩

theorem modinv (d a n : Slot) : Statement (.modinv d a n) :=
  ⟨_, rfl, (mask_test_iff _ _ rfl).mpr (by simp [fieldsOf]), by simp [fieldsOf]⟩

theorem montsetup (d n : Slot) : Statement (.montsetup d n) :=
  ⟨_, rfl, (mask_test_iff _ _ rfl).mpr (by simp [fieldsOf]), by simp [fieldsOf]⟩

theorem montmul (d a b n e : Slot) : Statement (.montmul d a b n e) :=
  ⟨_, rfl, (mask_test_iff _ _ rfl).mpr (by simp [fieldsOf]), by simp [fieldsOf]⟩

theorem tomont (d a n : Slot) : Statement (.tomont d a n) :=
  ⟨_, rfl, (mask_test_iff _ _ rfl).mpr (by simp [fieldsOf]), by simp [fieldsOf]⟩

theorem frommont (d a n e : Slot) : Statement (.frommont d a n e) :=
  ⟨_, rfl, (mask_test_iff _ _ rfl).mpr (by simp [fieldsOf]), by simp [fieldsOf]⟩

theorem pinf (d : PointIx) : Statement (.pinf d) :=
  ⟨_, rfl, (mask_test_iff _ _ rfl).mpr (by simp [fieldsOf]), by simp [fieldsOf]⟩

theorem pmov (d a : PointIx) : Statement (.pmov d a) :=
  ⟨_, rfl, (mask_test_iff _ _ rfl).mpr (by simp [fieldsOf]), by simp [fieldsOf]⟩

theorem pneg (d a : PointIx) : Statement (.pneg d a) :=
  ⟨_, rfl, (mask_test_iff _ _ rfl).mpr (by simp [fieldsOf]), by simp [fieldsOf]⟩

theorem pdbl (d a : PointIx) : Statement (.pdbl d a) :=
  ⟨_, rfl, (mask_test_iff _ _ rfl).mpr (by simp [fieldsOf]), by simp [fieldsOf]⟩

theorem padd (d a b : PointIx) : Statement (.padd d a b) :=
  ⟨_, rfl, (mask_test_iff _ _ rfl).mpr (by simp [fieldsOf]), by simp [fieldsOf]⟩

theorem pmul (d : PointIx) (a : Slot) (b : PointIx) : Statement (.pmul d a b) :=
  ⟨_, rfl, (mask_test_iff _ _ rfl).mpr (by simp [fieldsOf]), by simp [fieldsOf]⟩

theorem paff (d a : PointIx) : Statement (.paff d a) :=
  ⟨_, rfl, (mask_test_iff _ _ rfl).mpr (by simp [fieldsOf]), by simp [fieldsOf]⟩

theorem pvalid (a : PointIx) : Statement (.pvalid a) :=
  ⟨_, rfl, (mask_test_iff _ _ rfl).mpr (by simp [fieldsOf]), by simp [fieldsOf]⟩

theorem aeskey : Statement .aeskey :=
  ⟨_, rfl, (mask_test_iff _ _ rfl).mpr (by simp [fieldsOf]), rfl⟩

theorem aesenc : Statement .aesenc :=
  ⟨_, rfl, (mask_test_iff _ _ rfl).mpr (by simp [fieldsOf]), rfl⟩

theorem aesdec : Statement .aesdec :=
  ⟨_, rfl, (mask_test_iff _ _ rfl).mpr (by simp [fieldsOf]), rfl⟩

theorem aeser (r : Imm) : Statement (.aeser r) :=
  ⟨_, rfl, (mask_test_iff _ _ rfl).mpr (by simp [fieldsOf]), by simp [fieldsOf]⟩

theorem aesdr (r : Imm) : Statement (.aesdr r) :=
  ⟨_, rfl, (mask_test_iff _ _ rfl).mpr (by simp [fieldsOf]), by simp [fieldsOf]⟩

theorem ccmseal : Statement .ccmseal :=
  ⟨_, rfl, (mask_test_iff _ _ rfl).mpr (by simp [fieldsOf]), rfl⟩

theorem ccmopen : Statement .ccmopen :=
  ⟨_, rfl, (mask_test_iff _ _ rfl).mpr (by simp [fieldsOf]), rfl⟩

/-- The statement for every command, from the lemma of each. -/
theorem every (i : Instr) : Statement i :=
  match i with
  | .nop => EncodingMatchesRow.nop
  | .zeroize => EncodingMatchesRow.zeroize
  | .mov d a => EncodingMatchesRow.mov d a
  | .add d a b => EncodingMatchesRow.add d a b
  | .sub d a b => EncodingMatchesRow.sub d a b
  | .mul d e a b => EncodingMatchesRow.mul d e a b
  | .cmpeq d a b => EncodingMatchesRow.cmpeq d a b
  | .cmplt d a b => EncodingMatchesRow.cmplt d a b
  | .cmov d a b => EncodingMatchesRow.cmov d a b
  | .shl d a k => EncodingMatchesRow.shl d a k
  | .shr d a k => EncodingMatchesRow.shr d a k
  | .getbit d a k => EncodingMatchesRow.getbit d a k
  | .addmod d a b n => EncodingMatchesRow.addmod d a b n
  | .submod d a b n => EncodingMatchesRow.submod d a b n
  | .modred d a b n => EncodingMatchesRow.modred d a b n
  | .divmod d e a n => EncodingMatchesRow.divmod d e a n
  | .modexp d a b n => EncodingMatchesRow.modexp d a b n
  | .modinv d a n => EncodingMatchesRow.modinv d a n
  | .montsetup d n => EncodingMatchesRow.montsetup d n
  | .montmul d a b n e => EncodingMatchesRow.montmul d a b n e
  | .tomont d a n => EncodingMatchesRow.tomont d a n
  | .frommont d a n e => EncodingMatchesRow.frommont d a n e
  | .pinf d => EncodingMatchesRow.pinf d
  | .pmov d a => EncodingMatchesRow.pmov d a
  | .pneg d a => EncodingMatchesRow.pneg d a
  | .pdbl d a => EncodingMatchesRow.pdbl d a
  | .padd d a b => EncodingMatchesRow.padd d a b
  | .pmul d a b => EncodingMatchesRow.pmul d a b
  | .paff d a => EncodingMatchesRow.paff d a
  | .pvalid a => EncodingMatchesRow.pvalid a
  | .aeskey => EncodingMatchesRow.aeskey
  | .aesenc => EncodingMatchesRow.aesenc
  | .aesdec => EncodingMatchesRow.aesdec
  | .aeser r => EncodingMatchesRow.aeser r
  | .aesdr r => EncodingMatchesRow.aesdr r
  | .ccmseal => EncodingMatchesRow.ccmseal
  | .ccmopen => EncodingMatchesRow.ccmopen

end Sys2Proof.Laws.EncodingMatchesRow
end

