-- ==== Sys2Proof/Laws/State.lean ====
section
/-! SUPPORT. One lemma per field (and per view) of the state after each shared update. -/

namespace Sys2Proof.Machine

/-! ### The state after writing a slot -/

@[simp] theorem setSlot_config (s : State) (d : Slot) (v : Nat) : (s.setSlot d v).config = s.config := rfl
@[simp] theorem setSlot_pending (s : State) (d : Slot) (v : Nat) : (s.setSlot d v).pending = s.pending := rfl
@[simp] theorem setSlot_cmd (s : State) (d : Slot) (v : Nat) : (s.setSlot d v).cmd = s.cmd := rfl
@[simp] theorem setSlot_lastOp (s : State) (d : Slot) (v : Nat) : (s.setSlot d v).lastOp = s.lastOp := rfl
@[simp] theorem setSlot_err (s : State) (d : Slot) (v : Nat) : (s.setSlot d v).err = s.err := rfl
@[simp] theorem setSlot_errCode (s : State) (d : Slot) (v : Nat) : (s.setSlot d v).errCode = s.errCode := rfl
@[simp] theorem setSlot_flags (s : State) (d : Slot) (v : Nat) : (s.setSlot d v).flags = s.flags := rfl
@[simp] theorem setSlot_irqEn (s : State) (d : Slot) (v : Nat) : (s.setSlot d v).irqEn = s.irqEn := rfl
@[simp] theorem setSlot_irqStatus (s : State) (d : Slot) (v : Nat) : (s.setSlot d v).irqStatus = s.irqStatus := rfl
@[simp] theorem setSlot_ccmCfg (s : State) (d : Slot) (v : Nat) : (s.setSlot d v).ccmCfg = s.ccmCfg := rfl
@[simp] theorem setSlot_ccmAlen (s : State) (d : Slot) (v : Nat) : (s.setSlot d v).ccmAlen = s.ccmAlen := rfl
@[simp] theorem setSlot_ccmPlen (s : State) (d : Slot) (v : Nat) : (s.setSlot d v).ccmPlen = s.ccmPlen := rfl
@[simp] theorem setSlot_aesKey (s : State) (d : Slot) (v : Nat) : (s.setSlot d v).aesKey = s.aesKey := rfl
@[simp] theorem setSlot_aesData (s : State) (d : Slot) (v : Nat) : (s.setSlot d v).aesData = s.aesData := rfl
@[simp] theorem setSlot_nonce (s : State) (d : Slot) (v : Nat) : (s.setSlot d v).nonce = s.nonce := rfl
@[simp] theorem setSlot_tag (s : State) (d : Slot) (v : Nat) : (s.setSlot d v).tag = s.tag := rfl
@[simp] theorem setSlot_lastNonce (s : State) (d : Slot) (v : Nat) : (s.setSlot d v).lastNonce = s.lastNonce := rfl
@[simp] theorem setSlot_slots (s : State) (d : Slot) (v : Nat) : (s.setSlot d v).slots = s.slots.set d (wideOf s.config v) := rfl
@[simp] theorem setSlot_points (s : State) (d : Slot) (v : Nat) : (s.setSlot d v).points = s.points := rfl
@[simp] theorem setSlot_cp (s : State) (d : Slot) (v : Nat) : (s.setSlot d v).cp = s.cp := rfl
@[simp] theorem setSlot_ca (s : State) (d : Slot) (v : Nat) : (s.setSlot d v).ca = s.ca := rfl
@[simp] theorem setSlot_cb (s : State) (d : Slot) (v : Nat) : (s.setSlot d v).cb = s.cb := rfl
@[simp] theorem setSlot_msgbuf (s : State) (d : Slot) (v : Nat) : (s.setSlot d v).msgbuf = s.msgbuf := rfl
@[simp] theorem setSlot_rk (s : State) (d : Slot) (v : Nat) : (s.setSlot d v).rk = s.rk := rfl
@[simp] theorem setSlot_keyValid (s : State) (d : Slot) (v : Nat) : (s.setSlot d v).keyValid = s.keyValid := rfl
@[simp] theorem setSlot_lnv (s : State) (d : Slot) (v : Nat) : (s.setSlot d v).lnv = s.lnv := rfl
@[simp] theorem setSlot_schedule (s : State) (d : Slot) (v : Nat) : (s.setSlot d v).schedule = s.schedule := rfl
@[simp] theorem setSlot_response (s : State) (d : Slot) (v : Nat) : (s.setSlot d v).response = s.response := rfl
@[simp] theorem setSlot_width (s : State) (d : Slot) (v : Nat) : (s.setSlot d v).width = s.width := rfl
@[simp] theorem setSlot_radix (s : State) (d : Slot) (v : Nat) : (s.setSlot d v).radix = s.radix := rfl
@[simp] theorem setSlot_point (s : State) (d : Slot) (v : Nat) (i : PointIx) : (s.setSlot d v).point i = s.point i := rfl
@[simp] theorem setSlot_curveP (s : State) (d : Slot) (v : Nat) : (s.setSlot d v).curveP = s.curveP := rfl
@[simp] theorem setSlot_curveA (s : State) (d : Slot) (v : Nat) : (s.setSlot d v).curveA = s.curveA := rfl
@[simp] theorem setSlot_curveB (s : State) (d : Slot) (v : Nat) : (s.setSlot d v).curveB = s.curveB := rfl
@[simp] theorem setSlot_curveOk (s : State) (d : Slot) (v : Nat) : (s.setSlot d v).curveOk = s.curveOk := rfl

/-! ### The state after writing a point register -/

@[simp] theorem setPoint_config (s : State) (d : PointIx) (P : Triple) : (s.setPoint d P).config = s.config := rfl
@[simp] theorem setPoint_pending (s : State) (d : PointIx) (P : Triple) : (s.setPoint d P).pending = s.pending := rfl
@[simp] theorem setPoint_cmd (s : State) (d : PointIx) (P : Triple) : (s.setPoint d P).cmd = s.cmd := rfl
@[simp] theorem setPoint_lastOp (s : State) (d : PointIx) (P : Triple) : (s.setPoint d P).lastOp = s.lastOp := rfl
@[simp] theorem setPoint_err (s : State) (d : PointIx) (P : Triple) : (s.setPoint d P).err = s.err := rfl
@[simp] theorem setPoint_errCode (s : State) (d : PointIx) (P : Triple) : (s.setPoint d P).errCode = s.errCode := rfl
@[simp] theorem setPoint_flags (s : State) (d : PointIx) (P : Triple) : (s.setPoint d P).flags = s.flags := rfl
@[simp] theorem setPoint_irqEn (s : State) (d : PointIx) (P : Triple) : (s.setPoint d P).irqEn = s.irqEn := rfl
@[simp] theorem setPoint_irqStatus (s : State) (d : PointIx) (P : Triple) : (s.setPoint d P).irqStatus = s.irqStatus := rfl
@[simp] theorem setPoint_ccmCfg (s : State) (d : PointIx) (P : Triple) : (s.setPoint d P).ccmCfg = s.ccmCfg := rfl
@[simp] theorem setPoint_ccmAlen (s : State) (d : PointIx) (P : Triple) : (s.setPoint d P).ccmAlen = s.ccmAlen := rfl
@[simp] theorem setPoint_ccmPlen (s : State) (d : PointIx) (P : Triple) : (s.setPoint d P).ccmPlen = s.ccmPlen := rfl
@[simp] theorem setPoint_aesKey (s : State) (d : PointIx) (P : Triple) : (s.setPoint d P).aesKey = s.aesKey := rfl
@[simp] theorem setPoint_aesData (s : State) (d : PointIx) (P : Triple) : (s.setPoint d P).aesData = s.aesData := rfl
@[simp] theorem setPoint_nonce (s : State) (d : PointIx) (P : Triple) : (s.setPoint d P).nonce = s.nonce := rfl
@[simp] theorem setPoint_tag (s : State) (d : PointIx) (P : Triple) : (s.setPoint d P).tag = s.tag := rfl
@[simp] theorem setPoint_lastNonce (s : State) (d : PointIx) (P : Triple) : (s.setPoint d P).lastNonce = s.lastNonce := rfl
@[simp] theorem setPoint_slots (s : State) (d : PointIx) (P : Triple) : (s.setPoint d P).slots = s.slots := rfl
@[simp] theorem setPoint_points (s : State) (d : PointIx) (P : Triple) : (s.setPoint d P).points = s.points.set d (pointRegOf s.config P) := rfl
@[simp] theorem setPoint_cp (s : State) (d : PointIx) (P : Triple) : (s.setPoint d P).cp = s.cp := rfl
@[simp] theorem setPoint_ca (s : State) (d : PointIx) (P : Triple) : (s.setPoint d P).ca = s.ca := rfl
@[simp] theorem setPoint_cb (s : State) (d : PointIx) (P : Triple) : (s.setPoint d P).cb = s.cb := rfl
@[simp] theorem setPoint_msgbuf (s : State) (d : PointIx) (P : Triple) : (s.setPoint d P).msgbuf = s.msgbuf := rfl
@[simp] theorem setPoint_rk (s : State) (d : PointIx) (P : Triple) : (s.setPoint d P).rk = s.rk := rfl
@[simp] theorem setPoint_keyValid (s : State) (d : PointIx) (P : Triple) : (s.setPoint d P).keyValid = s.keyValid := rfl
@[simp] theorem setPoint_lnv (s : State) (d : PointIx) (P : Triple) : (s.setPoint d P).lnv = s.lnv := rfl
@[simp] theorem setPoint_schedule (s : State) (d : PointIx) (P : Triple) : (s.setPoint d P).schedule = s.schedule := rfl
@[simp] theorem setPoint_response (s : State) (d : PointIx) (P : Triple) : (s.setPoint d P).response = s.response := rfl
@[simp] theorem setPoint_width (s : State) (d : PointIx) (P : Triple) : (s.setPoint d P).width = s.width := rfl
@[simp] theorem setPoint_radix (s : State) (d : PointIx) (P : Triple) : (s.setPoint d P).radix = s.radix := rfl
@[simp] theorem setPoint_slot (s : State) (d : PointIx) (P : Triple) (i : Slot) : (s.setPoint d P).slot i = s.slot i := rfl
@[simp] theorem setPoint_curveP (s : State) (d : PointIx) (P : Triple) : (s.setPoint d P).curveP = s.curveP := rfl
@[simp] theorem setPoint_curveA (s : State) (d : PointIx) (P : Triple) : (s.setPoint d P).curveA = s.curveA := rfl
@[simp] theorem setPoint_curveB (s : State) (d : PointIx) (P : Triple) : (s.setPoint d P).curveB = s.curveB := rfl
@[simp] theorem setPoint_curveOk (s : State) (d : PointIx) (P : Triple) : (s.setPoint d P).curveOk = s.curveOk := rfl

/-! ### The state after writing CARRY -/

@[simp] theorem setCarry_config (s : State) (b : Bool) : (s.setCarry b).config = s.config := rfl
@[simp] theorem setCarry_pending (s : State) (b : Bool) : (s.setCarry b).pending = s.pending := rfl
@[simp] theorem setCarry_cmd (s : State) (b : Bool) : (s.setCarry b).cmd = s.cmd := rfl
@[simp] theorem setCarry_lastOp (s : State) (b : Bool) : (s.setCarry b).lastOp = s.lastOp := rfl
@[simp] theorem setCarry_err (s : State) (b : Bool) : (s.setCarry b).err = s.err := rfl
@[simp] theorem setCarry_errCode (s : State) (b : Bool) : (s.setCarry b).errCode = s.errCode := rfl
@[simp] theorem setCarry_flags (s : State) (b : Bool) : (s.setCarry b).flags = { s.flags with carry := b } := rfl
@[simp] theorem setCarry_irqEn (s : State) (b : Bool) : (s.setCarry b).irqEn = s.irqEn := rfl
@[simp] theorem setCarry_irqStatus (s : State) (b : Bool) : (s.setCarry b).irqStatus = s.irqStatus := rfl
@[simp] theorem setCarry_ccmCfg (s : State) (b : Bool) : (s.setCarry b).ccmCfg = s.ccmCfg := rfl
@[simp] theorem setCarry_ccmAlen (s : State) (b : Bool) : (s.setCarry b).ccmAlen = s.ccmAlen := rfl
@[simp] theorem setCarry_ccmPlen (s : State) (b : Bool) : (s.setCarry b).ccmPlen = s.ccmPlen := rfl
@[simp] theorem setCarry_aesKey (s : State) (b : Bool) : (s.setCarry b).aesKey = s.aesKey := rfl
@[simp] theorem setCarry_aesData (s : State) (b : Bool) : (s.setCarry b).aesData = s.aesData := rfl
@[simp] theorem setCarry_nonce (s : State) (b : Bool) : (s.setCarry b).nonce = s.nonce := rfl
@[simp] theorem setCarry_tag (s : State) (b : Bool) : (s.setCarry b).tag = s.tag := rfl
@[simp] theorem setCarry_lastNonce (s : State) (b : Bool) : (s.setCarry b).lastNonce = s.lastNonce := rfl
@[simp] theorem setCarry_slots (s : State) (b : Bool) : (s.setCarry b).slots = s.slots := rfl
@[simp] theorem setCarry_points (s : State) (b : Bool) : (s.setCarry b).points = s.points := rfl
@[simp] theorem setCarry_cp (s : State) (b : Bool) : (s.setCarry b).cp = s.cp := rfl
@[simp] theorem setCarry_ca (s : State) (b : Bool) : (s.setCarry b).ca = s.ca := rfl
@[simp] theorem setCarry_cb (s : State) (b : Bool) : (s.setCarry b).cb = s.cb := rfl
@[simp] theorem setCarry_msgbuf (s : State) (b : Bool) : (s.setCarry b).msgbuf = s.msgbuf := rfl
@[simp] theorem setCarry_rk (s : State) (b : Bool) : (s.setCarry b).rk = s.rk := rfl
@[simp] theorem setCarry_keyValid (s : State) (b : Bool) : (s.setCarry b).keyValid = s.keyValid := rfl
@[simp] theorem setCarry_lnv (s : State) (b : Bool) : (s.setCarry b).lnv = s.lnv := rfl
@[simp] theorem setCarry_schedule (s : State) (b : Bool) : (s.setCarry b).schedule = s.schedule := rfl
@[simp] theorem setCarry_response (s : State) (b : Bool) : (s.setCarry b).response = s.response := rfl
@[simp] theorem setCarry_width (s : State) (b : Bool) : (s.setCarry b).width = s.width := rfl
@[simp] theorem setCarry_radix (s : State) (b : Bool) : (s.setCarry b).radix = s.radix := rfl
@[simp] theorem setCarry_slot (s : State) (b : Bool) (i : Slot) : (s.setCarry b).slot i = s.slot i := rfl
@[simp] theorem setCarry_point (s : State) (b : Bool) (i : PointIx) : (s.setCarry b).point i = s.point i := rfl
@[simp] theorem setCarry_curveP (s : State) (b : Bool) : (s.setCarry b).curveP = s.curveP := rfl
@[simp] theorem setCarry_curveA (s : State) (b : Bool) : (s.setCarry b).curveA = s.curveA := rfl
@[simp] theorem setCarry_curveB (s : State) (b : Bool) : (s.setCarry b).curveB = s.curveB := rfl
@[simp] theorem setCarry_curveOk (s : State) (b : Bool) : (s.setCarry b).curveOk = s.curveOk := rfl

/-! ### The state after writing BIT -/

@[simp] theorem setBit_config (s : State) (b : Bool) : (s.setBit b).config = s.config := rfl
@[simp] theorem setBit_pending (s : State) (b : Bool) : (s.setBit b).pending = s.pending := rfl
@[simp] theorem setBit_cmd (s : State) (b : Bool) : (s.setBit b).cmd = s.cmd := rfl
@[simp] theorem setBit_lastOp (s : State) (b : Bool) : (s.setBit b).lastOp = s.lastOp := rfl
@[simp] theorem setBit_err (s : State) (b : Bool) : (s.setBit b).err = s.err := rfl
@[simp] theorem setBit_errCode (s : State) (b : Bool) : (s.setBit b).errCode = s.errCode := rfl
@[simp] theorem setBit_flags (s : State) (b : Bool) : (s.setBit b).flags = { s.flags with bit := b } := rfl
@[simp] theorem setBit_irqEn (s : State) (b : Bool) : (s.setBit b).irqEn = s.irqEn := rfl
@[simp] theorem setBit_irqStatus (s : State) (b : Bool) : (s.setBit b).irqStatus = s.irqStatus := rfl
@[simp] theorem setBit_ccmCfg (s : State) (b : Bool) : (s.setBit b).ccmCfg = s.ccmCfg := rfl
@[simp] theorem setBit_ccmAlen (s : State) (b : Bool) : (s.setBit b).ccmAlen = s.ccmAlen := rfl
@[simp] theorem setBit_ccmPlen (s : State) (b : Bool) : (s.setBit b).ccmPlen = s.ccmPlen := rfl
@[simp] theorem setBit_aesKey (s : State) (b : Bool) : (s.setBit b).aesKey = s.aesKey := rfl
@[simp] theorem setBit_aesData (s : State) (b : Bool) : (s.setBit b).aesData = s.aesData := rfl
@[simp] theorem setBit_nonce (s : State) (b : Bool) : (s.setBit b).nonce = s.nonce := rfl
@[simp] theorem setBit_tag (s : State) (b : Bool) : (s.setBit b).tag = s.tag := rfl
@[simp] theorem setBit_lastNonce (s : State) (b : Bool) : (s.setBit b).lastNonce = s.lastNonce := rfl
@[simp] theorem setBit_slots (s : State) (b : Bool) : (s.setBit b).slots = s.slots := rfl
@[simp] theorem setBit_points (s : State) (b : Bool) : (s.setBit b).points = s.points := rfl
@[simp] theorem setBit_cp (s : State) (b : Bool) : (s.setBit b).cp = s.cp := rfl
@[simp] theorem setBit_ca (s : State) (b : Bool) : (s.setBit b).ca = s.ca := rfl
@[simp] theorem setBit_cb (s : State) (b : Bool) : (s.setBit b).cb = s.cb := rfl
@[simp] theorem setBit_msgbuf (s : State) (b : Bool) : (s.setBit b).msgbuf = s.msgbuf := rfl
@[simp] theorem setBit_rk (s : State) (b : Bool) : (s.setBit b).rk = s.rk := rfl
@[simp] theorem setBit_keyValid (s : State) (b : Bool) : (s.setBit b).keyValid = s.keyValid := rfl
@[simp] theorem setBit_lnv (s : State) (b : Bool) : (s.setBit b).lnv = s.lnv := rfl
@[simp] theorem setBit_schedule (s : State) (b : Bool) : (s.setBit b).schedule = s.schedule := rfl
@[simp] theorem setBit_response (s : State) (b : Bool) : (s.setBit b).response = s.response := rfl
@[simp] theorem setBit_width (s : State) (b : Bool) : (s.setBit b).width = s.width := rfl
@[simp] theorem setBit_radix (s : State) (b : Bool) : (s.setBit b).radix = s.radix := rfl
@[simp] theorem setBit_slot (s : State) (b : Bool) (i : Slot) : (s.setBit b).slot i = s.slot i := rfl
@[simp] theorem setBit_point (s : State) (b : Bool) (i : PointIx) : (s.setBit b).point i = s.point i := rfl
@[simp] theorem setBit_curveP (s : State) (b : Bool) : (s.setBit b).curveP = s.curveP := rfl
@[simp] theorem setBit_curveA (s : State) (b : Bool) : (s.setBit b).curveA = s.curveA := rfl
@[simp] theorem setBit_curveB (s : State) (b : Bool) : (s.setBit b).curveB = s.curveB := rfl
@[simp] theorem setBit_curveOk (s : State) (b : Bool) : (s.setBit b).curveOk = s.curveOk := rfl

/-! ### The state after writing CMP -/

@[simp] theorem setCmp_config (s : State) (b : Bool) : (s.setCmp b).config = s.config := rfl
@[simp] theorem setCmp_pending (s : State) (b : Bool) : (s.setCmp b).pending = s.pending := rfl
@[simp] theorem setCmp_cmd (s : State) (b : Bool) : (s.setCmp b).cmd = s.cmd := rfl
@[simp] theorem setCmp_lastOp (s : State) (b : Bool) : (s.setCmp b).lastOp = s.lastOp := rfl
@[simp] theorem setCmp_err (s : State) (b : Bool) : (s.setCmp b).err = s.err := rfl
@[simp] theorem setCmp_errCode (s : State) (b : Bool) : (s.setCmp b).errCode = s.errCode := rfl
@[simp] theorem setCmp_flags (s : State) (b : Bool) : (s.setCmp b).flags = { s.flags with cmp := b } := rfl
@[simp] theorem setCmp_irqEn (s : State) (b : Bool) : (s.setCmp b).irqEn = s.irqEn := rfl
@[simp] theorem setCmp_irqStatus (s : State) (b : Bool) : (s.setCmp b).irqStatus = s.irqStatus := rfl
@[simp] theorem setCmp_ccmCfg (s : State) (b : Bool) : (s.setCmp b).ccmCfg = s.ccmCfg := rfl
@[simp] theorem setCmp_ccmAlen (s : State) (b : Bool) : (s.setCmp b).ccmAlen = s.ccmAlen := rfl
@[simp] theorem setCmp_ccmPlen (s : State) (b : Bool) : (s.setCmp b).ccmPlen = s.ccmPlen := rfl
@[simp] theorem setCmp_aesKey (s : State) (b : Bool) : (s.setCmp b).aesKey = s.aesKey := rfl
@[simp] theorem setCmp_aesData (s : State) (b : Bool) : (s.setCmp b).aesData = s.aesData := rfl
@[simp] theorem setCmp_nonce (s : State) (b : Bool) : (s.setCmp b).nonce = s.nonce := rfl
@[simp] theorem setCmp_tag (s : State) (b : Bool) : (s.setCmp b).tag = s.tag := rfl
@[simp] theorem setCmp_lastNonce (s : State) (b : Bool) : (s.setCmp b).lastNonce = s.lastNonce := rfl
@[simp] theorem setCmp_slots (s : State) (b : Bool) : (s.setCmp b).slots = s.slots := rfl
@[simp] theorem setCmp_points (s : State) (b : Bool) : (s.setCmp b).points = s.points := rfl
@[simp] theorem setCmp_cp (s : State) (b : Bool) : (s.setCmp b).cp = s.cp := rfl
@[simp] theorem setCmp_ca (s : State) (b : Bool) : (s.setCmp b).ca = s.ca := rfl
@[simp] theorem setCmp_cb (s : State) (b : Bool) : (s.setCmp b).cb = s.cb := rfl
@[simp] theorem setCmp_msgbuf (s : State) (b : Bool) : (s.setCmp b).msgbuf = s.msgbuf := rfl
@[simp] theorem setCmp_rk (s : State) (b : Bool) : (s.setCmp b).rk = s.rk := rfl
@[simp] theorem setCmp_keyValid (s : State) (b : Bool) : (s.setCmp b).keyValid = s.keyValid := rfl
@[simp] theorem setCmp_lnv (s : State) (b : Bool) : (s.setCmp b).lnv = s.lnv := rfl
@[simp] theorem setCmp_schedule (s : State) (b : Bool) : (s.setCmp b).schedule = s.schedule := rfl
@[simp] theorem setCmp_response (s : State) (b : Bool) : (s.setCmp b).response = s.response := rfl
@[simp] theorem setCmp_width (s : State) (b : Bool) : (s.setCmp b).width = s.width := rfl
@[simp] theorem setCmp_radix (s : State) (b : Bool) : (s.setCmp b).radix = s.radix := rfl
@[simp] theorem setCmp_slot (s : State) (b : Bool) (i : Slot) : (s.setCmp b).slot i = s.slot i := rfl
@[simp] theorem setCmp_point (s : State) (b : Bool) (i : PointIx) : (s.setCmp b).point i = s.point i := rfl
@[simp] theorem setCmp_curveP (s : State) (b : Bool) : (s.setCmp b).curveP = s.curveP := rfl
@[simp] theorem setCmp_curveA (s : State) (b : Bool) : (s.setCmp b).curveA = s.curveA := rfl
@[simp] theorem setCmp_curveB (s : State) (b : Bool) : (s.setCmp b).curveB = s.curveB := rfl
@[simp] theorem setCmp_curveOk (s : State) (b : Bool) : (s.setCmp b).curveOk = s.curveOk := rfl

/-! ### The state after writing INF -/

@[simp] theorem setInf_config (s : State) (b : Bool) : (s.setInf b).config = s.config := rfl
@[simp] theorem setInf_pending (s : State) (b : Bool) : (s.setInf b).pending = s.pending := rfl
@[simp] theorem setInf_cmd (s : State) (b : Bool) : (s.setInf b).cmd = s.cmd := rfl
@[simp] theorem setInf_lastOp (s : State) (b : Bool) : (s.setInf b).lastOp = s.lastOp := rfl
@[simp] theorem setInf_err (s : State) (b : Bool) : (s.setInf b).err = s.err := rfl
@[simp] theorem setInf_errCode (s : State) (b : Bool) : (s.setInf b).errCode = s.errCode := rfl
@[simp] theorem setInf_flags (s : State) (b : Bool) : (s.setInf b).flags = { s.flags with inf := b } := rfl
@[simp] theorem setInf_irqEn (s : State) (b : Bool) : (s.setInf b).irqEn = s.irqEn := rfl
@[simp] theorem setInf_irqStatus (s : State) (b : Bool) : (s.setInf b).irqStatus = s.irqStatus := rfl
@[simp] theorem setInf_ccmCfg (s : State) (b : Bool) : (s.setInf b).ccmCfg = s.ccmCfg := rfl
@[simp] theorem setInf_ccmAlen (s : State) (b : Bool) : (s.setInf b).ccmAlen = s.ccmAlen := rfl
@[simp] theorem setInf_ccmPlen (s : State) (b : Bool) : (s.setInf b).ccmPlen = s.ccmPlen := rfl
@[simp] theorem setInf_aesKey (s : State) (b : Bool) : (s.setInf b).aesKey = s.aesKey := rfl
@[simp] theorem setInf_aesData (s : State) (b : Bool) : (s.setInf b).aesData = s.aesData := rfl
@[simp] theorem setInf_nonce (s : State) (b : Bool) : (s.setInf b).nonce = s.nonce := rfl
@[simp] theorem setInf_tag (s : State) (b : Bool) : (s.setInf b).tag = s.tag := rfl
@[simp] theorem setInf_lastNonce (s : State) (b : Bool) : (s.setInf b).lastNonce = s.lastNonce := rfl
@[simp] theorem setInf_slots (s : State) (b : Bool) : (s.setInf b).slots = s.slots := rfl
@[simp] theorem setInf_points (s : State) (b : Bool) : (s.setInf b).points = s.points := rfl
@[simp] theorem setInf_cp (s : State) (b : Bool) : (s.setInf b).cp = s.cp := rfl
@[simp] theorem setInf_ca (s : State) (b : Bool) : (s.setInf b).ca = s.ca := rfl
@[simp] theorem setInf_cb (s : State) (b : Bool) : (s.setInf b).cb = s.cb := rfl
@[simp] theorem setInf_msgbuf (s : State) (b : Bool) : (s.setInf b).msgbuf = s.msgbuf := rfl
@[simp] theorem setInf_rk (s : State) (b : Bool) : (s.setInf b).rk = s.rk := rfl
@[simp] theorem setInf_keyValid (s : State) (b : Bool) : (s.setInf b).keyValid = s.keyValid := rfl
@[simp] theorem setInf_lnv (s : State) (b : Bool) : (s.setInf b).lnv = s.lnv := rfl
@[simp] theorem setInf_schedule (s : State) (b : Bool) : (s.setInf b).schedule = s.schedule := rfl
@[simp] theorem setInf_response (s : State) (b : Bool) : (s.setInf b).response = s.response := rfl
@[simp] theorem setInf_width (s : State) (b : Bool) : (s.setInf b).width = s.width := rfl
@[simp] theorem setInf_radix (s : State) (b : Bool) : (s.setInf b).radix = s.radix := rfl
@[simp] theorem setInf_slot (s : State) (b : Bool) (i : Slot) : (s.setInf b).slot i = s.slot i := rfl
@[simp] theorem setInf_point (s : State) (b : Bool) (i : PointIx) : (s.setInf b).point i = s.point i := rfl
@[simp] theorem setInf_curveP (s : State) (b : Bool) : (s.setInf b).curveP = s.curveP := rfl
@[simp] theorem setInf_curveA (s : State) (b : Bool) : (s.setInf b).curveA = s.curveA := rfl
@[simp] theorem setInf_curveB (s : State) (b : Bool) : (s.setInf b).curveB = s.curveB := rfl
@[simp] theorem setInf_curveOk (s : State) (b : Bool) : (s.setInf b).curveOk = s.curveOk := rfl

/-! ### The state after writing VALID -/

@[simp] theorem setValid_config (s : State) (b : Bool) : (s.setValid b).config = s.config := rfl
@[simp] theorem setValid_pending (s : State) (b : Bool) : (s.setValid b).pending = s.pending := rfl
@[simp] theorem setValid_cmd (s : State) (b : Bool) : (s.setValid b).cmd = s.cmd := rfl
@[simp] theorem setValid_lastOp (s : State) (b : Bool) : (s.setValid b).lastOp = s.lastOp := rfl
@[simp] theorem setValid_err (s : State) (b : Bool) : (s.setValid b).err = s.err := rfl
@[simp] theorem setValid_errCode (s : State) (b : Bool) : (s.setValid b).errCode = s.errCode := rfl
@[simp] theorem setValid_flags (s : State) (b : Bool) : (s.setValid b).flags = { s.flags with valid := b } := rfl
@[simp] theorem setValid_irqEn (s : State) (b : Bool) : (s.setValid b).irqEn = s.irqEn := rfl
@[simp] theorem setValid_irqStatus (s : State) (b : Bool) : (s.setValid b).irqStatus = s.irqStatus := rfl
@[simp] theorem setValid_ccmCfg (s : State) (b : Bool) : (s.setValid b).ccmCfg = s.ccmCfg := rfl
@[simp] theorem setValid_ccmAlen (s : State) (b : Bool) : (s.setValid b).ccmAlen = s.ccmAlen := rfl
@[simp] theorem setValid_ccmPlen (s : State) (b : Bool) : (s.setValid b).ccmPlen = s.ccmPlen := rfl
@[simp] theorem setValid_aesKey (s : State) (b : Bool) : (s.setValid b).aesKey = s.aesKey := rfl
@[simp] theorem setValid_aesData (s : State) (b : Bool) : (s.setValid b).aesData = s.aesData := rfl
@[simp] theorem setValid_nonce (s : State) (b : Bool) : (s.setValid b).nonce = s.nonce := rfl
@[simp] theorem setValid_tag (s : State) (b : Bool) : (s.setValid b).tag = s.tag := rfl
@[simp] theorem setValid_lastNonce (s : State) (b : Bool) : (s.setValid b).lastNonce = s.lastNonce := rfl
@[simp] theorem setValid_slots (s : State) (b : Bool) : (s.setValid b).slots = s.slots := rfl
@[simp] theorem setValid_points (s : State) (b : Bool) : (s.setValid b).points = s.points := rfl
@[simp] theorem setValid_cp (s : State) (b : Bool) : (s.setValid b).cp = s.cp := rfl
@[simp] theorem setValid_ca (s : State) (b : Bool) : (s.setValid b).ca = s.ca := rfl
@[simp] theorem setValid_cb (s : State) (b : Bool) : (s.setValid b).cb = s.cb := rfl
@[simp] theorem setValid_msgbuf (s : State) (b : Bool) : (s.setValid b).msgbuf = s.msgbuf := rfl
@[simp] theorem setValid_rk (s : State) (b : Bool) : (s.setValid b).rk = s.rk := rfl
@[simp] theorem setValid_keyValid (s : State) (b : Bool) : (s.setValid b).keyValid = s.keyValid := rfl
@[simp] theorem setValid_lnv (s : State) (b : Bool) : (s.setValid b).lnv = s.lnv := rfl
@[simp] theorem setValid_schedule (s : State) (b : Bool) : (s.setValid b).schedule = s.schedule := rfl
@[simp] theorem setValid_response (s : State) (b : Bool) : (s.setValid b).response = s.response := rfl
@[simp] theorem setValid_width (s : State) (b : Bool) : (s.setValid b).width = s.width := rfl
@[simp] theorem setValid_radix (s : State) (b : Bool) : (s.setValid b).radix = s.radix := rfl
@[simp] theorem setValid_slot (s : State) (b : Bool) (i : Slot) : (s.setValid b).slot i = s.slot i := rfl
@[simp] theorem setValid_point (s : State) (b : Bool) (i : PointIx) : (s.setValid b).point i = s.point i := rfl
@[simp] theorem setValid_curveP (s : State) (b : Bool) : (s.setValid b).curveP = s.curveP := rfl
@[simp] theorem setValid_curveA (s : State) (b : Bool) : (s.setValid b).curveA = s.curveA := rfl
@[simp] theorem setValid_curveB (s : State) (b : Bool) : (s.setValid b).curveB = s.curveB := rfl
@[simp] theorem setValid_curveOk (s : State) (b : Bool) : (s.setValid b).curveOk = s.curveOk := rfl

/-! ### The state after writing a point result -/

@[simp] theorem writePoint_config (s : State) (d : PointIx) (P : Triple) : (writePoint d P s).config = s.config := rfl
@[simp] theorem writePoint_pending (s : State) (d : PointIx) (P : Triple) : (writePoint d P s).pending = s.pending := rfl
@[simp] theorem writePoint_cmd (s : State) (d : PointIx) (P : Triple) : (writePoint d P s).cmd = s.cmd := rfl
@[simp] theorem writePoint_lastOp (s : State) (d : PointIx) (P : Triple) : (writePoint d P s).lastOp = s.lastOp := rfl
@[simp] theorem writePoint_err (s : State) (d : PointIx) (P : Triple) : (writePoint d P s).err = s.err := rfl
@[simp] theorem writePoint_errCode (s : State) (d : PointIx) (P : Triple) : (writePoint d P s).errCode = s.errCode := rfl
@[simp] theorem writePoint_flags (s : State) (d : PointIx) (P : Triple) : (writePoint d P s).flags = { s.flags with inf := infOf P } := rfl
@[simp] theorem writePoint_irqEn (s : State) (d : PointIx) (P : Triple) : (writePoint d P s).irqEn = s.irqEn := rfl
@[simp] theorem writePoint_irqStatus (s : State) (d : PointIx) (P : Triple) : (writePoint d P s).irqStatus = s.irqStatus := rfl
@[simp] theorem writePoint_ccmCfg (s : State) (d : PointIx) (P : Triple) : (writePoint d P s).ccmCfg = s.ccmCfg := rfl
@[simp] theorem writePoint_ccmAlen (s : State) (d : PointIx) (P : Triple) : (writePoint d P s).ccmAlen = s.ccmAlen := rfl
@[simp] theorem writePoint_ccmPlen (s : State) (d : PointIx) (P : Triple) : (writePoint d P s).ccmPlen = s.ccmPlen := rfl
@[simp] theorem writePoint_aesKey (s : State) (d : PointIx) (P : Triple) : (writePoint d P s).aesKey = s.aesKey := rfl
@[simp] theorem writePoint_aesData (s : State) (d : PointIx) (P : Triple) : (writePoint d P s).aesData = s.aesData := rfl
@[simp] theorem writePoint_nonce (s : State) (d : PointIx) (P : Triple) : (writePoint d P s).nonce = s.nonce := rfl
@[simp] theorem writePoint_tag (s : State) (d : PointIx) (P : Triple) : (writePoint d P s).tag = s.tag := rfl
@[simp] theorem writePoint_lastNonce (s : State) (d : PointIx) (P : Triple) : (writePoint d P s).lastNonce = s.lastNonce := rfl
@[simp] theorem writePoint_slots (s : State) (d : PointIx) (P : Triple) : (writePoint d P s).slots = s.slots := rfl
@[simp] theorem writePoint_points (s : State) (d : PointIx) (P : Triple) : (writePoint d P s).points = s.points.set d (pointRegOf s.config P) := rfl
@[simp] theorem writePoint_cp (s : State) (d : PointIx) (P : Triple) : (writePoint d P s).cp = s.cp := rfl
@[simp] theorem writePoint_ca (s : State) (d : PointIx) (P : Triple) : (writePoint d P s).ca = s.ca := rfl
@[simp] theorem writePoint_cb (s : State) (d : PointIx) (P : Triple) : (writePoint d P s).cb = s.cb := rfl
@[simp] theorem writePoint_msgbuf (s : State) (d : PointIx) (P : Triple) : (writePoint d P s).msgbuf = s.msgbuf := rfl
@[simp] theorem writePoint_rk (s : State) (d : PointIx) (P : Triple) : (writePoint d P s).rk = s.rk := rfl
@[simp] theorem writePoint_keyValid (s : State) (d : PointIx) (P : Triple) : (writePoint d P s).keyValid = s.keyValid := rfl
@[simp] theorem writePoint_lnv (s : State) (d : PointIx) (P : Triple) : (writePoint d P s).lnv = s.lnv := rfl
@[simp] theorem writePoint_schedule (s : State) (d : PointIx) (P : Triple) : (writePoint d P s).schedule = s.schedule := rfl
@[simp] theorem writePoint_response (s : State) (d : PointIx) (P : Triple) : (writePoint d P s).response = s.response := rfl
@[simp] theorem writePoint_width (s : State) (d : PointIx) (P : Triple) : (writePoint d P s).width = s.width := rfl
@[simp] theorem writePoint_radix (s : State) (d : PointIx) (P : Triple) : (writePoint d P s).radix = s.radix := rfl
@[simp] theorem writePoint_slot (s : State) (d : PointIx) (P : Triple) (i : Slot) : (writePoint d P s).slot i = s.slot i := rfl
@[simp] theorem writePoint_curveP (s : State) (d : PointIx) (P : Triple) : (writePoint d P s).curveP = s.curveP := rfl
@[simp] theorem writePoint_curveA (s : State) (d : PointIx) (P : Triple) : (writePoint d P s).curveA = s.curveA := rfl
@[simp] theorem writePoint_curveB (s : State) (d : PointIx) (P : Triple) : (writePoint d P s).curveB = s.curveB := rfl
@[simp] theorem writePoint_curveOk (s : State) (d : PointIx) (P : Triple) : (writePoint d P s).curveOk = s.curveOk := rfl

/-! ### The state after completing -/

@[simp] theorem finish_config (s : State) (c : ErrorCode) : (finish c s).config = s.config := rfl
@[simp] theorem finish_pending (s : State) (c : ErrorCode) : (finish c s).pending = none := rfl
@[simp] theorem finish_cmd (s : State) (c : ErrorCode) : (finish c s).cmd = s.cmd := rfl
@[simp] theorem finish_lastOp (s : State) (c : ErrorCode) : (finish c s).lastOp = s.lastOp := rfl
@[simp] theorem finish_err (s : State) (c : ErrorCode) : (finish c s).err = (c != .ok) := rfl
@[simp] theorem finish_errCode (s : State) (c : ErrorCode) : (finish c s).errCode = c := rfl
@[simp] theorem finish_flags (s : State) (c : ErrorCode) : (finish c s).flags = s.flags := rfl
@[simp] theorem finish_irqEn (s : State) (c : ErrorCode) : (finish c s).irqEn = s.irqEn := rfl
@[simp] theorem finish_irqStatus (s : State) (c : ErrorCode) : (finish c s).irqStatus = { s.irqStatus with done := true, err := s.irqStatus.err || c != .ok } := rfl
@[simp] theorem finish_ccmCfg (s : State) (c : ErrorCode) : (finish c s).ccmCfg = s.ccmCfg := rfl
@[simp] theorem finish_ccmAlen (s : State) (c : ErrorCode) : (finish c s).ccmAlen = s.ccmAlen := rfl
@[simp] theorem finish_ccmPlen (s : State) (c : ErrorCode) : (finish c s).ccmPlen = s.ccmPlen := rfl
@[simp] theorem finish_aesKey (s : State) (c : ErrorCode) : (finish c s).aesKey = s.aesKey := rfl
@[simp] theorem finish_aesData (s : State) (c : ErrorCode) : (finish c s).aesData = s.aesData := rfl
@[simp] theorem finish_nonce (s : State) (c : ErrorCode) : (finish c s).nonce = s.nonce := rfl
@[simp] theorem finish_tag (s : State) (c : ErrorCode) : (finish c s).tag = s.tag := rfl
@[simp] theorem finish_lastNonce (s : State) (c : ErrorCode) : (finish c s).lastNonce = s.lastNonce := rfl
@[simp] theorem finish_slots (s : State) (c : ErrorCode) : (finish c s).slots = s.slots := rfl
@[simp] theorem finish_points (s : State) (c : ErrorCode) : (finish c s).points = s.points := rfl
@[simp] theorem finish_cp (s : State) (c : ErrorCode) : (finish c s).cp = s.cp := rfl
@[simp] theorem finish_ca (s : State) (c : ErrorCode) : (finish c s).ca = s.ca := rfl
@[simp] theorem finish_cb (s : State) (c : ErrorCode) : (finish c s).cb = s.cb := rfl
@[simp] theorem finish_msgbuf (s : State) (c : ErrorCode) : (finish c s).msgbuf = s.msgbuf := rfl
@[simp] theorem finish_rk (s : State) (c : ErrorCode) : (finish c s).rk = s.rk := rfl
@[simp] theorem finish_keyValid (s : State) (c : ErrorCode) : (finish c s).keyValid = s.keyValid := rfl
@[simp] theorem finish_lnv (s : State) (c : ErrorCode) : (finish c s).lnv = s.lnv := rfl
@[simp] theorem finish_schedule (s : State) (c : ErrorCode) : (finish c s).schedule = s.schedule := rfl
@[simp] theorem finish_response (s : State) (c : ErrorCode) : (finish c s).response = s.response := rfl
@[simp] theorem finish_width (s : State) (c : ErrorCode) : (finish c s).width = s.width := rfl
@[simp] theorem finish_radix (s : State) (c : ErrorCode) : (finish c s).radix = s.radix := rfl
@[simp] theorem finish_slot (s : State) (c : ErrorCode) (i : Slot) : (finish c s).slot i = s.slot i := rfl
@[simp] theorem finish_point (s : State) (c : ErrorCode) (i : PointIx) : (finish c s).point i = s.point i := rfl
@[simp] theorem finish_curveP (s : State) (c : ErrorCode) : (finish c s).curveP = s.curveP := rfl
@[simp] theorem finish_curveA (s : State) (c : ErrorCode) : (finish c s).curveA = s.curveA := rfl
@[simp] theorem finish_curveB (s : State) (c : ErrorCode) : (finish c s).curveB = s.curveB := rfl
@[simp] theorem finish_curveOk (s : State) (c : ErrorCode) : (finish c s).curveOk = s.curveOk := rfl

/-! ### The state after accepting -/

@[simp] theorem accept_config (s : State) (w : Word) : (accept w s).config = s.config := rfl
@[simp] theorem accept_pending (s : State) (w : Word) : (accept w s).pending = some w := rfl
@[simp] theorem accept_cmd (s : State) (w : Word) : (accept w s).cmd = w := rfl
@[simp] theorem accept_lastOp (s : State) (w : Word) : (accept w s).lastOp = w.extractLsb' 0 8 := rfl
@[simp] theorem accept_err (s : State) (w : Word) : (accept w s).err = false := rfl
@[simp] theorem accept_errCode (s : State) (w : Word) : (accept w s).errCode = .ok := rfl
@[simp] theorem accept_flags (s : State) (w : Word) : (accept w s).flags = s.flags := rfl
@[simp] theorem accept_irqEn (s : State) (w : Word) : (accept w s).irqEn = s.irqEn := rfl
@[simp] theorem accept_irqStatus (s : State) (w : Word) : (accept w s).irqStatus = s.irqStatus := rfl
@[simp] theorem accept_ccmCfg (s : State) (w : Word) : (accept w s).ccmCfg = s.ccmCfg := rfl
@[simp] theorem accept_ccmAlen (s : State) (w : Word) : (accept w s).ccmAlen = s.ccmAlen := rfl
@[simp] theorem accept_ccmPlen (s : State) (w : Word) : (accept w s).ccmPlen = s.ccmPlen := rfl
@[simp] theorem accept_aesKey (s : State) (w : Word) : (accept w s).aesKey = s.aesKey := rfl
@[simp] theorem accept_aesData (s : State) (w : Word) : (accept w s).aesData = s.aesData := rfl
@[simp] theorem accept_nonce (s : State) (w : Word) : (accept w s).nonce = s.nonce := rfl
@[simp] theorem accept_tag (s : State) (w : Word) : (accept w s).tag = s.tag := rfl
@[simp] theorem accept_lastNonce (s : State) (w : Word) : (accept w s).lastNonce = s.lastNonce := rfl
@[simp] theorem accept_slots (s : State) (w : Word) : (accept w s).slots = s.slots := rfl
@[simp] theorem accept_points (s : State) (w : Word) : (accept w s).points = s.points := rfl
@[simp] theorem accept_cp (s : State) (w : Word) : (accept w s).cp = s.cp := rfl
@[simp] theorem accept_ca (s : State) (w : Word) : (accept w s).ca = s.ca := rfl
@[simp] theorem accept_cb (s : State) (w : Word) : (accept w s).cb = s.cb := rfl
@[simp] theorem accept_msgbuf (s : State) (w : Word) : (accept w s).msgbuf = s.msgbuf := rfl
@[simp] theorem accept_rk (s : State) (w : Word) : (accept w s).rk = s.rk := rfl
@[simp] theorem accept_keyValid (s : State) (w : Word) : (accept w s).keyValid = s.keyValid := rfl
@[simp] theorem accept_lnv (s : State) (w : Word) : (accept w s).lnv = s.lnv := rfl
@[simp] theorem accept_schedule (s : State) (w : Word) : (accept w s).schedule = s.schedule := rfl
@[simp] theorem accept_response (s : State) (w : Word) : (accept w s).response = s.response := rfl
@[simp] theorem accept_width (s : State) (w : Word) : (accept w s).width = s.width := rfl
@[simp] theorem accept_radix (s : State) (w : Word) : (accept w s).radix = s.radix := rfl
@[simp] theorem accept_slot (s : State) (w : Word) (i : Slot) : (accept w s).slot i = s.slot i := rfl
@[simp] theorem accept_point (s : State) (w : Word) (i : PointIx) : (accept w s).point i = s.point i := rfl
@[simp] theorem accept_curveP (s : State) (w : Word) : (accept w s).curveP = s.curveP := rfl
@[simp] theorem accept_curveA (s : State) (w : Word) : (accept w s).curveA = s.curveA := rfl
@[simp] theorem accept_curveB (s : State) (w : Word) : (accept w s).curveB = s.curveB := rfl
@[simp] theorem accept_curveOk (s : State) (w : Word) : (accept w s).curveOk = s.curveOk := rfl

/-! ### The state after an overrun -/

@[simp] theorem overrun_config (s : State) : (overrun s).config = s.config := rfl
@[simp] theorem overrun_pending (s : State) : (overrun s).pending = s.pending := rfl
@[simp] theorem overrun_cmd (s : State) : (overrun s).cmd = s.cmd := rfl
@[simp] theorem overrun_lastOp (s : State) : (overrun s).lastOp = s.lastOp := rfl
@[simp] theorem overrun_err (s : State) : (overrun s).err = s.err := rfl
@[simp] theorem overrun_errCode (s : State) : (overrun s).errCode = s.errCode := rfl
@[simp] theorem overrun_flags (s : State) : (overrun s).flags = s.flags := rfl
@[simp] theorem overrun_irqEn (s : State) : (overrun s).irqEn = s.irqEn := rfl
@[simp] theorem overrun_irqStatus (s : State) : (overrun s).irqStatus = { s.irqStatus with ovr := true } := rfl
@[simp] theorem overrun_ccmCfg (s : State) : (overrun s).ccmCfg = s.ccmCfg := rfl
@[simp] theorem overrun_ccmAlen (s : State) : (overrun s).ccmAlen = s.ccmAlen := rfl
@[simp] theorem overrun_ccmPlen (s : State) : (overrun s).ccmPlen = s.ccmPlen := rfl
@[simp] theorem overrun_aesKey (s : State) : (overrun s).aesKey = s.aesKey := rfl
@[simp] theorem overrun_aesData (s : State) : (overrun s).aesData = s.aesData := rfl
@[simp] theorem overrun_nonce (s : State) : (overrun s).nonce = s.nonce := rfl
@[simp] theorem overrun_tag (s : State) : (overrun s).tag = s.tag := rfl
@[simp] theorem overrun_lastNonce (s : State) : (overrun s).lastNonce = s.lastNonce := rfl
@[simp] theorem overrun_slots (s : State) : (overrun s).slots = s.slots := rfl
@[simp] theorem overrun_points (s : State) : (overrun s).points = s.points := rfl
@[simp] theorem overrun_cp (s : State) : (overrun s).cp = s.cp := rfl
@[simp] theorem overrun_ca (s : State) : (overrun s).ca = s.ca := rfl
@[simp] theorem overrun_cb (s : State) : (overrun s).cb = s.cb := rfl
@[simp] theorem overrun_msgbuf (s : State) : (overrun s).msgbuf = s.msgbuf := rfl
@[simp] theorem overrun_rk (s : State) : (overrun s).rk = s.rk := rfl
@[simp] theorem overrun_keyValid (s : State) : (overrun s).keyValid = s.keyValid := rfl
@[simp] theorem overrun_lnv (s : State) : (overrun s).lnv = s.lnv := rfl
@[simp] theorem overrun_schedule (s : State) : (overrun s).schedule = s.schedule := rfl
@[simp] theorem overrun_response (s : State) : (overrun s).response = s.response := rfl
@[simp] theorem overrun_width (s : State) : (overrun s).width = s.width := rfl
@[simp] theorem overrun_radix (s : State) : (overrun s).radix = s.radix := rfl
@[simp] theorem overrun_slot (s : State) (i : Slot) : (overrun s).slot i = s.slot i := rfl
@[simp] theorem overrun_point (s : State) (i : PointIx) : (overrun s).point i = s.point i := rfl
@[simp] theorem overrun_curveP (s : State) : (overrun s).curveP = s.curveP := rfl
@[simp] theorem overrun_curveA (s : State) : (overrun s).curveA = s.curveA := rfl
@[simp] theorem overrun_curveB (s : State) : (overrun s).curveB = s.curveB := rfl
@[simp] theorem overrun_curveOk (s : State) : (overrun s).curveOk = s.curveOk := rfl

/-! ### Reading back -/

theorem slot_lt (s : State) (i : Slot) : s.slot i < 2 ^ s.width := wideValue_lt _ _

theorem radix_eq (s : State) : s.radix = 2 ^ s.width := rfl

theorem radix_pos (s : State) : 0 < s.radix := Nat.two_pow_pos _

/-- A slot after a write of a slot. -/
theorem slot_setSlot (s : State) (d i : Slot) (v : Nat) :
    (s.setSlot d v).slot i = if i = d then v % 2 ^ s.width else s.slot i := by
  by_cases h : i = d
  · subst h; simp [State.slot, State.width]
  · have h1 : (d : Nat) ≠ i := fun e => h (Fin.ext e.symm)
    simp [State.slot, h, h1]

@[simp] theorem slot_setSlot_same (s : State) (d : Slot) (v : Nat) :
    (s.setSlot d v).slot d = v % 2 ^ s.width := by simp [slot_setSlot]

@[simp] theorem slot_setSlot_other (s : State) {d i : Slot} (v : Nat) (h : i ≠ d) :
    (s.setSlot d v).slot i = s.slot i := by simp [slot_setSlot, h]

/-- A point register after a write of a point register. -/
theorem point_setPoint (s : State) (d i : PointIx) (P : Triple) :
    (s.setPoint d P).point i =
      if i = d then
        { x := P.x % 2 ^ s.width, y := P.y % 2 ^ s.width, z := P.z % 2 ^ s.width }
      else s.point i := by
  by_cases h : i = d
  · subst h; simp [State.point, pointRegOf, State.width]
  · have h1 : (d : Nat) ≠ i := fun e => h (Fin.ext e.symm)
    simp [State.point, h, h1]

theorem point_writePoint (s : State) (d i : PointIx) (P : Triple) :
    (writePoint d P s).point i =
      if i = d then
        { x := P.x % 2 ^ s.width, y := P.y % 2 ^ s.width, z := P.z % 2 ^ s.width }
      else s.point i := point_setPoint s d i P

theorem curveP_lt (s : State) : s.curveP < 2 ^ s.width := wideValue_lt _ _

end Sys2Proof.Machine
end

