-- ==== Sys2Proof/Laws/Exec.lean ====
section
/-! SUPPORT. What a command can do, said once: every meaning answers a completed state, and an error
discards the command's writes. -/

namespace Sys2Proof.Machine

/-! ## Command words -/

/-- A command word by bit positions is the word of those fields. -/
theorem commandWord_eq {op d a b n e imm : Nat} (hop : op < 2 ^ 8) (hd : d < 2 ^ 4)
    (ha : a < 2 ^ 4) (hb : b < 2 ^ 4) (hn : n < 2 ^ 4) (he : e < 2 ^ 4) (hi : imm < 2 ^ 16) :
    commandWord op d a b n e imm = Fields.word
      { op := BitVec.ofNat 8 op, d := BitVec.ofNat 4 d, a := BitVec.ofNat 4 a,
        b := BitVec.ofNat 4 b, n := BitVec.ofNat 4 n, e := BitVec.ofNat 4 e,
        imm := BitVec.ofNat 16 imm } := by
  apply BitVec.eq_of_toNat_eq
  have h4 : (0 : BitVec 4).toNat = 0 := rfl
  have h16 : (0 : BitVec 16).toNat = 0 := rfl
  rw [Fields.word_toNat]
  simp only [commandWord, BitVec.toNat_ofNat]
  omega

/-! ## The two ends of a command -/

theorem completeOk_eq (s : State) : completeOk s = .next (finish .ok s) := rfl

theorem raiseError_eq (c : ErrorCode) (s : State) : raiseError c s = .next (finish c s) := rfl

/-- Completing reports what R404 says, whatever the body did to the other state, as long as it left
IRQ_STATUS alone. -/
theorem finish_completed {c : ErrorCode} {s u : State} (h : u.irqStatus = s.irqStatus) :
    Completed c s (finish c u) := by
  constructor <;> simp [h]

/-- An error that discards everything touches nothing else. -/
theorem finish_frame (c : ErrorCode) (s : State) : Frame {} s (finish c s) := by
  constructor <;> intros <;> simp

theorem raises_of_eq {c : ErrorCode} {i : Instr} {s : State} (h : exec i s = raiseError c s) :
    Raises c i s :=
  ⟨_, h, finish_completed rfl, finish_frame c s⟩

/-! ## Commands that write slots, a point, or a flag with a slot -/

/-- A command whose body writes one slot. -/
theorem runs_setSlot {i : Instr} {s : State} {d : Slot} {v : Nat}
    (h : exec i s = completeOk (s.setSlot d v)) :
    Runs i { slots := [d] } s (finish .ok (s.setSlot d v)) := by
  refine ⟨h, finish_completed rfl, ?_⟩
  constructor <;> intros <;> simp_all
  rename_i j hj
  have : (d : Nat) ≠ j := fun e => hj (Fin.ext e.symm)
  simp [this]

/-- A command whose body writes one slot and CARRY. -/
theorem runs_setSlot_setCarry {i : Instr} {s : State} {d : Slot} {v : Nat} {b : Bool}
    (h : exec i s = completeOk ((s.setSlot d v).setCarry b)) :
    Runs i { slots := [d], carry := true } s (finish .ok ((s.setSlot d v).setCarry b)) := by
  refine ⟨h, finish_completed rfl, ?_⟩
  constructor <;> intros <;> simp_all
  rename_i j hj
  have : (d : Nat) ≠ j := fun e => hj (Fin.ext e.symm)
  simp [this]

/-- A command whose body writes one slot and BIT. -/
theorem runs_setSlot_setBit {i : Instr} {s : State} {d : Slot} {v : Nat} {b : Bool}
    (h : exec i s = completeOk ((s.setSlot d v).setBit b)) :
    Runs i { slots := [d], bit := true } s (finish .ok ((s.setSlot d v).setBit b)) := by
  refine ⟨h, finish_completed rfl, ?_⟩
  constructor <;> intros <;> simp_all
  rename_i j hj
  have : (d : Nat) ≠ j := fun e => hj (Fin.ext e.symm)
  simp [this]

/-- A command whose body writes one slot and CMP. -/
theorem runs_setSlot_setCmp {i : Instr} {s : State} {d : Slot} {v : Nat} {b : Bool}
    (h : exec i s = completeOk ((s.setSlot d v).setCmp b)) :
    Runs i { slots := [d], cmp := true } s (finish .ok ((s.setSlot d v).setCmp b)) := by
  refine ⟨h, finish_completed rfl, ?_⟩
  constructor <;> intros <;> simp_all
  rename_i j hj
  have : (d : Nat) ≠ j := fun e => hj (Fin.ext e.symm)
  simp [this]

/-- A command whose body writes two slots. -/
theorem runs_setSlots {i : Instr} {s : State} {d e : Slot} {v w : Nat}
    (h : exec i s = completeOk ((s.setSlot d v).setSlot e w)) :
    Runs i { slots := [d, e] } s (finish .ok ((s.setSlot d v).setSlot e w)) := by
  refine ⟨h, finish_completed rfl, ?_⟩
  constructor <;> intros <;> simp_all
  rename_i j hj
  have h1 : (d : Nat) ≠ j := fun e => hj.1 (Fin.ext e.symm)
  have h2 : (e : Nat) ≠ j := fun e => hj.2 (Fin.ext e.symm)
  simp [h1, h2]

/-- A point command: it writes one point register and INF. -/
theorem runs_writePoint {i : Instr} {s : State} {d : PointIx} {P : Triple}
    (h : exec i s = completeOk (writePoint d P s)) :
    Runs i { points := [d], inf := true } s (finish .ok (writePoint d P s)) := by
  refine ⟨h, finish_completed rfl, ?_⟩
  constructor <;> intros <;> simp_all
  rename_i j hj
  have : (d : Nat) ≠ j := fun e => hj (Fin.ext e.symm)
  simp [this]

/-! ## The shape of every command -/

/-- What no command's body writes: the model's own fields, the CMD readback with LASTOP, the
interrupt registers and the CCM configuration. -/
structure Kept (s u : State) : Prop where
  config    : u.config = s.config
  schedule  : u.schedule = s.schedule
  response  : u.response = s.response
  cmd       : u.cmd = s.cmd
  lastOp    : u.lastOp = s.lastOp
  irqEn     : u.irqEn = s.irqEn
  irqStatus : u.irqStatus = s.irqStatus
  ccmCfg    : u.ccmCfg = s.ccmCfg

/-- The only write that an error keeps: CCMOPEN's zeroed payload (R402). -/
def authState (s : State) : State :=
  { s with msgbuf := Memory.writeRange s.msgbuf s.adLen (List.replicate s.payLen 0) }

/-- Every command answers a completed state; with an error, the state completed is the one before
the command, or for AUTH the one with the zeroed payload. -/
theorem exec_shape (i : Instr) (s : State) :
    ∃ c u, exec i s = .next (finish c u) ∧ Kept s u ∧
      (c = .ok ∨ u = s ∨ (i = .ccmopen ∧ c = .auth ∧ u = authState s)) := by
  have same : Kept s s := ⟨rfl, rfl, rfl, rfl, rfl, rfl, rfl, rfl⟩
  have raised : ∀ c, ∃ c' u, raiseError c s = .next (finish c' u) ∧ Kept s u ∧
      (c' = .ok ∨ u = s ∨ (i = .ccmopen ∧ c' = .auth ∧ u = authState s)) :=
    fun c => ⟨c, s, rfl, same, .inr (.inl rfl)⟩
  have done : ∀ u : State, Kept s u →
      ∃ c' u', completeOk u = .next (finish c' u') ∧ Kept s u' ∧
        (c' = .ok ∨ u' = s ∨ (i = .ccmopen ∧ c' = .auth ∧ u' = authState s)) :=
    fun u h => ⟨.ok, u, rfl, h, .inl rfl⟩
  cases i <;>
    simp only [exec, execNop, execZeroize, execMov, execAdd, execSub, execMul, execCmpeq, execCmplt,
      execCmov, execShl, execShr, execGetbit, execAddmod, execSubmod, execModred, execDivmod,
      execModexp, execModinv, execMontsetup, execMontmul, execTomont, execFrommont, execPinf,
      execPmov, execPneg, execPdbl, execPadd, execPmul, execPaff, execPvalid, execAeskey,
      execAesenc, execAesdec, execAeser, execAesdr, execCcmseal, execCcmopen]
  case ccmopen =>
    repeat' split
    all_goals first
      | simpa using raised _
      | exact ⟨.ok, _, rfl, ⟨rfl, rfl, rfl, rfl, rfl, rfl, rfl, rfl⟩, .inl rfl⟩
      | exact ⟨.auth, authState s, rfl, ⟨rfl, rfl, rfl, rfl, rfl, rfl, rfl, rfl⟩,
          .inr (.inr (by simp))⟩
  all_goals
    repeat' split
    all_goals first
      | exact raised _
      | exact done _ ⟨rfl, rfl, rfl, rfl, rfl, rfl, rfl, rfl⟩

/-- No command stops the machine. -/
theorem exec_next (i : Instr) (s : State) : ∃ t, exec i s = .next t :=
  let ⟨_, _, h, _⟩ := exec_shape i s
  ⟨_, h⟩

end Sys2Proof.Machine
end

