-- ==== Sys2Proof/Laws/Step.lean ====
section
/-! SUPPORT. What one event can do, said once: the engine's step, a host access, and the step of the
interleaving, none of which ever stops. -/

namespace Sys2Proof.Machine

/-! ## A host access -/

@[simp] theorem writeReg_config (s : State) (r : Reg) (v : Word) :
    (writeReg s r v).config = s.config := by
  cases r <;> simp only [writeReg]
  split <;> rfl

@[simp] theorem writeReg_schedule (s : State) (r : Reg) (v : Word) :
    (writeReg s r v).schedule = s.schedule := by
  cases r <;> simp only [writeReg]
  split <;> rfl

/-- An access leaves the parameters as they are. -/
@[simp] theorem hostAccess_config (a : Access) (s : State) :
    (hostAccess a s).config = s.config := by
  cases a <;> simp only [hostAccess] <;> repeat' split
  all_goals simp

/-- An access leaves the other events as they are. -/
@[simp] theorem hostAccess_schedule (a : Access) (s : State) :
    (hostAccess a s).schedule = s.schedule := by
  cases a <;> simp only [hostAccess] <;> repeat' split
  all_goals simp

/-! ## The engine's step -/

theorem engineStep_idle {s : State} (h : s.pending = none) : engineStep s = .next s := by
  simp [engineStep, h]

theorem engineStep_ok {s : State} {w : Word} {i : Instr} (h : s.pending = some w)
    (hi : decode w = .ok i) : engineStep s = exec i s := by
  simp [engineStep, h, hi]

theorem engineStep_error {s : State} {w : Word} {e : DecodeError} (h : s.pending = some w)
    (he : decode w = .error e) : engineStep s = .next (finish (decodeErrorCode e) s) := by
  simp [engineStep, h, he, rejectWord, raiseError]

/-- The engine's step always answers a state with nothing pending, and leaves the other events. -/
theorem engineStep_next (s : State) :
    ∃ t, engineStep s = .next t ∧ t.pending = none ∧ t.schedule = s.schedule ∧
      t.config = s.config := by
  cases h : s.pending with
  | none => exact ⟨s, engineStep_idle h, h, rfl, rfl⟩
  | some w =>
    cases hd : decode w with
    | error e => exact ⟨_, engineStep_error h hd, rfl, rfl, rfl⟩
    | ok i =>
      obtain ⟨c, u, hu, k, -⟩ := exec_shape i s
      exact ⟨_, (engineStep_ok h hd).trans hu, rfl, k.schedule, k.config⟩

/-! ## One step -/

/-- Every step answers a next state: the machine never stops. -/
theorem step_next (s : State) :
    ∃ t, step s = .next t ∧ t.schedule = s.schedule.tail ∧ t.config = s.config := by
  unfold step
  split
  · rename_i h
    obtain ⟨t, h1, -, h2, h3⟩ := engineStep_next s
    exact ⟨t, h1, by simp [h2, h], h3⟩
  · rename_i rest h
    obtain ⟨t, h1, -, h2, h3⟩ := engineStep_next { s with schedule := rest }
    exact ⟨t, h1, by rw [h2, h]; rfl, h3⟩
  · rename_i a rest h
    exact ⟨_, rfl, by simp [h], by simp⟩
  · rename_i rest h
    exact ⟨_, rfl, by rw [h]; rfl, rfl⟩

end Sys2Proof.Machine
end

