-- ==== Sys2Proof/Tests/Slice0.lean ====
section
/-! SUPPORT. The model's own tests: the decoder's checks and words, one or two values of each command
from the spec's vectors (95_test_vectors.md unless a rule is named), and for each statement with
hypotheses a witness that meets them. -/

namespace Sys2Proof.Tests

-- One theorem after another: otherwise each kernel evaluation takes a thread of its own.
set_option Elab.async false

open Sys2Proof Sys2Proof.Machine

/-! ## Builders -/

/-- The state a command answers. -/
def after (i : Instr) (s : State) : State :=
  match exec i s with
  | .next t => t
  | .fault _ => s
  | .refused _ => s

/-- The state a step answers. -/
def stepped (s : State) : State :=
  match step s with
  | .next t => t
  | .fault _ => s
  | .refused _ => s

/-- The reset state of the instance with L = k + 1 limbs, with S[0] to S[3] loaded. -/
def slots (k : Fin 8) (a b c d : Nat) : State :=
  ((((State.resetWith { limbsLessOne := k, window := 0 }).setSlot 0 a).setSlot 1 b).setSlot 2
    c).setSlot 3 d

/-- 2^64 - 1, the M of the spec's vectors. -/
def M : Nat := 0xffffffffffffffff

/-- The 64-bit prime g of the spec's vectors. -/
def g : Nat := 0xffffffff00000001

/-- The curve p = 97, a = 2, b = 3 at L = 1, with PT[0] and PT[1] loaded. -/
def curve (P Q : Triple) : State :=
  ({ State.reset with cp := 97, ca := 2, cb := 3 }.setPoint 0 P).setPoint 1 Q

/-- The generator G = (3, 6, 1). -/
def G : Triple := { x := 3, y := 6, z := 1 }

/-- The block of bytes lo, lo+1, ..., lo+15. -/
def bytesFrom (lo : Nat) : Block := blockOf fun j => BitVec.ofNat 8 (lo + j)

/-- The key of R325 with its schedule loaded, and AES_DATA as given. -/
def keyed (x : Block) : State :=
  { State.reset with
    aesKey := bytesFrom 0, rk := expandKey (bytesFrom 0), keyValid := true, aesData := x }

/-- The plaintext of R325. -/
def plain : Block := blockOf fun j => BitVec.ofNat 8 (0x11 * j)

/-- A CCM state: key bytes from `k`, nonce bytes from 0x10, lengths, TAGRAW, and MSGBUF. -/
def ccm (k t n a p : Nat) (raw : Bool) (msg : List Byte) : State :=
  { State.reset with
    rk := expandKey (bytesFrom k), keyValid := true, nonce := bytesFrom 0x10
    ccmCfg := { tlen := BitVec.ofNat 5 t, nlen := BitVec.ofNat 4 n, nchk := true, tagraw := raw }
    ccmAlen := BitVec.ofNat 16 a, ccmPlen := BitVec.ofNat 16 p
    msgbuf := Memory.writeRange [] 0 msg }

/-- SP 800-38C example 1: AD 00..07 and the payload given. -/
def ccmOne (payload : List Byte) : State :=
  ccm 0x40 4 7 8 4 false ([0, 1, 2, 3, 4, 5, 6, 7] ++ payload)

/-! ## WellFormed: each check refuses an ill-formed term -/

theorem test_mul_needs_two_destinations : (Instr.mul 3 3 1 2).wellFormed = false := by decide

theorem test_divmod_needs_two_destinations : (Instr.divmod 7 7 1 2).wellFormed = false := by decide

theorem test_aeser_round_at_most_ten : (Instr.aeser 11).wellFormed = false := by decide

theorem test_aesdr_round_at_most_ten : (Instr.aesdr 11).wellFormed = false := by decide

/-! ## Decode: words written out from the fields of R121 and the opcodes of R125 -/

theorem test_decode_control :
    decode 0x0000000000000000 = .ok .nop ∧ decode 0x0000000000000001 = .ok .zeroize ∧
    decode 0x0000000000005e02 = .ok (.mov 14 5) := by decide

theorem test_decode_integer :
    decode 0x0000000000021310 = .ok (.add 3 1 2) ∧
    decode 0x0000000000089711 = .ok (.sub 7 9 8) ∧
    decode 0x0000000009021812 = .ok (.mul 8 9 1 2) ∧
    decode 0x00000000000a7b13 = .ok (.cmpeq 11 7 10) ∧
    decode 0x00000000000f0e14 = .ok (.cmplt 14 0 15) ∧
    decode 0x0000000000043215 = .ok (.cmov 2 3 4) ∧
    decode 0x0000ffff00001016 = .ok (.shl 0 1 0xffff) ∧
    decode 0x0000004000006517 = .ok (.shr 5 6 64) ∧
    decode 0x0000000300002518 = .ok (.getbit 5 2 3) := by decide

theorem test_decode_modular :
    decode 0x0000000000432120 = .ok (.addmod 1 2 3 4) ∧
    decode 0x0000000000876521 = .ok (.submod 5 6 7 8) ∧
    decode 0x0000000000098a22 = .ok (.modred 10 8 9 0) ∧
    decode 0x0000000002403123 = .ok (.divmod 1 2 3 4) ∧
    decode 0x0000000000021624 = .ok (.modexp 6 1 2 0) ∧
    decode 0x0000000000f04325 = .ok (.modinv 3 4 15) := by decide

theorem test_decode_montgomery :
    decode 0x0000000000500330 = .ok (.montsetup 3 5) ∧
    decode 0x0000000003054631 = .ok (.montmul 6 4 5 0 3) ∧
    decode 0x0000000000a01432 = .ok (.tomont 4 1 10) ∧
    decode 0x0000000003906733 = .ok (.frommont 7 6 9 3) := by decide

theorem test_decode_curve :
    decode 0x0000000000000240 = .ok (.pinf 2) ∧ decode 0x0000000000003141 = .ok (.pmov 1 3) ∧
    decode 0x0000000000002342 = .ok (.pneg 3 2) ∧ decode 0x0000000000000143 = .ok (.pdbl 1 0) ∧
    decode 0x0000000000032144 = .ok (.padd 1 2 3) ∧
    decode 0x000000000003f145 = .ok (.pmul 1 15 3) ∧
    decode 0x0000000000001246 = .ok (.paff 2 1) ∧ decode 0x0000000000003047 = .ok (.pvalid 3) := by
  decide

theorem test_decode_cipher :
    decode 0x0000000000000050 = .ok .aeskey ∧ decode 0x0000000000000051 = .ok .aesenc ∧
    decode 0x0000000000000052 = .ok .aesdec ∧ decode 0x0000000a00000053 = .ok (.aeser 10) ∧
    decode 0x0000000300000054 = .ok (.aesdr 3) ∧ decode 0x0000000000000060 = .ok .ccmseal ∧
    decode 0x0000000000000061 = .ok .ccmopen := by decide

/-- R129's unassigned opcodes at the ends of each gap. -/
theorem test_decode_illegal :
    ∀ op ∈ [0x03, 0x0f, 0x19, 0x1f, 0x26, 0x2f, 0x34, 0x3f, 0x48, 0x4f, 0x55, 0x5f, 0x62, 0xff],
      decode (BitVec.ofNat 64 op) = .error .illegal := by decide

/-- Program 5 and R122, R123: must-be-zero bits and point indices above 3. -/
theorem test_decode_operand :
    ∀ w ∈ [0x8000000000021010, 0x0000000010021310, 0x0000000000000443, 0x0000000000000100,
        0x0000000000000147],
      decode (BitVec.ofNat 64 w) = .error .operand := by decide

/-- The decoder's masks are the table's. -/
theorem test_masks_are_the_tables : rows.map (fun r => (r.op, r.mask)) = specMasks := by decide

theorem test_decodeTableWord : decodeTableWord 64 0x0000000003054631 = some (.montmul 6 4 5 0 3) ∧
    decodeTableWord 64 0xff = none := by decide

/-! ## Control and integer -/

theorem test_nop_clears_the_error :
    (after .nop { State.reset with err := true, errCode := .auth }).errCode = .ok := by decide

theorem test_zeroize_erases_data : (after .zeroize (keyed plain)).aesData = zeroBlock ∧
    (after .zeroize (keyed plain)).keyValid = false := by decide +kernel

theorem test_mov_copies : (after (.mov 2 1) (slots 0 0 5 9 0)).slot 2 = 5 := by decide +kernel

theorem test_add_wraps : (after (.add 3 1 2) (slots 0 0 M 1 7)).slot 3 = 0 ∧
    (after (.add 3 1 2) (slots 0 0 M 1 7)).flags.carry = true := by decide +kernel

theorem test_add_crosses_limbs : (after (.add 3 1 2) (slots 1 0 M 1 7)).slot 3 = 2 ^ 64 ∧
    (after (.add 3 1 2) (slots 1 0 M 1 7)).flags.carry = false := by decide +kernel

theorem test_sub_borrows : (after (.sub 3 1 2) (slots 0 0 5 7 0)).slot 3 = 0xfffffffffffffffe ∧
    (after (.sub 3 1 2) (slots 0 0 5 7 0)).flags.carry = true := by decide +kernel

theorem test_mul_halves :
    (after (.mul 2 3 0 1) (slots 0 0x0123456789abcdef 0x0fedcba987654321 0 0)).slot 2 =
      0x22236d88fe5618cf ∧
    (after (.mul 2 3 0 1) (slots 0 0x0123456789abcdef 0x0fedcba987654321 0 0)).slot 3 =
      0x00121fa00ad77d74 := by decide +kernel

theorem test_mul_into_its_sources : (after (.mul 0 1 0 1) (slots 0 M M 0 0)).slot 0 = 1 ∧
    (after (.mul 0 1 0 1) (slots 0 M M 0 0)).slot 1 = 0xfffffffffffffffe := by decide +kernel

theorem test_cmpeq_mask : (after (.cmpeq 3 1 2) (slots 0 0 5 5 0)).slot 3 = M ∧
    (after (.cmpeq 3 1 2) (slots 0 0 5 6 1)).slot 3 = 0 := by decide +kernel

theorem test_cmplt_is_unsigned : (after (.cmplt 3 1 2) (slots 0 0 0 M 0)).slot 3 = M ∧
    (after (.cmplt 3 1 2) (slots 0 0 5 5 1)).flags.cmp = false := by decide +kernel

theorem test_cmov_merges :
    (after (.cmov 3 1 2) (slots 0 0 0x2222222222222222 0x00000000ffffffff
      0x1111111111111111)).slot 3 = 0x1111111122222222 := by decide +kernel

theorem test_shl_at_and_below_the_width : (after (.shl 3 1 63) (slots 0 0 1 0 0)).slot 3 = 2 ^ 63 ∧
    (after (.shl 3 1 64) (slots 0 0 1 0 9)).slot 3 = 0 := by decide +kernel

theorem test_shr_at_and_below_the_width :
    (after (.shr 3 1 63) (slots 0 0 0x8000000000000001 0 0)).slot 3 = 1 ∧
    (after (.shr 3 1 64) (slots 0 0 M 0 9)).slot 3 = 0 := by decide +kernel

theorem test_getbit_top_and_beyond :
    (after (.getbit 3 1 63) (slots 0 0 0x8000000000000001 0 0)).flags.bit = true ∧
    (after (.getbit 3 1 64) (slots 0 0 M 0 9)).slot 3 = 0 := by decide +kernel

/-! ## Modular and Montgomery -/

theorem test_addmod_corrects_once : (after (.addmod 3 0 1 2) (slots 0 5 9 11 0)).slot 3 = 3 ∧
    (after (.addmod 3 0 1 2) (slots 0 M M 3 0)).slot 3 = 0xfffffffffffffffb := by decide +kernel

theorem test_submod_corrects_once : (after (.submod 3 0 1 2) (slots 0 3 5 11 0)).slot 3 = 9 ∧
    (after (.submod 3 0 1 2) (slots 0 3 20 11 0)).slot 3 = 0xfffffffffffffffa := by decide +kernel

theorem test_modred_double_width :
    (after (.modred 3 0 1 2) (slots 0 M M g 0)).slot 3 = 0xfffffffe00000000 ∧
    (after (.modred 3 0 1 2) (slots 0 0 1 10 0)).slot 3 = 6 := by decide +kernel

theorem test_divmod_quotient_and_remainder :
    (after (.divmod 2 3 0 1) (slots 0 100 7 0 0)).slot 2 = 14 ∧
    (after (.divmod 2 3 0 1) (slots 0 100 7 0 0)).slot 3 = 2 := by decide +kernel

theorem test_modexp_ladder : (after (.modexp 3 0 1 2) (slots 0 3 200 1000003 0)).slot 3 = 333986 ∧
    (after (.modexp 3 0 1 2) (slots 0 0 0 7 0)).slot 3 = 1 := by decide +kernel

theorem test_modinv_fermat : (after (.modinv 3 0 2) (slots 0 3 0 g 0)).slot 3 = 0xaaaaaaaa00000001 ∧
    (after (.modinv 3 0 2) (slots 0 4 0 9 0)).slot 3 = 4 := by decide +kernel

theorem test_montsetup_constant : (after (.montsetup 3 0) (slots 0 g 0 0 0)).slot 3 =
    0xfffffffeffffffff ∧ (after (.montsetup 3 0) (slots 0 10 0 0 0)).errCode = .modulus := by
  decide +kernel

theorem test_montmul_product :
    (after (.montmul 0 0 1 2 3) (slots 0 0x89abcdee7530ecaa 0x8765432068acf136 g
      0xfffffffeffffffff)).slot 0 = 0xf36c7bb9df989949 := by decide +kernel

theorem test_montmul_unreduced :
    (after (.montmul 0 0 1 2 3) (slots 0 M M 97 0x5c5f02a3a0fd5c5f)).slot 0 =
      0xffffffffffffffc0 := by decide +kernel

theorem test_tomont_scales : (after (.tomont 1 0 2) (slots 0 0x0123456789abcdef 0 g 0)).slot 1 =
    0x89abcdee7530ecaa := by decide +kernel

theorem test_frommont_scales_back :
    (after (.frommont 1 0 2 3) (slots 0 0xf36c7bb9df989949 0 g 0xfffffffeffffffff)).slot 1 =
      0x2cfaeafcf36c7bbb := by decide +kernel

/-! ## Elliptic curve -/

theorem test_pinf_needs_no_curve : (after (.pinf 2) State.reset).point 2 = ⟨0, 1, 0⟩ ∧
    (after (.pinf 2) State.reset).flags.inf = true := by decide +kernel

theorem test_pmov_copies_unreduced :
    (after (.pmov 2 0) (curve ⟨100, 6, 97⟩ G)).point 2 = ⟨100, 6, 97⟩ := by decide +kernel

theorem test_pneg : (after (.pneg 2 0) (curve G G)).point 2 = ⟨3, 91, 1⟩ ∧
    (after (.pneg 2 0) (curve ⟨5, 5, 0⟩ G)).point 2 = ⟨0, 1, 0⟩ := by decide +kernel

theorem test_pdbl : (after (.pdbl 0 0) (curve ⟨100, 6, 1⟩ G)).point 0 = ⟨15, 14, 79⟩ ∧
    (after (.pdbl 0 0) (curve ⟨30, 0, 1⟩ G)).flags.inf = true := by decide +kernel

theorem test_padd_general : (after (.padd 2 0 1) (curve G ⟨62, 65, 42⟩)).point 2 = ⟨5, 87, 34⟩ := by
  decide +kernel

theorem test_padd_special_cases :
    (after (.padd 2 0 1) (curve ⟨6, 12, 2⟩ G)).point 2 = ⟨87, 23, 12⟩ ∧
    (after (.padd 2 0 1) (curve G ⟨3, 91, 1⟩)).point 2 = ⟨0, 1, 0⟩ ∧
    (after (.padd 2 0 1) (curve ⟨5, 5, 0⟩ G)).point 2 = G := by decide +kernel

theorem test_pmul : (after (.pmul 2 0 0) ((curve G G).setSlot 0 6)).point 2 = ⟨90, 83, 30⟩ ∧
    (after (.pmul 2 0 0) ((curve G G).setSlot 0 M)).point 2 = ⟨0, 1, 0⟩ := by decide +kernel

theorem test_paff : (after (.paff 2 0) (curve ⟨15, 14, 79⟩ G)).point 2 = ⟨80, 10, 1⟩ ∧
    (after (.paff 2 0) (curve ⟨5, 5, 97⟩ G)).flags.inf = true := by decide +kernel

theorem test_pvalid : (after (.pvalid 0) (curve ⟨6, 12, 2⟩ G)).flags.valid = true ∧
    (after (.pvalid 0) (curve ⟨3, 7, 1⟩ G)).flags.valid = false := by decide +kernel

/-! ## AES -/

theorem test_gfmul : gfmul 0x57 0x83 = 0xc1 ∧ gfmul 0x57 0x13 = 0xfe := by decide

theorem test_sbox : sbox 0x53 = 0xed ∧ invSbox 0x63 = 0x00 := by decide +kernel

theorem test_aeskey : (after .aeskey { State.reset with aesKey := bytesFrom 0 }).rk[43] =
    0x4d2b30c5 := by decide +kernel

theorem test_aesenc_without_a_key : (after .aesenc State.reset).errCode = .noKey := by decide

theorem test_aesenc : (after .aesenc (keyed plain)).aesData = blockOfList [0x69, 0xc4, 0xe0, 0xd8,
    0x6a, 0x7b, 0x04, 0x30, 0xd8, 0xcd, 0xb7, 0x80, 0x70, 0xb4, 0xc5, 0x5a] := by decide +kernel

theorem test_aesdec : (after .aesdec (keyed (blockOfList [0x69, 0xc4, 0xe0, 0xd8, 0x6a, 0x7b, 0x04,
    0x30, 0xd8, 0xcd, 0xb7, 0x80, 0x70, 0xb4, 0xc5, 0x5a]))).aesData = plain := by decide +kernel

theorem test_aeser : (after (.aeser 1) (keyed (blockOf fun j => BitVec.ofNat 8 (0x10 * j)))).aesData =
    blockOfList [0x89, 0xd8, 0x10, 0xe8, 0x85, 0x5a, 0xce, 0x68, 0x2d, 0x18, 0x43, 0xd8, 0xcb, 0x12,
      0x8f, 0xe4] := by decide +kernel

theorem test_aeser_eleven_comes_before_the_key : (after (.aeser 11) State.reset).errCode =
    .operand := by decide

theorem test_aesdr : (after (.aesdr 1) (keyed (blockOfList [0x89, 0xd8, 0x10, 0xe8, 0x85, 0x5a, 0xce,
    0x68, 0x2d, 0x18, 0x43, 0xd8, 0xcb, 0x12, 0x8f, 0xe4]))).aesData =
    blockOf fun j => BitVec.ofNat 8 (0x10 * j) := by decide +kernel

/-! ## CCM: SP 800-38C example 1 -/

theorem test_ccmseal_ciphertext :
    Memory.readRange (after .ccmseal (ccmOne [0x20, 0x21, 0x22, 0x23])).msgbuf 8 4 =
      [0x71, 0x62, 0x01, 0x5b] := by decide +kernel

theorem test_ccmseal_tag :
    (after .ccmseal (ccmOne [0x20, 0x21, 0x22, 0x23])).tag =
      blockOfList [0x4d, 0xac, 0x25, 0x5d] := by decide +kernel

theorem test_ccmopen_releases :
    Memory.readRange (after .ccmopen { ccmOne [0x71, 0x62, 0x01, 0x5b] with
      tag := blockOfList [0x4d, 0xac, 0x25, 0x5d] }).msgbuf 8 4 = [0x20, 0x21, 0x22, 0x23] := by
  decide +kernel

theorem test_ccmopen_zeroes_a_forgery :
    Memory.readRange (after .ccmopen { ccmOne [0x71, 0x62, 0x01, 0x5b] with
      tag := blockOfList [0x4d, 0xac, 0x25, 0x5c] }).msgbuf 7 5 = [7, 0, 0, 0, 0] := by
  decide +kernel

/-! ## The bus and the step -/

theorem test_id_word : readReg (State.resetWith { limbsLessOne := 3, window := 0 }) .id =
    0x4545474300000401 := by decide

theorem test_ccm_cfg_after_reset : readReg State.reset .ccmCfg = 0x0000000000010d10 := by decide

theorem test_unaligned_access_is_an_error :
    (hostAccess (.read 0x204 8) State.reset).response = some .error := by decide

theorem test_bytes_are_little_endian : readReg { State.reset with aesData := plain } (.aesData 0) =
    0x7766554433221100 := by decide

theorem test_irq_status_write_one_to_clear :
    (hostAccess (.write 0x020 8 1)
      { State.reset with irqStatus := ⟨true, true, false⟩ }).irqStatus = ⟨false, true, false⟩ := by
  decide

/-- Program 5, step 2: STATUS after the word 0xff. -/
theorem test_step_of_an_illegal_word : statusWord (stepped (State.reset.withFetchWord 64 0xff)) =
    0x00000000ff010002 := by decide

/-- Program 5, step 3: STATUS after ADD with bit 63 set. -/
theorem test_step_of_a_reserved_bit :
    statusWord (stepped (State.reset.withFetchWord 64 0x8000000000021010)) =
      0x0000000010020002 := by decide

/-- Program 1, step 1, as the first step after the word is accepted. -/
theorem test_step_runs_the_word :
    (stepped ((slots 0 g 0 0 0).withFetchWord 64 0x0000000000000330)).slot 3 =
      0xfffffffeffffffff := by decide +kernel

theorem test_reset_memory_is_canonical : Memory.wf State.reset.msgbuf := by decide

/-! ## Witnesses: states and operands that meet the statements' hypotheses -/

/-- A busy state with work done, and a schedule. -/
def busyState (l : List Turn) : State :=
  { slots 0 1 2 3 4 with
    pending := some 0x21310, cmd := 0x21310, lastOp := 0x10, keyValid := true, schedule := l
    msgbuf := [(0, 1), (1023, 255)] }

theorem witness_ResetLeavesTheTable : (busyState [.reset, .engine]).schedule = [.reset, .engine] := rfl

/-- The engine's turn, by its event and by itself, with a word that decodes. -/
theorem witness_StepRunsTheDecodedCommand :
    (busyState [.engine]).pending = some 0x21310 ∧ (busyState [.engine]).schedule = .engine :: [] ∧
    (busyState []).schedule = [] ∧ decode 0x21310 = .ok (.add 3 1 2) := by decide

/-- With a word of each error, and with nothing pending. -/
theorem witness_StepRunsTheDecodedCommand_error :
    { busyState [] with pending := some 0xff }.pending = some 0xff ∧
    { busyState [] with pending := some 0xff }.schedule = [] ∧
    decode 0xff = .error .illegal ∧ decode 0x443 = .error .operand ∧
    State.reset.schedule = [] ∧ State.reset.pending = none := by decide

theorem witness_StepRunsTheDecodedCommand_host :
    (busyState [.host (.read 0 8), .engine]).schedule = .host (.read 0 8) :: [.engine] := rfl

theorem witness_DecodeInvertsEncode : (Instr.mul 0 15 2 3).wellFormed = true ∧
    (Instr.divmod 15 0 2 3).wellFormed = true ∧ (Instr.aeser 10).wellFormed = true ∧
    (Instr.aesdr 0).wellFormed = true ∧ (Instr.shl 15 15 0xffff).wellFormed = true := by decide

theorem witness_EncodeInvertsDecode : decode 0x0000000f00006517 = .ok (.shr 5 6 15) := by decide

theorem witness_DecodeChecksInOrder_rows :
    ((0x12, 0xfffffffff0f000ff) : BitVec 8 × Word) ∈ specMasks ∧
    ((0x53, 0xffff0000ffffffff) : BitVec 8 × Word) ∈ specMasks := by simp [specMasks]

/-- The clauses of the check order: the mask test, D = E, IMM at 10 and 11, and D and E apart. -/
theorem witness_DecodeChecksInOrder :
    (0x8000000001021012 : Word) &&& 0xfffffffff0f000ff ≠ (0x12 : BitVec 8).setWidth 64 ∧
    (0x0000000001021112 : Word) &&& 0xfffffffff0f000ff = (0x12 : BitVec 8).setWidth 64 ∧
    (0x0000000001021112 : Word).extractLsb' 8 4 = (0x0000000001021112 : Word).extractLsb' 24 4 ∧
    (0x0000000002021112 : Word).extractLsb' 8 4 ≠ (0x0000000002021112 : Word).extractLsb' 24 4 ∧
    (0x0000000b00000053 : Word) &&& 0xffff0000ffffffff = (0x53 : BitVec 8).setWidth 64 ∧
    10 < ((0x0000000b00000053 : Word).extractLsb' 32 16).toNat ∧
    ¬ 10 < ((0x0000000a00000053 : Word).extractLsb' 32 16).toNat := by decide

theorem witness_DecodeChecksInOrder_illegal :
    ∀ r ∈ specMasks, r.1 ≠ (0xff : Word).extractLsb' 0 8 := by simp [specMasks]

theorem witness_NopOnlyCompletes : (0x0000000000000100 : Word).extractLsb' 0 8 = 0 ∧
    (0x0000000000000100 : Word) ≠ 0 := by decide

/-- Shift counts and bit indices just below and at W. -/
theorem witness_ShiftsByAnImmediate : (63 : Imm).toNat < (slots 0 0 0 0 0).width ∧
    ¬ (64 : Imm).toNat < (slots 0 0 0 0 0).width := by decide

/-- Reduced operands at the top of their range, and the zero modulus. -/
theorem witness_AddmodCorrectsOnce : (slots 0 10 10 11 0).slot 0 < (slots 0 10 10 11 0).slot 2 ∧
    (slots 0 10 10 11 0).slot 1 < (slots 0 10 10 11 0).slot 2 ∧
    (slots 0 3 4 0 0).slot 2 = 0 := by decide +kernel

theorem witness_SubmodCorrectsOnce : (slots 0 0 10 11 0).slot 0 < (slots 0 0 10 11 0).slot 2 ∧
    (slots 0 0 10 11 0).slot 1 < (slots 0 0 10 11 0).slot 2 ∧
    (slots 0 0 10 11 0).slot 0 < (slots 0 0 10 11 0).slot 1 := by decide +kernel

/-- The modulus 1 completes and the modulus 0 is DIVZERO: MODRED, DIVMOD and MODEXP. -/
theorem witness_DivzeroClauses : (slots 0 5 5 1 0).slot 2 ≠ 0 ∧ (slots 0 5 5 0 0).slot 2 = 0 ∧
    (2 : Slot) ≠ 3 := by decide +kernel

/-- The modulus 2 completes and 1 is MODULUS; a prime modulus that does not divide a. -/
theorem witness_ModinvIsTheFermatPower : 2 ≤ (slots 0 5 0 2 0).slot 2 ∧
    (slots 0 5 0 1 0).slot 2 < 2 ∧ (slots 0 22 0 11 0).slot 2 ∣ (slots 0 22 0 11 0).slot 0 ∧
    2 < (slots 0 22 0 11 0).slot 2 ∧ ¬ (slots 0 3 0 11 0).slot 2 ∣ (slots 0 3 0 11 0).slot 0 := by
  decide +kernel

theorem witness_ModinvIsTheFermatPower_prime : Nat.Prime ((slots 0 3 0 11 0).slot 2) := by
  rw [show (slots 0 3 0 11 0).slot 2 = 11 by decide +kernel]; norm_num

theorem witness_AddmodUndoesSubmod : ∃ t u, exec (.submod 3 0 1 2) (slots 0 3 5 11 0) = .next t ∧
    exec (.addmod 0 3 1 2) t = .next u ∧
    (slots 0 3 5 11 0).slot 0 < (slots 0 3 5 11 0).slot 2 ∧
    (slots 0 3 5 11 0).slot 1 < (slots 0 3 5 11 0).slot 2 ∧ (3 : Slot) ≠ 1 ∧ (3 : Slot) ≠ 2 :=
  ⟨_, _, rfl, rfl, by decide +kernel⟩

/-- The odd and the even modulus of the Montgomery statements, a right n', and reduced operands. -/
theorem witness_MontgomeryClauses : (slots 0 14 39 97 0x5c5f02a3a0fd5c5f).slot 2 % 2 = 1 ∧
    ((slots 0 14 39 97 0x5c5f02a3a0fd5c5f).slot 2 * (slots 0 14 39 97 0x5c5f02a3a0fd5c5f).slot 3 + 1) %
      2 ^ (slots 0 14 39 97 0x5c5f02a3a0fd5c5f).width = 0 ∧
    (slots 0 14 39 97 0x5c5f02a3a0fd5c5f).slot 0 < (slots 0 14 39 97 0x5c5f02a3a0fd5c5f).slot 2 ∧
    (slots 0 14 39 97 0x5c5f02a3a0fd5c5f).slot 1 < (slots 0 14 39 97 0x5c5f02a3a0fd5c5f).slot 2 ∧
    (slots 0 14 39 10 0).slot 2 % 2 = 0 ∧ (slots 0 1 1 1 M).slot 2 % 2 = 1 := by decide +kernel

theorem witness_MontgomeryAgreesWithThePlainProduct :
    ∃ s0 s1 s2 s3 s4 s5, exec (.montsetup 3 2) (slots 0 5 7 97 0) = .next s0 ∧
      exec (.tomont 4 0 2) s0 = .next s1 ∧ exec (.tomont 5 1 2) s1 = .next s2 ∧
      exec (.montmul 6 4 5 2 3) s2 = .next s3 ∧ exec (.frommont 6 6 2 3) s3 = .next s4 ∧
      exec (.frommont 6 4 2 3) s3 = .next s5 ∧ ([3, 4, 5, 6] : List Slot).Nodup ∧
      (∀ r ∈ ([3, 4, 5, 6] : List Slot), r ∉ ([0, 1, 2] : List Slot)) ∧
      (slots 0 5 7 97 0).slot 2 % 2 = 1 := by
  obtain ⟨s0, h0⟩ := exec_next (.montsetup 3 2) (slots 0 5 7 97 0)
  obtain ⟨s1, h1⟩ := exec_next (.tomont 4 0 2) s0
  obtain ⟨s2, h2⟩ := exec_next (.tomont 5 1 2) s1
  obtain ⟨s3, h3⟩ := exec_next (.montmul 6 4 5 2 3) s2
  obtain ⟨s4, h4⟩ := exec_next (.frommont 6 6 2 3) s3
  obtain ⟨s5, h5⟩ := exec_next (.frommont 6 4 2 3) s3
  exact ⟨s0, s1, s2, s3, s4, s5, h0, h1, h2, h3, h4, h5, by decide, by decide,
    by decide +kernel⟩

/-- A good field modulus at its lower bound, an even one, and 1. -/
theorem witness_GoodCurve : GoodCurve (curve G G) ∧ GoodCurve { State.reset with cp := 3 } ∧
    ¬ GoodCurve { State.reset with cp := 4 } ∧ ¬ GoodCurve { State.reset with cp := 1 } := by
  simp only [GoodCurve]; decide +kernel

/-- Each case of the point commands: infinity on either side, equal points, opposite points, others;
and for PVALID a point on the curve and one off it. -/
theorem witness_PointCases :
    ((curve ⟨5, 5, 97⟩ G).point 0).z % (curve ⟨5, 5, 97⟩ G).curveP = 0 ∧
    ((curve G ⟨5, 5, 0⟩).point 0).z % (curve G ⟨5, 5, 0⟩).curveP ≠ 0 ∧
    ((curve G ⟨5, 5, 0⟩).point 1).z % (curve G ⟨5, 5, 0⟩).curveP = 0 ∧
    ((65 : Int) * 1 - 6 * 42) % 97 ≠ 0 ∧ ((62 : Int) * 1 - 3 * 42) % 97 ≠ 0 ∧
    ((6 : Int) * 2 - 12 * 1) % 97 = 0 ∧ ((3 : Int) * 2 - 6 * 1) % 97 = 0 ∧
    ((91 : Int) * 1 - 6 * 1) % 97 ≠ 0 ∧ ((3 : Int) * 1 - 3 * 1) % 97 = 0 := by decide +kernel

theorem witness_PaffDividesByZ : Nat.Prime (curve ⟨15, 14, 79⟩ G).curveP ∧
    ((curve ⟨15, 14, 79⟩ G).point 0).z % (curve ⟨15, 14, 79⟩ G).curveP ≠ 0 :=
  ⟨by rw [show (curve ⟨15, 14, 79⟩ G).curveP = 97 by decide +kernel]; norm_num, by decide +kernel⟩

theorem witness_PaddHasIdentityAndInverse :
    (∃ t u, exec (.pinf 1) (curve G G) = .next t ∧ exec (.padd 2 0 1) t = .next u) ∧
    (∃ t u, exec (.pneg 1 0) (curve G G) = .next t ∧ exec (.padd 2 0 1) t = .next u) ∧
    GoodCurve (curve G G) ∧ (1 : PointIx) ≠ 0 := by
  obtain ⟨t, ht⟩ := exec_next (.pinf 1) (curve G G)
  obtain ⟨u, hu⟩ := exec_next (.padd 2 0 1) t
  obtain ⟨t', ht'⟩ := exec_next (.pneg 1 0) (curve G G)
  obtain ⟨u', hu'⟩ := exec_next (.padd 2 0 1) t'
  exact ⟨⟨t, u, ht, hu⟩, ⟨t', u', ht', hu'⟩, witness_GoodCurve.1, by decide⟩

theorem witness_PmulByZeroOneAndOfInfinity :
    (∃ t, exec (.pmul 2 0 0) (curve G G) = .next t) ∧ (curve G G).slot 0 = 0 ∧
    ((curve G G).setSlot 0 1).slot 0 = 1 ∧
    ((curve Triple.infinity G).point 0).z % (curve Triple.infinity G).curveP = 0 :=
  ⟨exec_next _ _, by decide +kernel⟩

/-- With and without a key; the round numbers 10 and 11. -/
theorem witness_AesClauses : (keyed plain).keyValid = true ∧ State.reset.keyValid = false ∧
    (10 : Imm).toNat ≤ 10 ∧ 10 < (11 : Imm).toNat := by decide

theorem witness_AesKnownAnswer : ∃ t u v,
    exec .aeskey { State.reset with aesKey := bytesFrom 0, aesData := plain } = .next t ∧
      exec .aesenc t = .next u ∧ exec .aesdec u = .next v ∧
      bytesFrom 0 = blockOf (fun j => BitVec.ofNat 8 j) := by
  obtain ⟨t, ht⟩ := exec_next .aeskey { State.reset with aesKey := bytesFrom 0, aesData := plain }
  obtain ⟨u, hu⟩ := exec_next .aesenc t
  obtain ⟨v, hv⟩ := exec_next .aesdec u
  exact ⟨t, u, v, ht, hu, hv, by decide⟩

theorem witness_AesDecryptionUndoesEncryption :
    (∃ t u, exec .aesenc (keyed plain) = .next t ∧ exec .aesdec t = .next u) ∧
    (∃ t u, exec (.aeser 10) (keyed plain) = .next t ∧ exec (.aesdr 10) t = .next u) := by
  obtain ⟨t, ht⟩ := exec_next .aesenc (keyed plain)
  obtain ⟨u, hu⟩ := exec_next .aesdec t
  obtain ⟨t', ht'⟩ := exec_next (.aeser 10) (keyed plain)
  obtain ⟨u', hu'⟩ := exec_next (.aesdr 10) t'
  exact ⟨⟨t, u, ht, hu⟩, ⟨t', u', ht', hu'⟩⟩

theorem witness_CcmBlocksAreFormatted : 7 ≤ (List.replicate 7 (0 : Byte)).length ∧
    (List.replicate 13 (0 : Byte)).length ≤ 13 := by decide

/-- The legal CCM configuration at its bounds, and each check failing just outside them. -/
theorem witness_GoodCcmConfig : GoodCcmConfig (ccm 0 4 7 1000 24 false []) ∧
    GoodCcmConfig (ccm 0 16 13 0 1024 true []) ∧ ¬ GoodCcmConfig (ccm 0 5 7 0 0 false []) ∧
    ¬ GoodCcmConfig (ccm 0 18 7 0 0 false []) ∧ ¬ GoodCcmConfig (ccm 0 4 6 0 0 false []) ∧
    ¬ GoodCcmConfig (ccm 0 4 14 0 0 false []) ∧ ¬ GoodCcmConfig (ccm 0 4 7 1000 25 false []) ∧
    (ccm 0 4 7 0 0 false []).keyValid = true := by
  simp only [GoodCcmConfig]; decide +kernel

/-- A sealed state: NCHK = 1, LNV = 1, and LAST_NONCE as given. -/
def sealedOnce (last : Block) : State :=
  { ccm 0 4 7 0 0 false [] with lnv := true, lastNonce := last }

/-- The nonce check: the last nonce again is refused, and one above it is not. -/
theorem witness_NonceClauses :
    ((sealedOnce (bytesFrom 0x10)).ccmCfg.nchk = true ∧ (sealedOnce (bytesFrom 0x10)).lnv = true ∧
      nonceValue 7 (sealedOnce (bytesFrom 0x10)).nonce ≤
        nonceValue 7 (sealedOnce (bytesFrom 0x10)).lastNonce) ∧
    ¬ nonceValue 7 (sealedOnce zeroBlock).nonce ≤
      nonceValue 7 (blockOfList [0x10, 0x11, 0x12, 0x13, 0x14, 0x15, 0x15]) := by decide +kernel

/-- val of R365 reads the first byte as the most significant one, and no byte past the n-th. -/
theorem test_nonceValue : nonceValue 2 (blockOfList [1, 2, 3]) = 0x0102 := by decide

/-- The empty message of the spec's vectors, TAGRAW = 1: its tag matches, and the zero tag of reset
does not. -/
theorem witness_CcmopenReleasesOnlyOnMatch :
    (∀ i, i < 16 → blockByte (blockOfList [0xd8, 0xc9, 0x92, 0xf7, 0xe1, 0xe2, 0x6e, 0xf7, 0x6d, 0xaf,
      0x0d, 0x9f, 0x30, 0x23, 0x1f, 0x18]) i =
      blockByte (encryptBlock (ccm 0 16 13 0 0 true []).rk
        (firstBlock 16 (ccm 0 16 13 0 0 true []).nonceBytes [] [])) i) ∧
    (ccm 0 16 13 0 0 true []).tag = zeroBlock := by decide +kernel

theorem witness_CcmopenUndoesCcmseal :
    ∃ t u, exec .ccmseal (ccm 0 16 13 1000 24 false [1]) = .next t ∧ t.errCode = .ok ∧
      exec .ccmopen t = .next u := by
  refine ⟨finish .ok (sealState (ccm 0 16 13 1000 24 false [1])), ?_⟩
  obtain ⟨u, hu⟩ := exec_next .ccmopen (finish .ok (sealState (ccm 0 16 13 1000 24 false [1])))
  exact ⟨u, by rfl, rfl, hu⟩

theorem witness_RepeatedNonceIsRefused :
    ∃ t u v, (ccm 0 16 13 0 0 false []).ccmCfg.nchk = true ∧
      exec .ccmseal (ccm 0 16 13 0 0 false []) = .next t ∧ t.errCode = .ok ∧
      exec .aeskey t = .next u ∧ exec .ccmseal u = .next v := by
  obtain ⟨v, hv⟩ := exec_next .ccmseal
    (after .aeskey (finish .ok (sealState (ccm 0 16 13 0 0 false []))))
  exact ⟨finish .ok (sealState (ccm 0 16 13 0 0 false [])), _, v, rfl, by rfl, rfl, rfl, hv⟩

theorem witness_ErrorsArePrecise : (after .ccmseal State.reset).errCode = .noKey := by decide

/-- A busy state with a key, data in MSGBUF and an error behind it meets the invariant. -/
theorem witness_StepKeepsTheInvariant : Invariant (busyState [.engine]) ∧
    ∃ t, step (busyState [.engine]) = .next t := by
  refine ⟨⟨by decide, by decide +kernel, by decide +kernel, by decide +kernel, rfl, by decide, ?_,
    ?_⟩, _, rfl⟩
  · intro w hw
    obtain rfl : (0x21310 : Word) = w := by simpa [busyState] using hw
    exact ⟨rfl, rfl⟩
  · intro h
    simp [busyState] at h

/-- Each clause of the refused accesses at its first and last offset, and the five registers that
stay open while the engine is busy. -/
theorem witness_RefusedAccessesHaveNoEffect :
    (∀ off ∈ [0x090, 0x1f8, 0x9c0, 0xff8, 0x1400, 0x1ff8, 0x004, 0x3ff],
      (hostAccess (.read off 8) State.reset).response = some .error) ∧
    (hostAccess (.read 0x008 4) State.reset).response = some .error ∧
    (∀ off ∈ [0x028, 0x088, 0x200, 0x9b8, 0x1000, 0x13f8],
      (hostAccess (.read off 8) (busyState [])).response = some .error ∧
      (hostAccess (.read off 8) State.reset).response ≠ some .error) ∧
    (∀ off ∈ [0x000, 0x008, 0x010, 0x018, 0x020],
      (hostAccess (.read off 8) (busyState [])).response ≠ some .error) := by decide +kernel

/-- What a word of the reset state reads as after a write of another. -/
def readAfterWrite (off o : Nat) (v : Word) : Option Response :=
  (hostAccess (.read o 8) (hostAccess (.write off 8 v) State.reset)).response

/-- Each clause of the read-back at its first and last offset, at L = 1. -/
theorem witness_RegistersReadBack :
    (∀ off ∈ [0x200, 0x980, 0x010, 0x050, 0x078, 0x1000, 0x13f8],
      readAfterWrite off off 0xfedcba9876543210 = some (.readOkay 0xfedcba9876543210)) ∧
    (∀ off ∈ [0x208, 0x9b8, 0x040, 0x048, 0x020, 0x080, 0x088],
      readAfterWrite off off 0xfedcba9876543210 = some (.readOkay 0)) ∧
    State.reset.busy = false := by decide +kernel

/-- The clauses of the registers with reserved bits, and of those that ignore writes. -/
theorem witness_RegistersReadBack_fields :
    readAfterWrite 0x018 0x018 0xffffffffffffffff = some (.readOkay 0x7) ∧
    readAfterWrite 0x028 0x028 0xffffffffffffffff = some (.readOkay 0x30f1f) ∧
    readAfterWrite 0x030 0x030 0xffffffffffffffff = some (.readOkay 0xffff) ∧
    readAfterWrite 0x038 0x038 0xffffffffffffffff = some (.readOkay 0xffff) ∧
    readAfterWrite 0x000 0x000 0xffffffffffffffff = some (.readOkay 0x4545474300000101) ∧
    readAfterWrite 0x008 0x008 0xffffffffffffffff = some (.readOkay 0) := by decide +kernel

/-- The frame at the edges of the blocks, and the bytes that a write to AES_KEY stores. -/
theorem witness_RegistersReadBack_frame :
    (∀ p ∈ [(0x200, 0x240), (0x5c0, 0x600), (0x13f8, 0x1000), (0x040, 0x050), (0x018, 0x020)],
      readAfterWrite p.1 p.2 0xfedcba9876543210 = some (.readOkay 0)) ∧
    (hostAccess (.write 0x048 8 0x0807060504030201) State.reset).aesKey =
      blockOfList [0, 0, 0, 0, 0, 0, 0, 0, 1, 2, 3, 4, 5, 6, 7, 8] := by decide +kernel

/-- A word in each part of the window, where R88 puts it. -/
theorem witness_WindowIsLittleEndian : (curve G { x := 2, y := 4, z := 8 }).busy = false ∧
    (∀ p ∈ ([(0x600, 3), (0x640, 6), (0x680, 1), (0x6c0, 2), (0x700, 4), (0x740, 8), (0x900, 97),
        (0x940, 2), (0x980, 3)] : List (Nat × Word)),
      (hostAccess (.read p.1 8) (curve G { x := 2, y := 4, z := 8 })).response =
        some (.readOkay p.2)) := by decide +kernel

theorem witness_IdAndStatusFields : State.reset.busy = false := rfl

theorem witness_CmdWriteAcceptsOrOverruns : State.reset.busy = false ∧
    (busyState []).busy = true := by decide

end Sys2Proof.Tests
end

section
/-! PROOFS. The invariant of the machine: it holds at reset and every step keeps it.  Its clauses on
stored data (`Stored`) are followed through the bodies of the commands; its clauses on the reports
come from the shared end of every command. -/

namespace Sys2Proof.Machine

/-! ## The clauses on stored data -/

/-- The clauses of `Invariant` that a command's body can touch: MSGBUF, the wide registers, and the
key state.  The other clauses are about the reports, which only accept and completion write. -/
structure Stored (s : State) : Prop where
  msgbuf : Memory.wf s.msgbuf
  slots  : ∀ i : Slot, s.slots[i].toNat < 2 ^ s.width
  points : ∀ i : PointIx, s.points[i].x.toNat < 2 ^ s.width ∧
    s.points[i].y.toNat < 2 ^ s.width ∧ s.points[i].z.toNat < 2 ^ s.width
  curve  : s.cp.toNat < 2 ^ s.width ∧ s.ca.toNat < 2 ^ s.width ∧ s.cb.toNat < 2 ^ s.width
  noKey  : s.keyValid = false → s.rk = Vector.replicate 44 0 ∧ s.lnv = false

theorem Invariant.stored {s : State} (h : Invariant s) : Stored s :=
  { h with }

/-- A property of all entries survives a write of one entry that has it. -/
theorem forall_getElem_set {α : Type} {n : Nat} {P : α → Prop} {xs : Vector α n}
    (h : ∀ i : Fin n, P xs[i]) (d : Fin n) {x : α} (hx : P x) :
    ∀ i : Fin n, P (xs.set d x)[i] := by
  intro i
  by_cases e : d.val = i.val
  · simpa [Fin.getElem_fin, e] using hx
  · simpa [Fin.getElem_fin, e] using h i

/-- The three coordinates of a point register are below `B`. -/
abbrev PointReg.Below (B : Nat) (P : PointReg) : Prop :=
  P.x.toNat < B ∧ P.y.toNat < B ∧ P.z.toNat < B

/-! ### What the bodies write -/

theorem Stored.setSlot {s : State} (h : Stored s) (d : Slot) (v : Nat) : Stored (s.setSlot d v) :=
  { h with
    slots := forall_getElem_set (P := fun x : Wide => x.toNat < 2 ^ s.width) h.slots d
      (wideOf_toNat_lt s.config v) }

theorem Stored.setPoint {s : State} (h : Stored s) (d : PointIx) (P : Triple) :
    Stored (s.setPoint d P) :=
  { h with
    points := forall_getElem_set (P := PointReg.Below (2 ^ s.width)) h.points d
      ⟨wideOf_toNat_lt s.config P.x, wideOf_toNat_lt s.config P.y, wideOf_toNat_lt s.config P.z⟩ }

theorem Stored.setFlags {s : State} (h : Stored s) (f : Flags) : Stored { s with flags := f } :=
  { h with }

theorem Stored.setAesData {s : State} (h : Stored s) (b : Block) :
    Stored { s with aesData := b } :=
  { h with }

theorem Stored.writePoint {s : State} (h : Stored s) (d : PointIx) (P : Triple) :
    Stored (writePoint d P s) := (h.setPoint d P).setFlags _

theorem Stored.finish {s : State} (h : Stored s) (c : ErrorCode) : Stored (finish c s) :=
  { h with }

/-- A write to the payload region keeps MSGBUF in form: R362's check puts the region inside it. -/
theorem Stored.writePayload {s : State} (h : Stored s) (hc : s.ccmConfigOk = true)
    {bs : List Byte} (hb : bs.length = s.payLen) :
    Stored { s with msgbuf := Memory.writeRange s.msgbuf s.adLen bs } := by
  obtain ⟨-, -, -, hlen⟩ := (ccmConfigOk_iff s).mp hc
  exact { h with msgbuf := writeRange_wf h.msgbuf bs (hb ▸ hlen) }

theorem zero_toNat_lt (n : Nat) : (0 : Wide).toNat < 2 ^ n := by
  rw [BitVec.ofNat_eq_ofNat, BitVec.toNat_zero]
  exact Nat.two_pow_pos n

theorem stored_zeroizeState (s : State) : Stored (zeroizeState s) where
  msgbuf := ⟨.nil, by simp [zeroizeState]⟩
  slots := fun i => by
    simpa only [zeroizeState, Fin.getElem_fin, Vector.getElem_replicate] using zero_toNat_lt _
  points := fun i => by
    simp only [zeroizeState, Fin.getElem_fin, Vector.getElem_replicate]
    exact ⟨zero_toNat_lt _, zero_toNat_lt _, zero_toNat_lt _⟩
  curve := ⟨zero_toNat_lt _, zero_toNat_lt _, zero_toNat_lt _⟩
  noKey := fun _ => ⟨rfl, rfl⟩

theorem Stored.loadKey {s : State} (h : Stored s) (rk : Vector KeyWord 44) :
    Stored { s with rk := rk, keyValid := true, lnv := false } :=
  { h with noKey := fun e => Bool.noConfusion e }

theorem Stored.sealState {s : State} (h : Stored s) (hk : s.keyValid = true)
    (hc : s.ccmConfigOk = true) : Stored (sealState s) :=
  have w := h.writePayload hc (bs := xorBytes s.payload (keystream s.rk s.nonceBytes s.payLen))
    (by simp)
  { w with noKey := fun e => Bool.noConfusion (hk.symm.trans e) }

/-! ### Every command -/

/-- The outcome is a next state whose stored data are in form, if it is a next state. -/
def LeavesStored (r : Result) : Prop := ∀ t, r = .next t → Stored t

theorem leavesStored_completeOk {u : State} (h : Stored u) : LeavesStored (completeOk u) := by
  rintro _ ⟨⟩
  exact h.finish .ok

theorem leavesStored_raiseError {u : State} (h : Stored u) (c : ErrorCode) :
    LeavesStored (raiseError c u) := by
  rintro _ ⟨⟩
  exact h.finish c

/-- A meaning that makes a check leaves the stored data in form when both its branches do. -/
theorem leavesStored_ite {p : Prop} [Decidable p] {a b : Result} (ha : p → LeavesStored a)
    (hb : ¬ p → LeavesStored b) : LeavesStored (if p then a else b) := by
  split
  · exact ha ‹_›
  · exact hb ‹_›

theorem leavesStored_execCcmseal {s : State} (h : Stored s) : LeavesStored (execCcmseal s) :=
  leavesStored_ite (fun _ => leavesStored_raiseError h _) fun hk =>
  leavesStored_ite (fun _ => leavesStored_raiseError h _) fun hc =>
  leavesStored_ite (fun _ => leavesStored_raiseError h _) fun _ =>
    leavesStored_completeOk (h.sealState (by simpa using hk) (by simpa using hc))

theorem leavesStored_execCcmopen {s : State} (h : Stored s) : LeavesStored (execCcmopen s) :=
  leavesStored_ite (fun _ => leavesStored_raiseError h _) fun _ =>
  leavesStored_ite (fun _ => leavesStored_raiseError h _) fun hc =>
  have hc : s.ccmConfigOk = true := by simpa using hc
  leavesStored_ite
    (fun _ => leavesStored_completeOk (h.writePayload hc (by simp [State.openedPayload])))
    fun _ => leavesStored_raiseError (h.writePayload hc (by simp)) _

/-- AESER and AESDR: the two checks, then a write of AES_DATA. -/
theorem leavesStored_aesRound {s : State} (h : Stored s) {n : Nat} (f : n < 11 → Block) :
    LeavesStored (if hn : n < 11 then
        if s.keyValid then completeOk { s with aesData := f hn } else raiseError .noKey s
      else raiseError .operand s) := by
  split
  · exact leavesStored_ite (fun _ => leavesStored_completeOk (h.setAesData _))
      fun _ => leavesStored_raiseError h _
  · exact leavesStored_raiseError h _

/-- Every command keeps the stored data in form. -/
theorem exec_leavesStored (i : Instr) {s : State} (h : Stored s) : LeavesStored (exec i s) := by
  have raised (c : ErrorCode) : LeavesStored (raiseError c s) := leavesStored_raiseError h c
  have slot (d : Slot) (v : Nat) : LeavesStored (completeOk (s.setSlot d v)) :=
    leavesStored_completeOk (h.setSlot d v)
  have slotFlag (d : Slot) (v : Nat) (f : Flags) :
      LeavesStored (completeOk { s.setSlot d v with flags := f }) :=
    leavesStored_completeOk ((h.setSlot d v).setFlags f)
  have slots (d e : Slot) (v w : Nat) :
      LeavesStored (completeOk ((s.setSlot d v).setSlot e w)) :=
    leavesStored_completeOk ((h.setSlot d v).setSlot e w)
  have point (d : PointIx) (P : Triple) : LeavesStored (completeOk (writePoint d P s)) :=
    leavesStored_completeOk (h.writePoint d P)
  have data (b : Block) : LeavesStored (completeOk { s with aesData := b }) :=
    leavesStored_completeOk (h.setAesData b)
  cases i with
  | nop => exact leavesStored_completeOk h
  | zeroize => exact leavesStored_completeOk (stored_zeroizeState s)
  | mov | cmov | shl | shr | addmod | submod => exact slot _ _
  | add | sub | cmpeq | cmplt | getbit => exact slotFlag _ _ _
  | mul => exact leavesStored_ite (fun _ => raised _) fun _ => slots _ _ _ _
  | divmod =>
    exact leavesStored_ite (fun _ => raised _) fun _ =>
      leavesStored_ite (fun _ => raised _) fun _ => slots _ _ _ _
  | modred | modexp | modinv | montsetup | montmul | tomont | frommont =>
    exact leavesStored_ite (fun _ => raised _) fun _ => slot _ _
  | pinf => exact point _ _
  | pmov d a => exact leavesStored_completeOk (h.setPoint d (s.point a))
  | pneg | pdbl | padd | pmul | paff =>
    exact leavesStored_ite (fun _ => point _ _) fun _ => raised _
  | pvalid =>
    exact leavesStored_ite (fun _ => leavesStored_completeOk (h.setFlags _)) fun _ => raised _
  | aeskey => exact leavesStored_completeOk (h.loadKey _)
  | aesenc | aesdec => exact leavesStored_ite (fun _ => data _) fun _ => raised _
  | aeser r => exact leavesStored_aesRound h fun hr => encRound s.rk ⟨r.toNat, hr⟩ s.aesData
  | aesdr r => exact leavesStored_aesRound h fun hr => decRound s.rk ⟨r.toNat, hr⟩ s.aesData
  | ccmseal => exact leavesStored_execCcmseal h
  | ccmopen => exact leavesStored_execCcmopen h

/-! ## The engine's step -/

/-- A completion makes the reports agree, so stored data in form and LASTOP are all that is left. -/
theorem invariant_finish {u : State} {c : ErrorCode} (h : Stored (finish c u))
    (hl : u.lastOp = u.cmd.extractLsb' 0 8) : Invariant (finish c u) :=
  { h with err := rfl, lastOp := hl, pending := fun _ hw => absurd hw (Option.some_ne_none _).symm }

theorem exec_invariant {i : Instr} {s t : State} (h : Invariant s) (ht : exec i s = .next t) :
    Invariant t := by
  have hs : Stored t := exec_leavesStored i h.stored t ht
  obtain ⟨c, u, hu, k, -⟩ := exec_shape i s
  obtain rfl : finish c u = t := Host.Outcome.next.inj (hu.symm.trans ht)
  have hl : u.lastOp = u.cmd.extractLsb' 0 8 := by rw [k.lastOp, k.cmd, h.lastOp]
  exact invariant_finish hs hl

theorem engineStep_invariant {s t : State} (h : Invariant s) (ht : engineStep s = .next t) :
    Invariant t := by
  cases hp : s.pending with
  | none =>
    rw [engineStep_idle hp] at ht
    cases ht
    exact h
  | some w =>
    cases hd : decode w with
    | error e =>
      rw [engineStep_error hp hd] at ht
      cases ht
      exact invariant_finish (h.stored.finish _) h.lastOp
    | ok i => exact exec_invariant h ((engineStep_ok hp hd).symm.trans ht)

/-! ## A host access -/

/-- The invariant says nothing of the events to come or of the last response. -/
theorem Invariant.withSchedule {s : State} (h : Invariant s) (l : List Turn) :
    Invariant { s with schedule := l } :=
  { h with }

theorem Invariant.withResponse {s : State} (h : Invariant s) (x : Option Response) :
    Invariant { s with response := x } :=
  { h with }

theorem Invariant.accept {s : State} (h : Invariant s) (w : Word) : Invariant (accept w s) :=
  { h with
    err := rfl, lastOp := rfl, pending := fun _ hw => ⟨(Option.some.inj hw).symm, rfl⟩ }

/-- A point register's limbs at and above L stay 0 when a coordinate with zeros there goes in. -/
theorem PointReg.Below.setCoordinate {B : Nat} {P : PointReg} (h : P.Below B) (c : Fin 3)
    {x : Wide} (hx : x.toNat < B) : (setCoordinate P c x).Below B := by
  obtain ⟨h1, h2, h3⟩ := h
  fin_cases c
  · exact ⟨hx, h2, h3⟩
  · exact ⟨h1, hx, h3⟩
  · exact ⟨h1, h2, hx⟩

theorem PointReg.Below.coordinate {B : Nat} {P : PointReg} (h : P.Below B) (c : Fin 3) :
    (coordinate P c).toNat < B := by
  obtain ⟨h1, h2, h3⟩ := h
  fin_cases c
  · exact h1
  · exact h2
  · exact h3

theorem setMsgWord_wf {m : Memory} (h : m.wf) (k : Fin 128) (v : Word) :
    Memory.wf (setMsgWord m k v) := by
  refine writeRange_wf h _ ?_
  have hk := k.isLt
  simp only [List.length_map, List.length_range, Config.msgbufBytes]
  omega

theorem writeReg_invariant {s : State} (h : Invariant s) (r : Reg) (v : Word) :
    Invariant (writeReg s r v) := by
  have wide {x : Wide} (hx : x.toNat < 2 ^ s.width) (j : Nat) :
      (setWideLimb s.config x j v).toNat < 2 ^ s.width := setWideLimb_toNat_lt s.config x j v hx
  obtain ⟨hp, ha, hb⟩ := h.curve
  cases r with
  | cmd =>
    simp only [writeReg]
    split
    · exact { h with }
    · exact h.accept v
  | slot i j =>
    exact { h with
      slots := forall_getElem_set (P := fun x : Wide => x.toNat < 2 ^ s.width) h.slots i
        (wide (h.slots i) j) }
  | point i c j =>
    have hi : PointReg.Below (2 ^ s.width) s.points[i] := h.points i
    exact { h with
      points := forall_getElem_set (P := PointReg.Below (2 ^ s.width)) h.points i
        (hi.setCoordinate c (wide (hi.coordinate c) j)) }
  | cp j => exact { h with curve := ⟨wide hp j, ha, hb⟩ }
  | ca j => exact { h with curve := ⟨hp, wide ha j, hb⟩ }
  | cb j => exact { h with curve := ⟨hp, ha, wide hb j⟩ }
  | msgbuf k => exact { h with msgbuf := setMsgWord_wf h.msgbuf k v }
  | _ => exact { h with }

theorem hostAccess_invariant {s : State} (h : Invariant s) (a : Access) :
    Invariant (hostAccess a s) := by
  cases a with
  | read addr bytes =>
    simp only [hostAccess]
    split
    · exact h
    · split
      · exact h.withResponse _
      · exact h.withResponse _
  | write addr bytes v =>
    simp only [hostAccess]
    split
    · exact h
    · split
      · exact h.withResponse _
      · exact (writeReg_invariant h _ v).withResponse _

/-! ## Reset and the step -/

/-- Reset clears the data that ZEROIZE clears (R55, R161), and its reports agree. -/
theorem resetWith_invariant (c : Config) : Invariant (State.resetWith c) :=
  { stored_zeroizeState (State.resetWith c) with
    err := rfl, lastOp := rfl, pending := fun _ hw => absurd hw (Option.some_ne_none _).symm }

theorem step_invariant {s t : State} (h : Invariant s) (ht : step s = .next t) : Invariant t := by
  unfold step at ht
  split at ht
  · exact engineStep_invariant h ht
  · exact engineStep_invariant (h.withSchedule _) ht
  · cases ht
    exact hostAccess_invariant (h.withSchedule _) _
  · cases ht
    exact (resetWith_invariant s.config).withSchedule _

/-- Settles O51: engine, host and reset events each keep the invariant. -/
theorem stepKeepsTheInvariant : Obligations.StepKeepsTheInvariant :=
  fun _ _ h ht => step_invariant h ht

/-- Settles O52. -/
theorem resetMeetsTheInvariant : Obligations.ResetMeetsTheInvariant := resetWith_invariant

end Sys2Proof.Machine
end

section
/-! PROOFS. The register window: what a write leaves to read, that key material is unreadable, and
the fields of the control words. -/

namespace Sys2Proof.Machine

/-! ## The address map -/

theorem offset_injective {r q : Reg} (h : r.offset = q.offset) : r = q :=
  Option.some.inj <| (regAt_offset r).symm.trans <| (congrArg regAt h).trans (regAt_offset q)

theorem offset_of_served {s : State} {off bytes : Nat} {r : Reg} (h : served s off bytes = some r) :
    r.offset = off := by
  rw [served] at h
  split at h
  · rename_i hb
    cases hq : regAt off with
    | none => simp [hq] at h
    | some q =>
      obtain ⟨-, rfl⟩ : _ ∧ q = r := by simpa [hq] using h
      exact offset_of_regAt hb.2 hq
  · simp at h

/-- Whether an access is served depends on the state only through BUSY (R85). -/
theorem served_congr {s t : State} (h : t.pending = s.pending) (off bytes : Nat) :
    served t off bytes = served s off bytes := by
  have hb : t.busy = s.busy := congrArg Option.isSome h
  rw [served, served, hb]

theorem reserved_words : ∀ k < 0x280, regAt (8 * k) = none →
    (0x12 ≤ k ∧ k < 0x40) ∨ (0x138 ≤ k ∧ k < 0x200) := by
  decide +kernel

/-- The aligned offsets that the map reserves (R84, R88). -/
theorem reserved_of_regAt {off : Nat} (h8 : off % 8 = 0) (h : regAt off = none) :
    (0x090 ≤ off ∧ off < 0x200) ∨ (0x9C0 ≤ off ∧ off < 0x1000) ∨ 0x1400 ≤ off := by
  by_cases hb : 0x1400 ≤ off
  · exact .inr (.inr hb)
  · obtain ⟨k, rfl⟩ : ∃ k, off = 8 * k := ⟨off / 8, by omega⟩
    have := reserved_words k (by omega) h
    omega

/-! ## What a word reads as after a write to it -/

/-- Limb j of a wide register after a write to it: the limbs at and above L ignore it (R83). -/
theorem wideLimb_setWideLimb_self (c : Config) (x : Wide) (j : Nat) (v : Word) :
    wideLimb c (setWideLimb c x j v) j = if j < c.limbs then v else 0 := by
  by_cases h : j < c.limbs
  · rw [wideLimb_setWideLimb c x j j v h, if_pos rfl, if_pos h]
  · rw [wideLimb, if_neg h, if_neg h]

/-- S, PT, CP, CA and CB read back limb by limb (R44-R46, R83). -/
theorem readReg_writeReg_limb (s : State) {r : Reg} (v : Word) (h : 0x200 ≤ r.offset)
    (h' : r.offset < 0x9C0) : readReg (writeReg s r v) r =
      if r.offset % 0x40 / 8 < s.config.limbs then v else 0 := by
  cases r with
  | slot i j =>
    have e : (0x200 + 0x40 * i.val + 8 * j.val) % 0x40 / 8 = j := by omega
    simp only [readReg, writeReg, Reg.offset, e, Fin.getElem_fin, Vector.getElem_set_self,
      wideLimb_setWideLimb_self]
  | point i c j =>
    have e : (0x600 + 0xC0 * i.val + 0x40 * c.val + 8 * j.val) % 0x40 / 8 = j := by omega
    simp only [readReg, writeReg, Reg.offset, e, Fin.getElem_fin, Vector.getElem_set_self,
      coordinate_setCoordinate, if_true, wideLimb_setWideLimb_self]
  | cp j | ca j | cb j =>
    simp only [readReg, writeReg, Reg.offset, wideLimb_setWideLimb_self]
    congr 2
    omega
  | _ => simp only [Reg.offset] at h h'; omega

/-- CMD of an idle engine, AES_DATA, NONCE, TAG and MSGBUF read back as written (R33, R40-R42,
R47). -/
theorem readReg_writeReg_whole {s : State} {r : Reg} (v : Word) (hb : s.busy = false)
    (h : r.offset = 0x010 ∨ (0x050 ≤ r.offset ∧ r.offset < 0x080) ∨
      (0x1000 ≤ r.offset ∧ r.offset < 0x1400)) : readReg (writeReg s r v) r = v := by
  cases r with
  | cmd => simp [readReg, writeReg, hb]
  | aesData k => exact (blockWord_setBlockWord s.aesData k k v).trans (if_pos rfl)
  | nonce k => exact (blockWord_setBlockWord s.nonce k k v).trans (if_pos rfl)
  | tag k => exact (blockWord_setBlockWord s.tag k k v).trans (if_pos rfl)
  | msgbuf k => exact (msgWord_setMsgWord s.msgbuf k k v).trans (if_pos rfl)
  | _ => simp only [Reg.offset] at h; omega

/-- AES_KEY reads 0, and a write stores its eight bytes (R39, R82, R87). -/
theorem writeReg_aesKey {s : State} {r : Reg} (v : Word) (h : 0x040 ≤ r.offset)
    (h' : r.offset < 0x050) : readReg (writeReg s r v) r = 0 ∧
      ∀ j, j < 16 → blockByte (writeReg s r v).aesKey j =
        if r.offset ≤ 0x040 + j ∧ 0x040 + j < r.offset + 8 then v.extractLsb' (8 * (j % 8)) 8
        else blockByte s.aesKey j := by
  cases r with
  | aesKey k =>
    refine ⟨rfl, fun j hj => ?_⟩
    have e : (0x040 + 8 * k.val ≤ 0x040 + j ∧ 0x040 + j < 0x040 + 8 * k.val + 8) = (j / 8 = k) :=
      propext (by omega)
    simp only [Reg.offset, writeReg, blockByte_setBlockWord _ _ _ _ hj, e, wordByte]
  | _ => simp only [Reg.offset] at h h'; omega

theorem writeReg_aesKey_of_not {s : State} {r : Reg} (v : Word)
    (h : ¬ (0x040 ≤ r.offset ∧ r.offset < 0x050)) : (writeReg s r v).aesKey = s.aesKey := by
  cases r with
  | aesKey k => simp only [Reg.offset] at h; omega
  | cmd => simp only [writeReg]; split <;> rfl
  | _ => rfl

/-- ID, STATUS and LAST_NONCE ignore writes (R31, R32, R43, R87). -/
theorem writeReg_readOnly {s : State} {r : Reg} (v : Word)
    (h : r.offset = 0x000 ∨ r.offset = 0x008 ∨ (0x080 ≤ r.offset ∧ r.offset < 0x090)) :
    writeReg s r v = s := by
  cases r with
  | id | status | lastNonce => rfl
  | _ => simp only [Reg.offset] at h; omega

/-! ### Words with reserved bits, bit by bit -/

theorem getLsbD_bitOf (b : Bool) (i : Nat) : (bitOf b).getLsbD i = (decide (i = 0) && b) := by
  cases b <;> simp [bitOf]

theorem getLsbD_irqWord (b : IrqBits) {i : Nat} (hi : i < 64) : (irqWord b).getLsbD i =
    ((i == 0 && b.done) || (i == 1 && b.err) || (i == 2 && b.ovr)) := by
  simp only [irqWord, BitVec.getLsbD_append, getLsbD_bitOf]
  interval_cases i <;> simp

/-- IRQ_EN keeps the used bits of what is written (R34). -/
theorem irqWord_irqEnOf (v : Word) : irqWord (irqEnOf v) = v &&& 0x7 := by
  apply BitVec.eq_of_getLsbD_eq
  intro i hi
  rw [getLsbD_irqWord _ hi, BitVec.getLsbD_and, irqEnOf]
  interval_cases i <;> simp

/-- IRQ_STATUS keeps the bits that are not written as 1 (R35). -/
theorem irqWord_irqClear (b : IrqBits) (v : Word) :
    irqWord (irqClear b v) = irqWord b &&& ~~~v := by
  apply BitVec.eq_of_getLsbD_eq
  intro i hi
  rw [BitVec.getLsbD_and, getLsbD_irqWord _ hi, getLsbD_irqWord _ hi, BitVec.getLsbD_not, irqClear]
  interval_cases i <;> simp

/-- CCM_CFG keeps the used bits of what is written (R36). -/
theorem ccmCfgWord_ccmCfgOf (v : Word) : ccmCfgWord (ccmCfgOf v) = v &&& 0x30F1F := by
  apply BitVec.eq_of_getLsbD_eq
  intro i hi
  simp only [ccmCfgWord, ccmCfgOf, BitVec.getLsbD_append, getLsbD_bitOf, BitVec.getLsbD_extractLsb',
    BitVec.getLsbD_and]
  interval_cases i <;> simp

/-- CCM_ALEN and CCM_PLEN keep the used bits of what is written (R37, R38). -/
theorem setWidth_extractLsb'_16 (v : Word) : (v.extractLsb' 0 16).setWidth 64 = v &&& 0xFFFF := by
  apply BitVec.eq_of_getLsbD_eq
  intro i hi
  rw [BitVec.getLsbD_setWidth, BitVec.getLsbD_extractLsb', BitVec.getLsbD_and]
  interval_cases i <;> simp

/-! ## A write at an offset of an idle engine -/

/-- A write to a word that is open is done and answered OKAY. -/
theorem hostAccess_write_of_open {s : State} {r : Reg}
    (h : s.busy = false ∨ r.openWhileBusy = true) (v : Word) :
    hostAccess (.write (s.config.base + r.offset) 8 v) s =
      { writeReg s r v with response := some .writeOkay } := by
  rw [hostAccess_write (offset_lt r), served_offset h]

/-- A write to a reserved offset is answered ERROR and changes nothing (R84). -/
theorem hostAccess_write_reserved {s : State} {off : Nat} (hlt : off < 0x2000)
    (h : regAt off = none) (v : Word) :
    hostAccess (.write (s.config.base + off) 8 v) s = { s with response := some .error } := by
  have hs : served s off 8 = none := by simp [served, h]
  rw [hostAccess_write hlt, hs]

theorem read_response {s t : State} {r : Reg} (hc : t.config = s.config)
    (ho : t.busy = false ∨ r.openWhileBusy = true) :
    (hostAccess (.read (s.config.base + r.offset) 8) t).response =
      some (.readOkay (readReg t r)) := by
  rw [← hc]
  exact congrArg State.response (reads_of_open ho)

/-- A write leaves its own word open: only CMD makes the engine busy, and CMD stays open (R85). -/
theorem read_after_write {s : State} (hb : s.busy = false) (r : Reg) (v : Word) :
    (hostAccess (.read (s.config.base + r.offset) 8)
      (hostAccess (.write (s.config.base + r.offset) 8 v) s)).response =
      some (.readOkay (readReg (writeReg s r v) r)) := by
  have ho : (writeReg s r v).busy = false ∨ r.openWhileBusy = true := by
    by_cases hc : r = .cmd
    · exact .inr (hc ▸ rfl)
    · exact .inl (by rw [State.busy, writeReg_pending hc]; exact hb)
  rw [hostAccess_write_of_open (.inl hb), ← readReg_response (writeReg s r v) (some .writeOkay)]
  exact read_response (writeReg_config s r v) ho

/-- A read answers alike in two states that are busy alike and show the same word there. -/
theorem read_response_congr {s t : State} {off : Nat} (hlt : off < 0x2000)
    (hc : t.config = s.config) (hp : t.pending = s.pending)
    (h : ∀ q : Reg, q.offset = off → readReg t q = readReg s q) :
    (hostAccess (.read (s.config.base + off) 8) t).response =
      (hostAccess (.read (s.config.base + off) 8) s).response := by
  rw [hostAccess_read hlt, ← hc, hostAccess_read hlt, served_congr hp]
  cases hs : served s off 8 with
  | none => rfl
  | some q => simp only [h q (offset_of_served hs)]

/-- After a write other than to CMD, a read at any other offset answers as before (R86), but for
STATUS after IRQ_STATUS. -/
theorem read_other_after_write {s : State} {r : Reg} (v : Word) (hc : r ≠ .cmd) {o : Nat}
    (ho : o < 0x2000) (hne : o ≠ r.offset) (hs : ¬ (r.offset = 0x020 ∧ o = 0x008)) :
    (hostAccess (.read (s.config.base + o) 8)
      { writeReg s r v with response := some .writeOkay }).response =
      (hostAccess (.read (s.config.base + o) 8) s).response := by
  refine read_response_congr ho (writeReg_config s r v) (writeReg_pending hc) fun q hq => ?_
  have hqr : q ≠ r := fun e => hne (by rw [← hq, e])
  have hmirror : ¬ (r = .irqStatus ∧ q = .status) := by
    rintro ⟨rfl, rfl⟩
    exact hs ⟨rfl, hq.symm⟩
  exact (readReg_response _ _ q).trans (readReg_writeReg_of_ne hc hqr hmirror)

/-- Settles O54: a reserved offset leaves the state as it was; at every other the write is one of a
register word, and each clause of the statement is the lemma on the registers it names. -/
theorem registersReadBack : Obligations.RegistersReadBack := by
  intro s off v hb hlt h8
  refine ⟨_, _, rfl, rfl, ?_⟩
  cases hr : regAt off with
  | none =>
    rw [hostAccess_write_reserved hlt hr]
    have hres := reserved_of_regAt h8 hr
    refine ⟨by omega, by omega, by omega, by omega, by omega, by omega, by omega, by omega,
      fun _ => ⟨fun o ho _ _ => ?_, fun _ => rfl, rfl, rfl, rfl, rfl⟩⟩
    exact read_response_congr ho rfl rfl fun q _ => readReg_response s _ q
  | some r =>
    obtain rfl := offset_of_regAt h8 hr
    rw [read_after_write hb, hostAccess_write_of_open (.inl hb)]
    have reg {q : Reg} (h : r.offset = q.offset) : r = q := offset_injective h
    have okay {a b : Word} (h : a = b) : some (Response.readOkay a) = some (.readOkay b) := by rw [h]
    refine ⟨fun ⟨lo, hi⟩ => okay (readReg_writeReg_limb s v lo hi),
      fun h => okay (readReg_writeReg_whole v hb h), fun ⟨lo, hi⟩ => ?aesKey, fun h => ?irqEn,
      fun h => ?irqStatus, fun h => ?ccmCfg, fun h => ?ccmLengths, fun h => ?readOnly,
      fun h => ?others⟩
    case aesKey =>
      obtain ⟨reads, stores⟩ := writeReg_aesKey (s := s) v lo hi
      exact ⟨okay reads, stores⟩
    case irqEn =>
      obtain rfl := reg (q := .irqEn) h
      exact okay (irqWord_irqEnOf v)
    case irqStatus =>
      obtain rfl := reg (q := .irqStatus) h
      exact ⟨irqWord s.irqStatus, reads_of_open (r := .irqStatus) (.inr rfl),
        okay (irqWord_irqClear s.irqStatus v)⟩
    case ccmCfg =>
      obtain rfl := reg (q := .ccmCfg) h
      exact okay (ccmCfgWord_ccmCfgOf v)
    case ccmLengths =>
      rcases h with h | h
      · obtain rfl := reg (q := .ccmAlen) h
        exact okay (setWidth_extractLsb'_16 v)
      · obtain rfl := reg (q := .ccmPlen) h
        exact okay (setWidth_extractLsb'_16 v)
    case readOnly => rw [writeReg_readOnly v h]
    case others =>
      have hc : r ≠ .cmd := fun e => h (by rw [e]; rfl)
      exact ⟨fun o ho hne hs => read_other_after_write v hc ho hne hs, writeReg_aesKey_of_not v,
        writeReg_rk s r v, writeReg_pending hc, writeReg_config s r v, writeReg_schedule s r v⟩

/-! ## Key material -/

/-- No register word shows AES_KEY or the schedule (R39, R48). -/
theorem readReg_keys (s : State) (key : Block) (rk : Vector KeyWord 44) (r : Reg) :
    readReg { s with aesKey := key, rk := rk } r = readReg s r := by
  cases r <;> rfl

/-- A write goes alike whatever the keys are; only a write to AES_KEY touches them. -/
theorem writeReg_keys (s : State) (key : Block) (rk : Vector KeyWord 44) (r : Reg) (v : Word) :
    ∃ key', writeReg { s with aesKey := key, rk := rk } r v =
      { writeReg s r v with aesKey := key', rk := rk } := by
  cases r with
  | aesKey h => exact ⟨setBlockWord key h v, rfl⟩
  | cmd =>
    refine ⟨key, ?_⟩
    cases hp : s.pending <;> simp [writeReg, State.busy, hp, accept, overrun]
  | _ => exact ⟨key, rfl⟩

/-- Settles O56: whether an access is served does not depend on the keys, nor what it reads or
writes. -/
theorem keyMaterialIsUnreadable : Obligations.KeyMaterialIsUnreadable := by
  intro s key rk a
  have hserved (off bytes : Nat) := served_congr (s := s) (t := { s with aesKey := key, rk := rk })
    rfl off bytes
  cases a with
  | read addr bytes =>
    simp only [hostAccess, hserved, readReg_keys]
    split
    · exact ⟨rfl, key, rfl⟩
    · split <;> exact ⟨rfl, key, rfl⟩
  | write addr bytes v =>
    simp only [hostAccess, hserved]
    split
    · exact ⟨rfl, key, rfl⟩
    · split
      · exact ⟨rfl, key, rfl⟩
      · rename_i r _
        obtain ⟨key', hw⟩ := writeReg_keys s key rk r v
        exact ⟨rfl, key', by rw [hw]⟩

/-! ## The control words, field by field -/

/-- ID: MAGIC, LIMBS and REV (R31). -/
theorem idWord_eq (s : State) :
    idWord s = BitVec.ofNat 64 (0x4545474300000001 + 0x100 * s.config.limbs) := by
  have hL := limbs_le s.config
  rw [idWord]
  interval_cases s.config.limbs <;> rfl

/-- The one-bit fields of STATUS (R32). -/
theorem statusWord_bits (s : State) :
    (statusWord s).getLsbD 0 = s.busy ∧ (statusWord s).getLsbD 1 = s.err ∧
    (statusWord s).getLsbD 2 = s.keyValid ∧ (statusWord s).getLsbD 3 = s.lnv ∧
    (statusWord s).getLsbD 4 = s.irqStatus.ovr ∧ (statusWord s).getLsbD 8 = s.flags.carry ∧
    (statusWord s).getLsbD 9 = s.flags.bit ∧ (statusWord s).getLsbD 10 = s.flags.cmp ∧
    (statusWord s).getLsbD 11 = s.flags.inf ∧ (statusWord s).getLsbD 12 = s.flags.valid := by
  simp only [statusWord, BitVec.getLsbD_append, getLsbD_bitOf]
  simp

/-- ERRCODE, LASTOP and the reserved fields of STATUS (R32). -/
theorem statusWord_fields (s : State) :
    (statusWord s).extractLsb' 5 3 = 0 ∧ (statusWord s).extractLsb' 13 3 = 0 ∧
    (statusWord s).extractLsb' 16 8 = errorNumber s.errCode ∧
    (statusWord s).extractLsb' 24 8 = s.lastOp ∧ (statusWord s).extractLsb' 32 32 = 0 := by
  refine ⟨?_, ?_, ?_, ?_, ?_⟩ <;>
  · apply BitVec.eq_of_getLsbD_eq
    intro i hi
    simp only [statusWord, BitVec.getLsbD_extractLsb', BitVec.getLsbD_append, hi, decide_true,
      Bool.true_and]
    interval_cases i <;> rfl

/-- The fields of IRQ_EN and of IRQ_STATUS (R34, R35). -/
theorem irqWord_fields (b : IrqBits) :
    (irqWord b).getLsbD 0 = b.done ∧ (irqWord b).getLsbD 1 = b.err ∧
    (irqWord b).getLsbD 2 = b.ovr ∧ (irqWord b).extractLsb' 3 61 = 0 := by
  refine ⟨?done, ?err, ?ovr, ?_⟩
  case done | err | ovr => simp only [irqWord, BitVec.getLsbD_append, getLsbD_bitOf]; simp
  apply BitVec.eq_of_getLsbD_eq
  intro i hi
  have h1 : 3 + i ≠ 1 := by omega
  have h2 : 3 + i ≠ 2 := by omega
  rw [BitVec.getLsbD_extractLsb', getLsbD_irqWord b (by omega)]
  simp [h1, h2]

/-- The fields of CCM_CFG (R36). -/
theorem ccmCfgWord_fields (c : CcmCfg) :
    (ccmCfgWord c).extractLsb' 0 5 = c.tlen ∧ (ccmCfgWord c).extractLsb' 5 3 = 0 ∧
    (ccmCfgWord c).extractLsb' 8 4 = c.nlen ∧ (ccmCfgWord c).extractLsb' 12 4 = 0 ∧
    (ccmCfgWord c).getLsbD 16 = c.nchk ∧ (ccmCfgWord c).getLsbD 17 = c.tagraw ∧
    (ccmCfgWord c).extractLsb' 18 46 = 0 := by
  refine ⟨?_, ?_, ?_, ?_, ?nchk, ?tagraw, ?_⟩
  case nchk | tagraw => simp only [ccmCfgWord, BitVec.getLsbD_append, getLsbD_bitOf]; simp
  all_goals
    apply BitVec.eq_of_getLsbD_eq
    intro i hi
    simp only [ccmCfgWord, BitVec.getLsbD_extractLsb', BitVec.getLsbD_append, hi, decide_true,
      Bool.true_and]
    interval_cases i <;> rfl

/-- Settles O59: the words are those of the views, which every read of an open register answers. -/
theorem idAndStatusFields : Obligations.IdAndStatusFields := by
  intro s
  obtain ⟨busy, err, keyValid, lnv, ovr, carry, bit, cmp, inf, valid⟩ := statusWord_bits s
  obtain ⟨rsv5, rsv13, errCode, lastOp, rsv32⟩ := statusWord_fields s
  obtain ⟨enDone, enErr, enOvr, enRsv⟩ := irqWord_fields s.irqEn
  obtain ⟨stDone, stErr, stOvr, stRsv⟩ := irqWord_fields s.irqStatus
  refine ⟨idWord s, statusWord s, irqWord s.irqEn, irqWord s.irqStatus,
    fun v => ⟨hostAccess_write_of_open (r := .id) (.inr rfl) v,
      hostAccess_write_of_open (r := .status) (.inr rfl) v⟩,
    reads_of_open (r := .id) (.inr rfl), reads_of_open (r := .status) (.inr rfl),
    reads_of_open (r := .cmd) (.inr rfl), reads_of_open (r := .irqEn) (.inr rfl),
    reads_of_open (r := .irqStatus) (.inr rfl), idWord_eq s, busy, err, keyValid, lnv, ovr, rsv5,
    carry, bit, cmp, inf, valid, rsv13, errCode, lastOp, rsv32, enDone, enErr, enOvr, enRsv,
    stDone, stErr, stOvr, stRsv, fun hb => ?_⟩
  obtain ⟨tlen, rsv5, nlen, rsv12, nchk, tagraw, rsv18⟩ := ccmCfgWord_fields s.ccmCfg
  exact ⟨ccmCfgWord s.ccmCfg, reads_of_open (r := .ccmCfg) (.inl hb), tlen, rsv5, nlen, rsv12, nchk,
    tagraw, rsv18, reads_of_open (r := .ccmAlen) (.inl hb), reads_of_open (r := .ccmPlen) (.inl hb)⟩

end Sys2Proof.Machine
end

section
/-! PROOFS. The access rules of the register window: which accesses are served, what the others
leave, and where each stored register stands. -/

namespace Sys2Proof.Machine

/-! ## Which accesses are served -/

/-- An access reaches a register word exactly when it is 8 bytes wide, at that word's offset, and the
word is not closed by BUSY (R81, R84, R85). -/
theorem served_eq_some_iff {s : State} {off bytes : Nat} {r : Reg} :
    served s off bytes = some r ↔
      bytes = 8 ∧ off = r.offset ∧ (s.busy = false ∨ r.openWhileBusy = true) := by
  constructor
  · intro h
    obtain rfl := offset_of_served h
    simpa [served, offset_aligned, regAt_offset, ← Bool.not_eq_true, ← imp_iff_not_or] using h
  · rintro ⟨rfl, rfl, h⟩
    exact served_offset h

/-- No register word stands where the map is reserved (R84, R88). -/
theorem offset_not_reserved (r : Reg) : ¬ ((0x090 ≤ r.offset ∧ r.offset < 0x200) ∨
    (0x9C0 ≤ r.offset ∧ r.offset < 0x1000) ∨ 0x1400 ≤ r.offset) := by
  cases r <;> simp only [Reg.offset] <;> omega

/-- The words that stay open while BUSY = 1 are those at the offsets of ID, STATUS, CMD, IRQ_EN and
IRQ_STATUS (R56, R85). -/
theorem openWhileBusy_iff (r : Reg) :
    r.openWhileBusy = true ↔ r.offset ∈ [0x000, 0x008, 0x010, 0x018, 0x020] := by
  cases r <;> simp [Reg.openWhileBusy, Reg.offset] <;> omega

/-- An access that is not served is answered ERROR and has no effect (R80). -/
theorem hostAccess_of_not_served {s : State} {off bytes : Nat} (hlt : off < 0x2000)
    (h : served s off bytes = none) (v : Word) :
    hostAccess (.read (s.config.base + off) bytes) s = { s with response := some .error } ∧
      hostAccess (.write (s.config.base + off) bytes v) s = { s with response := some .error } := by
  rw [hostAccess_read hlt, hostAccess_write hlt, h]
  exact ⟨rfl, rfl⟩

/-- Settles O53: a served access would name a register word at its offset, which each of the refused
cases excludes; the five open words are served in every state. -/
theorem refusedAccessesHaveNoEffect : Obligations.RefusedAccessesHaveNoEffect := by
  intro s off bytes v hlt
  refine ⟨fun refused => hostAccess_of_not_served hlt ?_ v, fun isOpen => ?_⟩
  · refine Option.eq_none_iff_forall_ne_some.mpr fun r hr => ?_
    obtain ⟨rfl, rfl, hopen⟩ := served_eq_some_iff.mp hr
    rcases refused with hwidth | halign | hres | hres | hres | ⟨hbusy, hclosed⟩
    · exact hwidth rfl
    · exact halign (offset_aligned r)
    · exact offset_not_reserved r (.inl hres)
    · exact offset_not_reserved r (.inr (.inl hres))
    · exact offset_not_reserved r (.inr (.inr hres))
    · exact hclosed ((openWhileBusy_iff r).mp (hopen.resolve_left (by simp [hbusy])))
  · obtain ⟨r, rfl⟩ : ∃ r : Reg, r.offset = off := by
      simp only [List.mem_cons, List.not_mem_nil, or_false] at isOpen
      rcases isOpen with rfl | rfl | rfl | rfl | rfl
      exacts [⟨.id, rfl⟩, ⟨.status, rfl⟩, ⟨.cmd, rfl⟩, ⟨.irqEn, rfl⟩, ⟨.irqStatus, rfl⟩]
    have hopen := (openWhileBusy_iff r).mpr isOpen
    exact ⟨⟨readReg s r, reads_of_open (.inr hopen)⟩,
      congrArg State.response (hostAccess_write_of_open (.inr hopen) v)⟩

/-! ## Where the stored registers stand -/

/-- A word that shows limb j of a wide register reads as base-2^64 digit j of its value (R83). -/
theorem reads_limb {s : State} (hb : s.busy = false) {r : Reg} {x : Wide} {j : Nat}
    (h : readReg s r = wideLimb s.config x j) :
    Reads s r.offset (BitVec.ofNat 64 (wideValue s.config x / 2 ^ (64 * j))) := by
  rw [← wideLimb_eq, ← h]
  exact reads_of_open (.inl hb)

/-- The coordinates of a point register stand 0x40 apart (R45, R88). -/
theorem reads_coordinate {s : State} (hb : s.busy = false) (i : PointIx) (c : Fin 3) (j : Fin 8) :
    Reads s (0x600 + 0x40 * c + 0xC0 * i + 8 * j)
      (BitVec.ofNat 64 (wideValue s.config (coordinate s.points[i] c) / 2 ^ (64 * j.val))) := by
  rw [show 0x600 + 0x40 * c.val + 0xC0 * i.val + 8 * j.val = (Reg.point i c j).offset by
    rw [Reg.offset]; omega]
  exact reads_limb hb rfl

/-- Settles O55: each offset of the statement is that of a register word, and the word shows a limb
of a wide register or eight bytes of a block or of MSGBUF. -/
theorem windowIsLittleEndian : Obligations.WindowIsLittleEndian := by
  intro s hb
  have word (r : Reg) : Reads s r.offset (readReg s r) := reads_of_open (.inl hb)
  refine ⟨fun j hj => ?limbs, fun h hh => ?blocks, fun m hm => ?message⟩
  case limbs =>
    let j : Fin 8 := ⟨j, hj⟩
    exact ⟨fun i => reads_limb hb (r := .slot i j) rfl,
      fun i => ⟨reads_coordinate hb i 0 j, reads_coordinate hb i 1 j, reads_coordinate hb i 2 j⟩,
      reads_limb hb (r := .cp j) rfl, reads_limb hb (r := .ca j) rfl,
      reads_limb hb (r := .cb j) rfl⟩
  case blocks =>
    let h : Fin 2 := ⟨h, hh⟩
    exact ⟨_, _, _, _, word (.aesData h), word (.nonce h), word (.tag h), word (.lastNonce h),
      fun k hk => ⟨extractLsb'_blockWord s.aesData h hk, extractLsb'_blockWord s.nonce h hk,
        extractLsb'_blockWord s.tag h hk, extractLsb'_blockWord s.lastNonce h hk⟩⟩
  case message =>
    exact ⟨_, word (.msgbuf ⟨m, hm⟩), fun k hk => extractLsb'_msgWord s.msgbuf m hk⟩

end Sys2Proof.Machine
end

section
/-! PROOFS. Encoding and decoding: they invert each other, and the decoder's checks in their order
decide the error of every word. -/

namespace Sys2Proof

/-! ## What a row's command keeps of its fields -/

/-- What a command keeps of a field: nothing of an unused one, else the index it names (R122). -/
def FieldUse.kept : FieldUse → BitVec 4 → BitVec 4
  | .unused, _ => 0
  | .slot, v => slotField (slotOf v)
  | .point, v => pointField (pointOf v)

theorem FieldUse.kept_of_legal {u : FieldUse} {v : BitVec 4} (h : u.legal v) : u.kept v = v := by
  cases u with
  | unused => exact ((unused_legal v).mp h).symm
  | slot => exact slotField_slotOf v
  | point => exact pointField_pointOf v h

/-- The fields that the command of a row encodes to, when it was made from f. -/
def Row.kept (r : Row) (f : Fields) : Fields where
  op := r.op
  d := r.d.kept f.d
  a := r.a.kept f.a
  b := r.b.kept f.b
  n := r.n.kept f.n
  e := r.e.kept f.e
  imm := if r.imm then f.imm else 0

/-- The encoder agrees with each row of R125. -/
theorem fieldsOf_make {r : Row} (hr : r ∈ rows) (f : Fields) : fieldsOf (r.make f) = r.kept f := by
  fin_cases hr <;> rfl

/-- A row's command loses nothing of fields that pass the row's mask test (R123). -/
theorem Row.kept_of_mask_test {r : Row} {f : Fields} (hop : f.op = r.op)
    (hm : f.word &&& r.mask = r.pattern) : r.kept f = f := by
  obtain ⟨hd, ha, hb, hn, he, h0, himm, h1⟩ := (mask_test_iff r f hop).mp hm
  have keptImm : (if r.imm then f.imm else 0) = f.imm := by
    cases h : r.imm with
    | true => rfl
    | false => exact (himm h).symm
  obtain ⟨op, d, a, b, n, e, rsv0, imm, rsv1⟩ := f
  simp only [Row.kept, Fields.mk.injEq]
  exact ⟨hop.symm, FieldUse.kept_of_legal hd, FieldUse.kept_of_legal ha, FieldUse.kept_of_legal hb,
    FieldUse.kept_of_legal hn, FieldUse.kept_of_legal he, h0.symm, keptImm, h1.symm⟩

/-- The command that a row makes of a word with the row's opcode encodes to the word, when the word
passes the row's mask test. -/
theorem encode_make {r : Row} (hr : r ∈ rows) {w : Word} (hop : (Fields.ofWord w).op = r.op)
    (hm : w &&& r.mask = r.pattern) : encode (r.make (Fields.ofWord w)) = w := by
  rw [encode, fieldsOf_make hr, Row.kept_of_mask_test hop (by rwa [Fields.word_ofWord]),
    Fields.word_ofWord]

/-! ## The decoder's checks -/

/-- The opcodes of the map are distinct (R125). -/
theorem rowOf_op {r : Row} (hr : r ∈ rows) : rowOf r.op = some r := by
  fin_cases hr <;> rfl

/-- The first check: the opcode is in no row. -/
theorem decode_illegal_iff (w : Word) :
    decode w = .error .illegal ↔ ∀ r ∈ rows, r.op ≠ (Fields.ofWord w).op := by
  have noRow : rowOf (Fields.ofWord w).op = none ↔ ∀ r ∈ rows, r.op ≠ (Fields.ofWord w).op := by
    simp [rowOf]
  rw [← noRow, decode]
  cases rowOf (Fields.ofWord w).op with
  | none => simp
  | some r => dsimp only; split_ifs <;> simp

/-- The other checks, when the opcode has the row r. -/
theorem decode_eq_ite {w : Word} {r : Row} (hr : r ∈ rows) (hop : r.op = (Fields.ofWord w).op) :
    decode w = if w &&& r.mask = r.pattern then
        if (r.make (Fields.ofWord w)).wellFormed then .ok (r.make (Fields.ofWord w))
        else .error .operand
      else .error .operand := by
  simp only [decode, ← hop, rowOf_op hr]

/-- The match of a row is its opcode (R125). -/
theorem Row.pattern_eq (r : Row) : r.pattern = r.op.setWidth 64 := by
  apply BitVec.eq_of_toNat_eq
  have fits : r.op.toNat < 2 ^ 64 := Nat.lt_trans r.op.isLt (by decide)
  simpa [Row.pattern, Fields.word_toNat] using (Nat.mod_eq_of_lt fits).symm

theorem slotOf_inj {v u : BitVec 4} : slotOf v = slotOf u ↔ v = u := BitVec.toFin_inj

/-- The checks after the mask test: two destinations that differ (R127), a round number of at most
10 (R128). -/
theorem wellFormed_make {r : Row} (hr : r ∈ rows) (f : Fields) : (r.make f).wellFormed = true ↔
    ¬ ((r.op = 0x12 ∨ r.op = 0x23) ∧ f.d = f.e) ∧
    ¬ ((r.op = 0x53 ∨ r.op = 0x54) ∧ 10 < f.imm.toNat) := by
  fin_cases hr <;> simp [Instr.wellFormed, slotOf_inj]

end Sys2Proof

namespace Sys2Proof.Machine

/-! ## The statements -/

/-- Settles O4: the encoding passes the mask test of its opcode's row, and the row makes the command
back. -/
theorem decodeInvertsEncode : Obligations.DecodeInvertsEncode := by
  intro i hwf
  obtain ⟨r, hrow, hmask, hmake⟩ := Laws.EncodingMatchesRow.every i
  rw [encode, decode_of_row hrow hmask, hmake, if_pos hwf]

/-- Settles O5: the row of the word's opcode made the command, and the mask test leaves no bit of
the word that the command does not keep. -/
theorem encodeInvertsDecode : Obligations.EncodeInvertsDecode := by
  intro w i h
  obtain ⟨r, hrow, hmask, rfl, hwf⟩ := decode_ok h
  obtain ⟨hmem, hop⟩ := rowOf_some hrow
  exact ⟨hwf, encode_make hmem hop.symm hmask⟩

/-- The spec's opcode table is the opcode map with its computed masks (R125). -/
theorem mem_specMasks_iff {p : BitVec 8 × Word} :
    p ∈ specMasks ↔ ∃ r ∈ rows, (r.op, r.mask) = p := by
  have table : specMasks = rows.map fun r => (r.op, r.mask) := by decide
  rw [table, List.mem_map]

/-- Settles O6: an entry of the spec's table is a row of the map, and each clause is one branch of
the decoder on that row. -/
theorem decodeChecksInOrder : Obligations.DecodeChecksInOrder := by
  intro w
  refine ⟨?illegal, fun p hp hop => ?checks⟩
  case illegal =>
    rw [decode_illegal_iff]
    exact ⟨fun h p hp => by obtain ⟨r, hr, rfl⟩ := mem_specMasks_iff.mp hp; exact h r hr,
      fun h r hr => h (r.op, r.mask) (mem_specMasks_iff.mpr ⟨r, hr, rfl⟩)⟩
  case checks =>
    obtain ⟨r, hr, rfl⟩ := mem_specMasks_iff.mp hp
    have decoded := decode_eq_ite hr hop
    rw [Row.pattern_eq] at decoded
    refine ⟨fun hmask => by rw [decoded, if_neg hmask], fun hmask => ?_⟩
    have wf := wellFormed_make hr (Fields.ofWord w)
    rw [if_pos hmask] at decoded
    refine ⟨fun h => ?_, fun h => ?_, fun hde himm => ?_⟩
    · rw [decoded, if_neg fun hwf => (wf.mp hwf).1 h]
    · rw [decoded, if_neg fun hwf => (wf.mp hwf).2 h]
    · exact ⟨_, by rw [decoded, if_pos (wf.mpr ⟨hde, himm⟩)]⟩

/-- Settles O3, by running the decoder on each word. -/
theorem specWordsDecode : Obligations.SpecWordsDecode := by
  unfold Obligations.SpecWordsDecode
  decide

end Sys2Proof.Machine
end

section
/-! PROOFS. The control commands: NOP writes only the completion reports, ZEROIZE erases all data
and key state, MOV copies a slot. -/

namespace Sys2Proof.Machine

/-! ## Command words -/

/-- A command word by bit positions decodes to the well-formed command that has those fields (R121,
R125). -/
theorem decode_commandWord {op d a b n e imm : Nat} {i : Instr} (hwf : i.wellFormed = true)
    (hi : fieldsOf i =
      { op := BitVec.ofNat 8 op, d := BitVec.ofNat 4 d, a := BitVec.ofNat 4 a,
        b := BitVec.ofNat 4 b, n := BitVec.ofNat 4 n, e := BitVec.ofNat 4 e,
        imm := BitVec.ofNat 16 imm })
    (hop : op < 2 ^ 8 := by omega) (hd : d < 2 ^ 4 := by omega) (ha : a < 2 ^ 4 := by omega)
    (hb : b < 2 ^ 4 := by omega) (hn : n < 2 ^ 4 := by omega) (he : e < 2 ^ 4 := by omega)
    (himm : imm < 2 ^ 16 := by omega) :
    decode (commandWord op d a b n e imm) = .ok i := by
  rw [commandWord_eq hop hd ha hb hn he himm, ← hi]
  exact decodeInvertsEncode i hwf

/-! ## NOP -/

/-- NOP is the completion bookkeeping and nothing else (R160). -/
theorem exec_nop (s : State) : exec .nop s = .next (finish .ok s) := rfl

/-- Settles O7: NOP's row fixes every bit of the word, and its meaning is the bookkeeping alone. -/
theorem nopOnlyCompletes : Obligations.NopOnlyCompletes := by
  refine ⟨decodeInvertsEncode .nop rfl, fun w hop hw => ?operand, fun s => ?runs,
    fun s => ?accepted⟩
  case operand =>
    have hmask : w &&& 0xffffffffffffffff ≠ (0x00 : BitVec 8).setWidth 64 := by
      rwa [show w &&& 0xffffffffffffffff = w from BitVec.and_allOnes]
    have hrow : ((0x00, 0xffffffffffffffff) : BitVec 8 × Word) ∈ specMasks := List.mem_cons_self
    exact ((decodeChecksInOrder w).2 _ hrow hop.symm).1 hmask
  case runs =>
    exact ⟨_, ⟨exec_nop s, finish_completed rfl, finish_frame .ok s⟩, rfl, rfl, rfl⟩
  case accepted => exact ⟨_, exec_nop (accept 0 s), rfl, rfl, rfl, rfl⟩

/-! ## ZEROIZE -/

@[simp] theorem wideValue_zero (c : Config) : wideValue c 0#512 = 0 := by
  rw [wideValue, BitVec.toNat_zero, Nat.zero_mod]

@[simp] theorem zeroizeState_slot (s : State) (i : Slot) : (zeroizeState s).slot i = 0 := by
  simp [State.slot, zeroizeState]

@[simp] theorem zeroizeState_point (s : State) (i : PointIx) :
    (zeroizeState s).point i = { x := 0, y := 0, z := 0 } := by
  simp [State.point, zeroizeState, zeroPoint]

/-- ZEROIZE completes as reset does, but for what R161 excepts and the model's own fields. -/
theorem finish_zeroizeState (s : State) : finish .ok (zeroizeState s) =
    { State.resetWith s.config with
      ccmCfg := s.ccmCfg, irqEn := s.irqEn, irqStatus := (finish .ok (zeroizeState s)).irqStatus,
      cmd := s.cmd, lastOp := s.lastOp, schedule := s.schedule, response := s.response } := rfl

/-- Settles O8: field by field the completed state is that of reset, whose registers hold 0. -/
theorem zeroizeErasesAllButReports : Obligations.ZeroizeErasesAllButReports := by
  refine ⟨decodeInvertsEncode .zeroize rfl, fun s => ⟨finish .ok (zeroizeState s), rfl,
    finish_completed rfl, finish_zeroizeState s, zeroizeState_slot s, zeroizeState_point s,
    fun _ => rfl, fun i => ?roundKeys, rfl⟩⟩
  case roundKeys => simp [zeroizeState]

/-! ## MOV -/

/-- Settles O9: MOV writes one slot, and a slot's value needs no reduction modulo 2^W. -/
theorem movCopiesASlot : Obligations.MovCopiesASlot := by
  intro d a s
  refine ⟨decode_commandWord rfl rfl, finish .ok (s.setSlot d (s.slot a)), runs_setSlot rfl, ?_⟩
  rw [finish_slot, slot_setSlot_same, Nat.mod_eq_of_lt (slot_lt s a)]

end Sys2Proof.Machine
end

section
/-! PROOFS. The integer commands: what each writes to its destinations and to its flag, for every
width and every overlap of the operands. -/

namespace Sys2Proof.Machine

/-! ## Command words that fail R127 or R128 -/

/-- The decoder on the encoding of any command: the checks after the mask test decide (R126). -/
theorem decode_encode (i : Instr) :
    decode (encode i) = if i.wellFormed then .ok i else .error .operand := by
  obtain ⟨r, hrow, hmask, hmake⟩ := Laws.EncodingMatchesRow.every i
  rw [encode, decode_of_row hrow hmask, hmake]

/-- A command word with the fields of a command that is not well formed is OPERAND. -/
theorem decode_commandWord_operand {op d a b n e imm : Nat} {i : Instr}
    (hwf : i.wellFormed = false)
    (hi : fieldsOf i =
      { op := BitVec.ofNat 8 op, d := BitVec.ofNat 4 d, a := BitVec.ofNat 4 a,
        b := BitVec.ofNat 4 b, n := BitVec.ofNat 4 n, e := BitVec.ofNat 4 e,
        imm := BitVec.ofNat 16 imm })
    (hop : op < 2 ^ 8 := by omega) (hd : d < 2 ^ 4 := by omega) (ha : a < 2 ^ 4 := by omega)
    (hb : b < 2 ^ 4 := by omega) (hn : n < 2 ^ 4 := by omega) (he : e < 2 ^ 4 := by omega)
    (himm : imm < 2 ^ 16 := by omega) :
    decode (commandWord op d a b n e imm) = .error .operand := by
  rw [commandWord_eq hop hd ha hb hn he himm, ← hi]
  exact (decode_encode i).trans (by rw [hwf]; rfl)

/-! ## ADD and SUB -/

/-- The exact sum of two W-bit numbers is below 2^(W+1), so its bit W says that it reaches 2^W
(R180). -/
theorem carryOut_iff {W a b : Nat} (ha : a < 2 ^ W) (hb : b < 2 ^ W) :
    carryOut W a b = true ↔ 2 ^ W ≤ a + b := by
  refine ⟨Nat.ge_two_pow_of_testBit, fun h => ?_⟩
  exact Nat.testBit_of_two_pow_le_and_two_pow_add_one_gt h (by omega)

/-- Settles O10: both summands are below 2^W, so bit W of their sum says that it reaches 2^W. -/
theorem addWritesSumAndCarry : Obligations.AddWritesSumAndCarry := by
  intro d a b s
  refine ⟨decode_commandWord rfl rfl, _, runs_setSlot_setCarry rfl, ?sum, ?carry⟩
  case sum => simp
  case carry => simpa using carryOut_iff (slot_lt s a) (slot_lt s b)

/-- Adding 2^W before a subtraction that would go below 0 gives the integer difference modulo 2^W
(R181). -/
theorem sub_mod_two_pow {W a b : Nat} (hb : b < 2 ^ W) :
    (((a + 2 ^ W - b) % 2 ^ W : Nat) : Int) = ((a : Int) - b) % 2 ^ W := by
  have exactSub : ((a + 2 ^ W - b : Nat) : Int) = ((a : Int) - b) + 2 ^ W := by
    rw [Nat.cast_sub (by omega)]; push_cast; ring
  rw [Int.natCast_emod, exactSub, Nat.cast_pow, Nat.cast_ofNat, Int.add_emod_right]

/-- Settles O11: the subtrahend is below 2^W, so the model's subtraction of naturals loses
nothing. -/
theorem subWritesDifferenceAndBorrow : Obligations.SubWritesDifferenceAndBorrow := by
  intro d a b s
  refine ⟨decode_commandWord rfl rfl, _, runs_setSlot_setCarry rfl, ?difference, ?borrow⟩
  case difference =>
    rw [finish_slot, setCarry_slot, slot_setSlot_same, radix_eq]
    exact sub_mod_two_pow (slot_lt s b)
  case borrow => simp [borrowOut]

/-! ## MUL -/

theorem exec_mul_same (d a b : Slot) (s : State) : exec (.mul d d a b) s = raiseError .operand s :=
  if_pos rfl

theorem exec_mul {d e : Slot} (h : d ≠ e) (a b : Slot) (s : State) : exec (.mul d e a b) s =
    completeOk ((s.setSlot d (s.slot a * s.slot b % s.radix)).setSlot e
      (s.slot a * s.slot b / s.radix)) := if_neg h

/-- The high half of a product of two W-bit numbers has W bits (R182). -/
theorem mul_div_two_pow_lt {W a b : Nat} (ha : a < 2 ^ W) (hb : b < 2 ^ W) :
    a * b / 2 ^ W < 2 ^ W :=
  Nat.div_lt_of_lt_mul (Nat.mul_lt_mul'' ha hb)

/-- Settles O12: the two halves are remainder and quotient by 2^W, and both fit a slot; with D = E
the word and the command are refused alike. -/
theorem mulWritesBothHalves : Obligations.MulWritesBothHalves := by
  intro d e a b s
  refine ⟨fun h => ⟨decode_commandWord (bne_iff_ne.mpr h) rfl, _, runs_setSlots (exec_mul h a b s),
    ?low, ?product⟩, ?same⟩
  case low => exact slot_lt _ d
  case product =>
    have high := mul_div_two_pow_lt (slot_lt s a) (slot_lt s b)
    rw [finish_slot, finish_slot, slot_setSlot_other _ _ h, slot_setSlot_same, slot_setSlot_same,
      setSlot_width, radix_eq, Nat.mod_mod, Nat.mod_eq_of_lt high]
    exact Nat.mod_add_div _ _
  case same =>
    rintro rfl
    exact ⟨decode_commandWord_operand (i := .mul d d a b) (bne_self_eq_false d) rfl,
      raises_of_eq (exec_mul_same d a b s)⟩

/-! ## CMPEQ and CMPLT -/

/-- The mask of a predicate fits a slot (R183, R184). -/
theorem maskOf_mod (W : Nat) (b : Bool) : maskOf W b % 2 ^ W = maskOf W b := by
  cases b with
  | true => exact Nat.mod_eq_of_lt (Nat.sub_lt (Nat.two_pow_pos W) Nat.one_pos)
  | false => exact Nat.zero_mod _

/-- Settles O13: both commands write the mask of their predicate, and the predicate itself to
CMP. -/
theorem comparesWriteMaskAndCmp : Obligations.ComparesWriteMaskAndCmp := by
  intro d a b s
  refine ⟨decode_commandWord rfl rfl, decode_commandWord rfl rfl,
    ⟨_, runs_setSlot_setCmp rfl, ?eqMask, ?eqFlag⟩, ⟨_, runs_setSlot_setCmp rfl, ?ltMask, ?ltFlag⟩⟩
  case eqMask =>
    rw [finish_slot, setCmp_slot, slot_setSlot_same, maskOf_mod]
    simp [maskOf]
  case eqFlag => simp
  case ltMask =>
    rw [finish_slot, setCmp_slot, slot_setSlot_same, maskOf_mod]
    simp [maskOf]
  case ltFlag => simp

/-! ## CMOV -/

/-- The merge under a W-bit mask, bit by bit (R185). -/
theorem testBit_maskedMerge {W d m : Nat} (hd : d < 2 ^ W) (hm : m < 2 ^ W) (a k : Nat) :
    (maskedMerge W d a m).testBit k = if m.testBit k then a.testBit k else d.testBit k := by
  have above : d.testBit k = true → k < W := fun h =>
    (Nat.pow_lt_pow_iff_right Nat.one_lt_two).mp ((Nat.ge_two_pow_of_testBit h).trans_lt hd)
  rw [maskedMerge, Nat.sub_sub, Nat.add_comm 1 m, Nat.testBit_or, Nat.testBit_and, Nat.testBit_and,
    Nat.testBit_two_pow_sub_succ hm]
  cases hmk : m.testBit k with
  | true => simp
  | false => simpa using above

/-- The merge of W-bit numbers has W bits: each half is a part of an operand. -/
theorem maskedMerge_lt {W d a : Nat} (hd : d < 2 ^ W) (ha : a < 2 ^ W) (m : Nat) :
    maskedMerge W d a m < 2 ^ W :=
  Nat.or_lt_two_pow (Nat.and_le_left.trans_lt hd) (Nat.and_le_left.trans_lt ha)

/-- Settles O14: the written value is the merge itself, whose bits are chosen by the mask's. -/
theorem cmovMergesBitByBit : Obligations.CmovMergesBitByBit := by
  intro d a b s
  refine ⟨decode_commandWord rfl rfl, _, runs_setSlot rfl, fun k => ?_⟩
  rw [finish_slot, slot_setSlot_same,
    Nat.mod_eq_of_lt (maskedMerge_lt (slot_lt s d) (slot_lt s a) _)]
  exact testBit_maskedMerge (slot_lt s d) (slot_lt s b) _ k

/-! ## SHL and SHR -/

/-- A word with two slots and an immediate decodes to the command that has them (R124, R125). -/
theorem decode_commandWord_imm {op : Nat} {d a : Slot} {k : Imm} {i : Instr}
    (hwf : i.wellFormed = true)
    (hi : fieldsOf i =
      { op := BitVec.ofNat 8 op, d := slotField d, a := slotField a, imm := k })
    (hop : op < 2 ^ 8 := by omega) :
    decode (commandWord op (d := d) (a := a) (imm := k.toNat)) = .ok i :=
  decode_commandWord hwf (by rw [hi, BitVec.ofNat_toNat, BitVec.setWidth_eq]; rfl)

/-- Settles O15: a shift by a count below W multiplies or divides by a power of 2, and a quotient of
a slot's value fits a slot. -/
theorem shiftsByAnImmediate : Obligations.ShiftsByAnImmediate := by
  intro d a k s
  have quotient : s.slot a / 2 ^ k.toNat < 2 ^ s.width :=
    (Nat.div_le_self _ _).trans_lt (slot_lt s a)
  refine ⟨decode_commandWord_imm rfl rfl, decode_commandWord_imm rfl rfl,
    ⟨_, runs_setSlot rfl, ?left⟩, ⟨_, runs_setSlot rfl, ?right⟩⟩
  case left =>
    rw [finish_slot, slot_setSlot_same, Nat.shiftLeft_eq, apply_ite (· % 2 ^ s.width), Nat.zero_mod]
  case right =>
    rw [finish_slot, slot_setSlot_same, Nat.shiftRight_eq_div_pow, apply_ite (· % 2 ^ s.width),
      Nat.zero_mod, Nat.mod_eq_of_lt quotient]

/-! ## GETBIT -/

/-- The selected bit as a number (R188). -/
theorem bitAt_toNat (W v k : Nat) :
    (bitAt W v k).toNat = if k < W then v / 2 ^ k % 2 else 0 := by
  by_cases h : k < W
  · simp [bitAt, h, Nat.toNat_testBit]
  · simp [bitAt, h]

/-- Settles O16: the bit is below 2, so it fits a slot, and the slot holds 1 exactly when the bit is
set. -/
theorem getbitWritesOneBit : Obligations.GetbitWritesOneBit := by
  intro d a k s
  have nonzero : s.width ≠ 0 := (Nat.zero_lt_of_lt (width_pos s.config)).ne'
  have fits (b : Bool) : b.toNat % 2 ^ s.width = b.toNat :=
    Nat.mod_eq_of_lt (b.toNat_lt.trans_le (Nat.le_self_pow nonzero 2))
  refine ⟨decode_commandWord_imm rfl rfl, _, runs_setSlot_setBit rfl, ?slot, ?flag⟩
  case slot => rw [finish_slot, setBit_slot, slot_setSlot_same, fits, bitAt_toNat]
  case flag => simp [fits]

end Sys2Proof.Machine
end

section
/-! PROOFS. The modular commands: the one correction of ADDMOD and SUBMOD, the reductions, and the
exponentiation ladder with Fermat's inverse. -/

namespace Sys2Proof.Machine

/-! ## Values that fit a slot -/

/-- A number below 2^W is read back as it was written (R15). -/
theorem slot_setSlot_of_lt {s : State} {v : Nat} (d : Slot) (h : v < 2 ^ s.width) :
    (s.setSlot d v).slot d = v := by
  rw [slot_setSlot_same, Nat.mod_eq_of_lt h]

/-- A residue of a modulus that a slot holds is read back as it was written. -/
theorem slot_setSlot_residue {s : State} {n : Slot} (d : Slot) (v : Nat) (h : s.slot n ≠ 0) :
    (s.setSlot d (v % s.slot n)).slot d = v % s.slot n :=
  slot_setSlot_of_lt d ((Nat.mod_lt v (Nat.pos_of_ne_zero h)).trans (slot_lt s n))

/-! ## ADDMOD -/

theorem exec_addmod (d a b n : Slot) (s : State) : exec (.addmod d a b n) s =
    completeOk (s.setSlot d (addMod (s.slot a) (s.slot b) (s.slot n))) := rfl

/-- One correction brings a number below 2n to its residue (R220). -/
theorem correctOnce_eq_mod {n v : Nat} (h : v < 2 * n) : correctOnce n v = v % n := by
  rw [correctOnce]
  split
  case isTrue reaches => rw [Nat.mod_eq_sub_mod reaches, Nat.mod_eq_of_lt (by omega)]
  case isFalse below => rw [Nat.mod_eq_of_lt (by omega)]

/-- The sum of two residues is below 2n, so one correction reduces it (R220). -/
theorem addMod_eq_mod {a b n : Nat} (ha : a < n) (hb : b < n) : addMod a b n = (a + b) % n :=
  correctOnce_eq_mod (by omega)

/-- Settles O17: the slot holds the corrected sum, which is a residue when the operands are, and the
sum itself when n = 0. -/
theorem addmodCorrectsOnce : Obligations.AddmodCorrectsOnce := by
  intro d a b n s
  refine ⟨decode_commandWord rfl rfl, _, runs_setSlot (exec_addmod d a b n s), ?corrected,
    fun ha hb => ?reduced, fun hn => ?zero⟩
  case corrected => rw [finish_slot, slot_setSlot_same, addMod, correctOnce]
  case reduced =>
    rw [finish_slot, addMod_eq_mod ha hb]
    exact slot_setSlot_residue d _ (Nat.ne_zero_of_lt ha)
  case zero => simp [addMod, correctOnce, hn]

/-! ## SUBMOD -/

theorem exec_submod (d a b n : Slot) (s : State) : exec (.submod d a b n) s =
    completeOk (s.setSlot d (subMod s.radix (s.slot a) (s.slot b) (s.slot n))) := rfl

theorem subMod_lt {R : Nat} (hR : 0 < R) (a b n : Nat) : subMod R a b n < R := by
  rw [subMod]
  split <;> exact Nat.mod_lt _ hR

/-- SUBMOD's value over the integers: n is added to a difference that borrows (R221). -/
theorem subMod_cast {W b : Nat} (a n : Nat) (hb : b < 2 ^ W) :
    (subMod (2 ^ W) a b n : Int) = if a < b then (((a : Int) - b) % 2 ^ W + n) % 2 ^ W
      else ((a : Int) - b) % 2 ^ W := by
  rw [subMod, ← sub_mod_two_pow hb]
  split <;> push_cast <;> rfl

/-- SUBMOD on residues: adding n after a borrow undoes the wrap around R (R221). -/
theorem subMod_of_lt {R a b n : Nat} (ha : a < n) (hb : b < n) (hn : n ≤ R) :
    subMod R a b n = if a < b then a + n - b else a - b := by
  rw [subMod]
  split
  case isTrue borrows =>
    have wrapped : (a + R - b) % R = a + R - b := Nat.mod_eq_of_lt (by omega)
    rw [wrapped, show a + R - b + n = a + n - b + R by omega, Nat.add_mod_right,
      Nat.mod_eq_of_lt (by omega)]
  case isFalse fits =>
    rw [show a + R - b = a - b + R by omega, Nat.add_mod_right, Nat.mod_eq_of_lt (by omega)]

/-- On residues SUBMOD's value is the residue of the integer difference (R221). -/
theorem subMod_eq_emod {R a b n : Nat} (ha : a < n) (hb : b < n) (hn : n ≤ R) :
    (subMod R a b n : Int) = ((a : Int) - b) % n := by
  rw [subMod_of_lt ha hb hn]
  split
  case isTrue borrows =>
    rw [← Int.add_emod_right, Int.emod_eq_of_lt (by omega) (by omega)]
    omega
  case isFalse fits =>
    rw [Int.emod_eq_of_lt (by omega) (by omega)]
    omega

/-- What SUBMOD leaves in its destination. -/
theorem submod_slot (d a b n : Slot) (s : State) :
    (s.setSlot d (subMod s.radix (s.slot a) (s.slot b) (s.slot n))).slot d =
      subMod (2 ^ s.width) (s.slot a) (s.slot b) (s.slot n) :=
  slot_setSlot_of_lt d (subMod_lt (radix_pos s) _ _ _)

/-- Settles O18: the corrected difference fits a slot, so the slot holds it exactly. -/
theorem submodCorrectsOnce : Obligations.SubmodCorrectsOnce := by
  intro d a b n s
  refine ⟨decode_commandWord rfl rfl, _, runs_setSlot (exec_submod d a b n s), ?corrected,
    fun ha hb => ?reduced⟩
  case corrected =>
    rw [finish_slot, submod_slot]
    exact subMod_cast _ _ (slot_lt s b)
  case reduced =>
    rw [finish_slot, submod_slot]
    exact subMod_eq_emod ha hb (slot_lt s n).le

/-! ## ADDMOD after SUBMOD -/

/-- On residues ADDMOD's value undoes SUBMOD's (R226). -/
theorem addMod_subMod {R a b n : Nat} (ha : a < n) (hb : b < n) (hn : n ≤ R) :
    addMod (subMod R a b n) b n = a := by
  rw [subMod_of_lt ha hb hn, addMod, correctOnce]
  split
  case isTrue borrows =>
    rw [show a + n - b + b = a + n by omega, if_pos (Nat.le_add_left n a), Nat.add_sub_cancel]
  case isFalse fits => rw [Nat.sub_add_cancel (not_lt.mp fits), if_neg ha.not_ge]

/-- Settles O23: ADDMOD reads SUBMOD's value with the same b and n, and a fits a slot. -/
theorem addmodUndoesSubmod : Obligations.AddmodUndoesSubmod := by
  intro d e a b n s t u hdb hdn ha hb hsub hadd
  obtain rfl : finish .ok (s.setSlot d (subMod s.radix (s.slot a) (s.slot b) (s.slot n))) = t :=
    Host.Outcome.next.inj hsub
  obtain rfl := Host.Outcome.next.inj hadd
  rw [finish_slot, slot_setSlot_same, finish_slot, finish_slot, finish_slot, submod_slot,
    slot_setSlot_other _ _ hdb.symm, slot_setSlot_other _ _ hdn.symm,
    addMod_subMod ha hb (slot_lt s n).le]
  exact Nat.mod_eq_of_lt (slot_lt s a)

/-! ## MODRED and DIVMOD -/

theorem exec_modred_zero {n : Slot} {s : State} (h : s.slot n = 0) (d a b : Slot) :
    exec (.modred d a b n) s = raiseError .divZero s := if_pos h

theorem exec_modred {n : Slot} {s : State} (h : s.slot n ≠ 0) (d a b : Slot) :
    exec (.modred d a b n) s =
      completeOk (s.setSlot d ((s.slot b * s.radix + s.slot a) % s.slot n)) := if_neg h

/-- Settles O19: a residue of a slot's modulus fits a slot. -/
theorem modredReducesADoubleWidth : Obligations.ModredReducesADoubleWidth := by
  intro d a b n s
  refine ⟨decode_commandWord rfl rfl, fun hn => ?nonzero, fun hn => ?zero⟩
  case nonzero =>
    have value := slot_setSlot_residue d (s.slot b * s.radix + s.slot a) hn
    refine ⟨_, runs_setSlot (exec_modred hn d a b), value, ?_⟩
    rw [finish_slot, value]
    exact Nat.mod_lt _ (Nat.pos_of_ne_zero hn)
  case zero => exact raises_of_eq (exec_modred_zero hn d a b)

theorem exec_divmod_same (d a n : Slot) (s : State) :
    exec (.divmod d d a n) s = raiseError .operand s := if_pos rfl

theorem exec_divmod_zero {d e n : Slot} {s : State} (hde : d ≠ e) (hn : s.slot n = 0) (a : Slot) :
    exec (.divmod d e a n) s = raiseError .divZero s := (if_neg hde).trans (if_pos hn)

theorem exec_divmod {d e n : Slot} {s : State} (hde : d ≠ e) (hn : s.slot n ≠ 0) (a : Slot) :
    exec (.divmod d e a n) s =
      completeOk ((s.setSlot d (s.slot a / s.slot n)).setSlot e (s.slot a % s.slot n)) :=
  (if_neg hde).trans (if_neg hn)

/-- Settles O20: the quotient is at most a and the remainder below n, so both fit a slot; with D = E
the word and the command are refused alike. -/
theorem divmodWritesQuotientAndRemainder : Obligations.DivmodWritesQuotientAndRemainder := by
  intro d e a n s
  refine ⟨fun hde => ⟨decode_commandWord (bne_iff_ne.mpr hde) rfl, fun hn => ?nonzero,
    fun hn => raises_of_eq (exec_divmod_zero hde hn a)⟩, ?same⟩
  case nonzero =>
    have remainder : s.slot a % s.slot n < s.slot n := Nat.mod_lt _ (Nat.pos_of_ne_zero hn)
    have quotientFits : s.slot a / s.slot n < 2 ^ s.width :=
      (Nat.div_le_self _ _).trans_lt (slot_lt s a)
    have atE := slot_setSlot_of_lt (s := s.setSlot d (s.slot a / s.slot n)) e
      (remainder.trans (slot_lt s n))
    refine ⟨_, runs_setSlots (exec_divmod hde hn a), ?_⟩
    rw [finish_slot, finish_slot, atE, slot_setSlot_other _ _ hde,
      slot_setSlot_of_lt d quotientFits]
    exact ⟨(Nat.div_add_mod _ _).symm, remainder⟩
  case same =>
    rintro rfl
    exact ⟨decode_commandWord_operand (i := .divmod d d a n) (bne_self_eq_false d) rfl,
      raises_of_eq (exec_divmod_same d a n s)⟩

/-! ## The ladder of MODEXP and MODINV -/

/-- The bits of e from i up are those from i + 1 up, and bit i. -/
theorem div_two_pow_eq_testBit (e i : Nat) :
    e / 2 ^ i = 2 * (e / 2 ^ (i + 1)) + (e.testBit i).toNat := by
  rw [Nat.toNat_testBit, Nat.pow_succ, ← Nat.div_div_eq_div_mul]
  exact (Nat.div_add_mod _ _).symm

/-- One iteration squares the running power and multiplies by a when bit i is set (R224). -/
theorem ladder_succ (a e n i : Nat) :
    ladder a e n (i + 1) (a ^ (e / 2 ^ (i + 1)) % n) = ladder a e n i (a ^ (e / 2 ^ i) % n) := by
  have square : a ^ (e / 2 ^ (i + 1)) % n * (a ^ (e / 2 ^ (i + 1)) % n) % n =
      a ^ (2 * (e / 2 ^ (i + 1))) % n := by
    rw [← Nat.mul_mod, ← Nat.pow_add, Nat.two_mul]
  rw [ladder, square, div_two_pow_eq_testBit e i]
  cases e.testBit i with
  | true => simp [Nat.pow_succ]
  | false => simp

/-- The ladder's invariant: before the iterations for the bits below i, the running value is the
power of a by the bits of e from i up (R224). -/
theorem ladder_eq_pow (a e n i : Nat) : ladder a e n i (a ^ (e / 2 ^ i) % n) = a ^ e % n := by
  induction i with
  | zero => rw [ladder, Nat.pow_zero, Nat.div_one]
  | succ i ih => rw [ladder_succ, ih]

/-- W iterations use every bit of a W-bit exponent, so the ladder computes the power (R224). -/
theorem modExp_eq_pow {W e : Nat} (he : e < 2 ^ W) (a n : Nat) : modExp W a e n = a ^ e % n := by
  rw [modExp, ← ladder_eq_pow a e n W, Nat.div_eq_of_lt he, Nat.pow_zero]

/-! ## MODEXP -/

theorem exec_modexp_zero {n : Slot} {s : State} (h : s.slot n = 0) (d a b : Slot) :
    exec (.modexp d a b n) s = raiseError .divZero s := if_pos h

theorem exec_modexp {n : Slot} {s : State} (h : s.slot n ≠ 0) (d a b : Slot) :
    exec (.modexp d a b n) s = completeOk (s.setSlot d (s.slot a ^ s.slot b % s.slot n)) := by
  rw [← modExp_eq_pow (slot_lt s b)]
  exact if_neg h

/-- Settles O21: the ladder's power is a residue, which fits a slot. -/
theorem modexpIsThePower : Obligations.ModexpIsThePower := by
  intro d a b n s
  exact ⟨decode_commandWord rfl rfl,
    fun hn => ⟨_, runs_setSlot (exec_modexp hn d a b), slot_setSlot_residue d _ hn⟩,
    fun hn => raises_of_eq (exec_modexp_zero hn d a b)⟩

/-! ## MODINV -/

theorem exec_modinv_modulus {n : Slot} {s : State} (h : s.slot n < 2) (d a : Slot) :
    exec (.modinv d a n) s = raiseError .modulus s := if_pos h

theorem exec_modinv {n : Slot} {s : State} (h : 2 ≤ s.slot n) (d a : Slot) :
    exec (.modinv d a n) s =
      completeOk (s.setSlot d (s.slot a ^ (s.slot n - 2) % s.slot n)) := by
  rw [← modExp_eq_pow ((Nat.sub_le _ 2).trans_lt (slot_lt s n))]
  exact if_neg h.not_gt

/-- Fermat: for a prime n the power by n - 2 inverts every a that n does not divide (R225). -/
theorem mul_pow_sub_two_mod {a n : Nat} (hn : n.Prime) (ha : ¬ n ∣ a) :
    a * (a ^ (n - 2) % n) % n = 1 := by
  have coprime : a.Coprime n := (hn.coprime_iff_not_dvd.mpr ha).symm
  have exponent : n - 2 + 1 = n.totient := by
    have := hn.two_le
    rw [Nat.totient_prime hn]; omega
  calc a * (a ^ (n - 2) % n) % n = a ^ n.totient % n := by
        rw [Nat.mul_mod_mod, ← pow_succ', exponent]
    _ = 1 % n := Nat.ModEq.pow_totient coprime
    _ = 1 := Nat.mod_eq_of_lt hn.one_lt

/-- Settles O22: the ladder computes the power by n - 2, which is 0 when n divides a and Fermat's
inverse when n is a prime that does not. -/
theorem modinvIsTheFermatPower : Obligations.ModinvIsTheFermatPower := by
  intro d a n s
  refine ⟨decode_commandWord rfl rfl, fun hn => ?power,
    fun hn => raises_of_eq (exec_modinv_modulus hn d a)⟩
  case power =>
    have value := slot_setSlot_residue d (s.slot a ^ (s.slot n - 2)) (Nat.ne_zero_of_lt hn)
    refine ⟨_, runs_setSlot (exec_modinv hn d a), value, fun h2 hdvd => ?divides,
      fun hprime hndvd => ?inverse⟩
    case divides =>
      rw [finish_slot, value]
      exact Nat.mod_eq_zero_of_dvd (dvd_pow hdvd (by omega))
    case inverse =>
      rw [finish_slot, value]
      exact mul_pow_sub_two_mod hprime hndvd

end Sys2Proof.Machine
end

section
/-! PROOFS. The Montgomery commands: the Newton inverse of MONTSETUP, the reduction of MONTMUL and
FROMMONT, and their agreement with the plain product. -/

namespace Sys2Proof.Machine

/-! ## The Newton inverse -/

/-- One Newton step squares the error 1 - n·x of the approximation x (R250). -/
theorem one_sub_mul_inverseStep {R : Nat} (hR : 0 < R) (n x : Nat) :
    (1 - n * inverseStep R n x : ZMod R) = (1 - n * x) ^ 2 := by
  have noBorrow : n * x % R ≤ R + 2 := (Nat.mod_lt _ hR).le.trans (Nat.le_add_right R 2)
  have step : (inverseStep R n x : ZMod R) = x * (2 - n * x) := by
    simp [inverseStep, Nat.cast_sub noBorrow]
  rw [step]
  ring

/-- After k Newton steps the error of the inverse of an odd n is a multiple of 2^(2^k) (R250). -/
theorem two_pow_dvd_one_sub_mul_inverseSteps {R n : Nat} (hR : 0 < R) (hn : n % 2 = 1) (k : Nat) :
    (2 ^ 2 ^ k : ZMod R) ∣ 1 - n * inverseSteps R n k := by
  induction k with
  | zero =>
    obtain ⟨j, rfl⟩ := Nat.odd_iff.mpr hn
    exact ⟨-j, by simp [inverseSteps]⟩
  | succ k ih =>
    rw [inverseSteps, one_sub_mul_inverseStep hR, Nat.pow_succ, pow_mul]
    exact pow_dvd_pow_of_dvd ih 2

/-- Nine steps reach every radix of at most 512 bits (R250). -/
theorem mul_inverseMod {W n : Nat} (hW : W ≤ 512) (hn : n % 2 = 1) :
    (n * inverseMod (2 ^ W) n : ZMod (2 ^ W)) = 1 := by
  have radixVanishes : (2 ^ W : ZMod (2 ^ W)) = 0 := by
    exact_mod_cast ZMod.natCast_self (2 ^ W)
  have error := two_pow_dvd_one_sub_mul_inverseSteps (Nat.two_pow_pos W) hn 9
  have exact := zero_dvd_iff.mp (radixVanishes ▸ (pow_dvd_pow 2 hW).trans error)
  exact (sub_eq_zero.mp exact).symm

theorem inverseMod_lt {R : Nat} (hR : 0 < R) (n : Nat) : inverseMod R n < R := Nat.mod_lt _ hR

theorem montgomeryConstant_lt {R : Nat} (hR : 0 < R) (n : Nat) : montgomeryConstant R n < R :=
  Nat.mod_lt _ hR

/-- n' is the negative of the inverse of an odd n modulo R (R250). -/
theorem radix_dvd_mul_montgomeryConstant_add_one {W n : Nat} (hW : W ≤ 512) (hn : n % 2 = 1) :
    2 ^ W ∣ n * montgomeryConstant (2 ^ W) n + 1 := by
  have noBorrow := (inverseMod_lt (Nat.two_pow_pos W) n).le
  rw [← ZMod.natCast_eq_zero_iff, montgomeryConstant, Nat.cast_add, Nat.cast_mul, ZMod.natCast_mod,
    Nat.cast_sub noBorrow, ZMod.natCast_self, zero_sub, mul_neg, mul_inverseMod hW hn, Nat.cast_one,
    neg_add_cancel]

/-! ## The reduction -/

/-- The correction keeps the residue. -/
theorem correctOnce_modEq (n v : Nat) : correctOnce n v ≡ v [MOD n] := by
  rw [correctOnce]
  split
  case isTrue reaches => exact (Nat.mod_eq_sub_mod reaches).symm
  case isFalse => rfl

/-- The factor m of R251 makes t + m·n a multiple of R when n' is right. -/
theorem radix_dvd_add_mul {R n np : Nat} (hnp : R ∣ n * np + 1) (t : Nat) :
    R ∣ t + t % R * np % R * n := by
  have cleared : t + t % R * np % R * n ≡ t * (n * np + 1) [MOD R] := calc
    t + t % R * np % R * n ≡ t + t * np * n [MOD R] :=
      (((Nat.mod_modEq _ R).trans ((Nat.mod_modEq t R).mul_right np)).mul_right n).add_left t
    _ = t * (n * np + 1) := by ring
  exact (cleared.dvd_iff dvd_rfl).mpr (hnp.mul_left t)

/-- When n' is right, the reduction divides a·b by R modulo n (R251). -/
theorem montgomeryProduct_mul_radix {R n np : Nat} (hnp : R ∣ n * np + 1) (a b : Nat) :
    montgomeryProduct R a b n np * R ≡ a * b [MOD n] := calc
  montgomeryProduct R a b n np * R
      ≡ (a * b + a * b % R * np % R * n) / R * R [MOD n] := (correctOnce_modEq n _).mul_right R
  _ = a * b + a * b % R * np % R * n := Nat.div_mul_cancel (radix_dvd_add_mul hnp _)
  _ ≡ a * b [MOD n] := by simp [Nat.ModEq]

/-- The quotient u of R251 is below n plus any bound of t div R. -/
theorem add_mul_div_lt {R t k m : Nat} (n : Nat) (ht : t < k * R) (hm : m < R) :
    (t + m * n) / R < k + n := by
  have multiple : m * n ≤ n * R := Nat.mul_comm m n ▸ Nat.mul_le_mul_left n hm.le
  rw [Nat.div_lt_iff_lt_mul (Nat.zero_lt_of_lt hm), Nat.add_mul]
  exact Nat.add_lt_add_of_lt_of_le ht multiple

/-- A product below n·R is reduced below n, whatever n' is (R251, R253). -/
theorem montgomeryProduct_lt {R a b n : Nat} (hR : 0 < R) (hab : a * b < n * R) (np : Nat) :
    montgomeryProduct R a b n np < n := by
  have bound : (a * b + a * b % R * np % R * n) / R < n + n :=
    add_mul_div_lt n hab (Nat.mod_lt _ hR)
  rw [montgomeryProduct, correctOnce_eq_mod (by omega)]
  exact Nat.mod_lt _ (Nat.pos_of_lt_mul_right hab)

/-- The reduction of two W-bit numbers fits a slot, reduced or not and whatever n' is (R251). -/
theorem montgomeryProduct_lt_radix {R a b n : Nat} (ha : a < R) (hb : b < R) (hn : n < R)
    (np : Nat) : montgomeryProduct R a b n np < R := by
  have bound : (a * b + a * b % R * np % R * n) / R < R + n :=
    add_mul_div_lt n (Nat.mul_lt_mul'' ha hb) (Nat.mod_lt _ (Nat.zero_lt_of_lt ha))
  rw [montgomeryProduct, correctOnce]
  split <;> omega

/-! ## MONTSETUP -/

theorem odd_ne_zero {n : Nat} (h : n % 2 = 1) : n ≠ 0 := by omega

theorem exec_montsetup_even {n : Slot} {s : State} (h : s.slot n % 2 = 0) (d : Slot) :
    exec (.montsetup d n) s = raiseError .modulus s := if_pos h

theorem exec_montsetup {n : Slot} {s : State} (h : s.slot n % 2 = 1) (d : Slot) :
    exec (.montsetup d n) s =
      completeOk (s.setSlot d (montgomeryConstant (2 ^ s.width) (s.slot n))) := if_neg (by omega)

/-- Settles O24: nine Newton steps give all bits of the inverse, and its negative fits a slot. -/
theorem montsetupGivesTheNegativeInverse : Obligations.MontsetupGivesTheNegativeInverse := by
  intro d n s
  refine ⟨decode_commandWord rfl rfl, fun hn => ⟨_, runs_setSlot (exec_montsetup hn d), ?_⟩,
    fun hn => raises_of_eq (exec_montsetup_even hn d)⟩
  have fits := montgomeryConstant_lt (Nat.two_pow_pos s.width) (s.slot n)
  rw [finish_slot, slot_setSlot_of_lt d fits]
  exact ⟨fits, Nat.mod_eq_zero_of_dvd
    (radix_dvd_mul_montgomeryConstant_add_one (width_le s.config) hn)⟩

/-! ## MONTMUL -/

theorem exec_montmul_even {n : Slot} {s : State} (h : s.slot n % 2 = 0) (d a b e : Slot) :
    exec (.montmul d a b n e) s = raiseError .modulus s := if_pos h

theorem exec_montmul {n : Slot} {s : State} (h : s.slot n % 2 = 1) (d a b e : Slot) :
    exec (.montmul d a b n e) s = completeOk (s.setSlot d
      (montgomeryProduct (2 ^ s.width) (s.slot a) (s.slot b) (s.slot n) (s.slot e))) :=
  if_neg (by omega)

/-- Settles O25: the slot holds the reduction itself, since it fits; reduced operands have a product
below n·R. -/
theorem montmulReducesByTheRadix : Obligations.MontmulReducesByTheRadix := by
  intro d a b n e s
  refine ⟨decode_commandWord rfl rfl, fun hn => ⟨_, runs_setSlot (exec_montmul hn d a b e), ?_⟩,
    fun hn => raises_of_eq (exec_montmul_even hn d a b e)⟩
  rw [finish_slot, slot_setSlot_of_lt d
    (montgomeryProduct_lt_radix (slot_lt s a) (slot_lt s b) (slot_lt s n) _)]
  refine ⟨⟨_, _, rfl, rfl, rfl⟩, fun hnp ha hb => ⟨?below, ?residue⟩⟩
  case below =>
    have product := Nat.mul_lt_mul'' ha (hb.trans (slot_lt s n))
    exact montgomeryProduct_lt (Nat.two_pow_pos s.width) product _
  case residue => exact montgomeryProduct_mul_radix (Nat.dvd_of_mod_eq_zero hnp) _ _

/-! ## TOMONT -/

theorem exec_tomont_even {n : Slot} {s : State} (h : s.slot n % 2 = 0) (d a : Slot) :
    exec (.tomont d a n) s = raiseError .modulus s := if_pos h

theorem exec_tomont {n : Slot} {s : State} (h : s.slot n % 2 = 1) (d a : Slot) :
    exec (.tomont d a n) s = completeOk (s.setSlot d (s.slot a * 2 ^ s.width % s.slot n)) :=
  if_neg (by omega)

/-- Settles O26: a residue of an odd modulus fits a slot. -/
theorem tomontScalesByTheRadix : Obligations.TomontScalesByTheRadix := by
  intro d a n s
  exact ⟨decode_commandWord rfl rfl, fun hn => ⟨_, runs_setSlot (exec_tomont hn d a),
      slot_setSlot_residue d _ (odd_ne_zero hn)⟩,
    fun hn => raises_of_eq (exec_tomont_even hn d a)⟩

/-! ## FROMMONT -/

theorem exec_frommont_even {n : Slot} {s : State} (h : s.slot n % 2 = 0) (d a e : Slot) :
    exec (.frommont d a n e) s = raiseError .modulus s := if_pos h

theorem exec_frommont {n : Slot} {s : State} (h : s.slot n % 2 = 1) (d a e : Slot) :
    exec (.frommont d a n e) s = completeOk (s.setSlot d
      (montgomeryProduct (2 ^ s.width) (s.slot a) 1 (s.slot n) (s.slot e))) :=
  if_neg (by omega)

/-- Settles O27: a·1 is below n·R for every slot value a, so the reduction is below n. -/
theorem frommontDividesByTheRadix : Obligations.FrommontDividesByTheRadix := by
  intro d a n e s
  refine ⟨decode_commandWord rfl rfl, fun hn => ⟨_, runs_setSlot (exec_frommont hn d a e), ?_⟩,
    fun hn => raises_of_eq (exec_frommont_even hn d a e)⟩
  have product : s.slot a * 1 < s.slot n * 2 ^ s.width := by
    rw [Nat.mul_one]
    exact (slot_lt s a).trans_le (Nat.le_mul_of_pos_left _ (Nat.pos_of_ne_zero (odd_ne_zero hn)))
  have below := montgomeryProduct_lt (Nat.two_pow_pos s.width) product (s.slot e)
  rw [finish_slot, slot_setSlot_of_lt d (below.trans (slot_lt s n))]
  refine ⟨⟨_, _, rfl, rfl, ?value⟩, below, fun hnp => ?residue⟩
  case value => rw [montgomeryProduct, correctOnce, Nat.mul_one]
  case residue =>
    have divided := montgomeryProduct_mul_radix (Nat.dvd_of_mod_eq_zero hnp) (s.slot a) 1
    rwa [Nat.mul_one] at divided

/-! ## Agreement with the plain product -/

/-- What a statement says of the state that a command runs to holds of the state it answers. -/
theorem runs_of_exec {i : Instr} {τ : Touch} {s u : State} {P : State → Prop}
    (h : ∃ t, Runs i τ s t ∧ P t) (hu : exec i s = .next u) : Runs i τ s u ∧ P u := by
  obtain ⟨t, hrun, hP⟩ := h
  obtain rfl : t = u := Host.Outcome.next.inj (hrun.1.symm.trans hu)
  exact ⟨hrun, hP⟩

theorem Runs.width {i : Instr} {τ : Touch} {s t : State} (h : Runs i τ s t) : t.width = s.width :=
  congrArg Config.width h.2.2.config

/-- A run that writes one slot keeps the value of every other. -/
theorem Runs.slot_of_ne {i : Instr} {d j : Slot} {s t : State} (h : Runs i { slots := [d] } s t)
    (hj : j ≠ d) : t.slot j = s.slot j := by
  obtain ⟨-, -, frame⟩ := h
  rw [State.slot, State.slot, frame.config, frame.slots j (by simpa using hj)]

/-- R has an inverse modulo an odd n, so a residue is known from its multiple by R. -/
theorem eq_mod_of_mul_two_pow_modEq {W n r v : Nat} (hn : n % 2 = 1) (hr : r < n)
    (h : r * 2 ^ W ≡ v * 2 ^ W [MOD n]) : r = v % n := by
  have coprime : n.Coprime (2 ^ W) := (Nat.coprime_two_right.mpr (Nat.odd_iff.mpr hn)).pow_right W
  exact (Nat.mod_eq_of_lt hr).symm.trans (h.cancel_right_of_coprime coprime)

/-- A product of two scaled values that is divided by R once is the scaled product. -/
theorem eq_scaled_product {W n r v w : Nat} (hn : n % 2 = 1) (hr : r < n)
    (h : r * 2 ^ W ≡ (v * 2 ^ W % n) * (w * 2 ^ W % n) [MOD n]) : r = v * w * 2 ^ W % n := by
  refine eq_mod_of_mul_two_pow_modEq hn hr (h.trans ?_)
  rw [show v * w * 2 ^ W * 2 ^ W = v * 2 ^ W * (w * 2 ^ W) by ring]
  exact (Nat.mod_modEq _ _).mul (Nat.mod_modEq _ _)

/-- MONTSETUP and two conversions leave the right n' and both Montgomery forms, when no destination
is a slot that is read later. -/
theorem forms_of_exec {a b n p x y : Slot} {s s0 s1 s2 : State} (hn : s.slot n % 2 = 1)
    (hp : ∀ j ∈ [n, a, b], j ≠ p) (hx : ∀ j ∈ [n, p, b], j ≠ x) (hy : ∀ j ∈ [n, p, x], j ≠ y)
    (h0 : exec (.montsetup p n) s = .next s0) (h1 : exec (.tomont x a n) s0 = .next s1)
    (h2 : exec (.tomont y b n) s1 = .next s2) :
    s2.width = s.width ∧ s2.slot n = s.slot n ∧
      (s.slot n * s2.slot p + 1) % 2 ^ s.width = 0 ∧
      s2.slot x = s.slot a * 2 ^ s.width % s.slot n ∧
      s2.slot y = s.slot b * 2 ^ s.width % s.slot n := by
  obtain ⟨run0, -, right⟩ := runs_of_exec ((montsetupGivesTheNegativeInverse p n s).2.1 hn) h0
  have n0 := run0.slot_of_ne (hp n (by simp))
  obtain ⟨run1, atX⟩ := runs_of_exec ((tomontScalesByTheRadix x a n s0).2.1 (n0 ▸ hn)) h1
  have n1 := (run1.slot_of_ne (hx n (by simp))).trans n0
  obtain ⟨run2, atY⟩ := runs_of_exec ((tomontScalesByTheRadix y b n s1).2.1 (n1 ▸ hn)) h2
  refine ⟨by rw [run2.width, run1.width, run0.width],
    (run2.slot_of_ne (hy n (by simp))).trans n1, ?right, ?formA, ?formB⟩
  case right =>
    rw [run2.slot_of_ne (hy p (by simp)), run1.slot_of_ne (hx p (by simp))]
    exact right
  case formA =>
    rw [run2.slot_of_ne (hy x (by simp)), atX, run0.slot_of_ne (hp a (by simp)), run0.width, n0]
  case formB =>
    rw [atY, run1.slot_of_ne (hx b (by simp)), run0.slot_of_ne (hp b (by simp)), run1.width,
      run0.width, n1]

/-- Settles O28: the multiples by R of the three results are those of the plain values, and each
residue is known from its multiple by R. -/
theorem montgomeryAgreesWithThePlainProduct : Obligations.MontgomeryAgreesWithThePlainProduct := by
  intro a b n p x y z s s0 s1 s2 s3 s4 s5 distinct apart hn h0 h1 h2 h3 h4 h5
  simp only [List.nodup_cons, List.mem_cons, List.not_mem_nil, or_false, not_or] at distinct apart
  obtain ⟨hw, n2, right, formA, formB⟩ :=
    forms_of_exec hn (by grind) (by grind) (by grind) h0 h1 h2
  obtain ⟨run3, -, product⟩ :=
    runs_of_exec ((montmulReducesByTheRadix z x y n p s2).2.1 (n2 ▸ hn)) h3
  have n3 : s3.slot n = s.slot n := (run3.slot_of_ne (by grind)).trans n2
  have p3 : s3.slot p = s2.slot p := run3.slot_of_ne (by grind)
  have x3 : s3.slot x = s2.slot x := run3.slot_of_ne (by grind)
  obtain ⟨-, -, below4, back4⟩ :=
    runs_of_exec ((frommontDividesByTheRadix z z n p s3).2.1 (n3 ▸ hn)) h4
  obtain ⟨-, -, below5, back5⟩ :=
    runs_of_exec ((frommontDividesByTheRadix z x n p s3).2.1 (n3 ▸ hn)) h5
  rw [n3] at below4 below5
  rw [hw, n2, formA, formB] at product
  rw [run3.width, hw, n3, p3] at back4 back5
  have pos : 0 < s.slot n := Nat.pos_of_ne_zero (odd_ne_zero hn)
  obtain ⟨below3, times3⟩ := product right (Nat.mod_lt _ pos) (Nat.mod_lt _ pos)
  have scaled := eq_scaled_product hn below3 times3
  rw [scaled] at back4
  rw [x3, formA] at back5
  exact ⟨by rw [scaled, Nat.mod_mul_mod],
    eq_mod_of_mul_two_pow_modEq hn below4 ((back4 right).trans (Nat.mod_mod _ _)),
    eq_mod_of_mul_two_pow_modEq hn below5 ((back5 right).trans (Nat.mod_mod _ _))⟩

end Sys2Proof.Machine
end

section
/-! PROOFS. The point commands.  Every coordinate is a residue that stands for its class in
`ZMod p`, where the engine's field functions are the ring's own operations; so a command's formulas
are compared with the spec's integer formulas by ring identities there. -/

namespace Sys2Proof.Machine

/-! ## Residues and their classes mod p -/

/-- The two ways to say that an integer is 0 modulo p. -/
theorem intCast_eq_zero_iff_emod (p : Nat) (V : Int) : (V : ZMod p) = 0 ↔ V % p = 0 :=
  (ZMod.intCast_zmod_eq_zero_iff_dvd V p).trans Int.dvd_iff_emod_eq_zero

/-- A natural number is reduced as the integer of the same class is. -/
theorem natCast_mod_eq_emod {p x : Nat} {V : Int} (h : (x : ZMod p) = V) :
    ((x % p : Nat) : Int) = V % p := by
  rw [Int.natCast_mod]
  exact (ZMod.intCast_eq_intCast_iff' x V p).mp (by simpa using h)

@[simp, push_cast] theorem cast_fieldAdd (p x y : Nat) : (fieldAdd p x y : ZMod p) = x + y := by
  simp [fieldAdd]

@[simp, push_cast] theorem cast_fieldMul (p x y : Nat) : (fieldMul p x y : ZMod p) = x * y := by
  simp [fieldMul]

@[simp, push_cast] theorem cast_fieldSq (p x : Nat) : (fieldSq p x : ZMod p) = x * x := by
  simp [fieldSq]

/-- p less a residue is the class of the negative. -/
theorem cast_sub_mod {p : Nat} (hp : 0 < p) (y : Nat) : ((p - y % p : Nat) : ZMod p) = -y := by
  simp [Nat.cast_sub (Nat.mod_lt y hp).le]

theorem cast_fieldSub {p : Nat} (hp : 0 < p) (x y : Nat) : (fieldSub p x y : ZMod p) = x - y := by
  simp [fieldSub, cast_sub_mod hp, sub_eq_add_neg]

theorem fieldSub_eq_zero_iff {p : Nat} (hp : 0 < p) (x y : Nat) :
    fieldSub p x y = 0 ↔ (x : ZMod p) = y := by
  have below : fieldSub p x y < p := Nat.mod_lt _ hp
  rw [← sub_eq_zero (a := (x : ZMod p)), ← cast_fieldSub hp, ZMod.natCast_eq_zero_iff,
    Nat.dvd_iff_mod_eq_zero, Nat.mod_eq_of_lt below]

/-- The tests u = 0 and v = 0 of R277 on reduced coordinates are tests of the integers mod p. -/
theorem fieldSub_fieldMul_eq_zero_iff {p : Nat} (hp : 0 < p) (x y z w : Nat) :
    fieldSub p (fieldMul p (x % p) (y % p)) (fieldMul p (z % p) (w % p)) = 0 ↔
      ((x : Int) * y - z * w) % p = 0 := by
  rw [fieldSub_eq_zero_iff hp, ← intCast_eq_zero_iff_emod]
  simp [sub_eq_zero]

/-! ## Normalised triples -/

/-- The coordinates of a triple are below a bound. -/
def Triple.Below (B : Nat) (P : Triple) : Prop := P.x < B ∧ P.y < B ∧ P.z < B

theorem Triple.Below.mono {B C : Nat} {P : Triple} (h : P.Below B) (hBC : B ≤ C) : P.Below C :=
  ⟨h.1.trans_le hBC, h.2.1.trans_le hBC, h.2.2.trans_le hBC⟩

theorem infinity_below {p : Nat} (hp : 1 < p) : Triple.infinity.Below p :=
  ⟨Nat.zero_lt_of_lt hp, hp, Nat.zero_lt_of_lt hp⟩

theorem reduce_below {p : Nat} (hp : 0 < p) (P : Triple) : (P.reduce p).Below p :=
  ⟨Nat.mod_lt _ hp, Nat.mod_lt _ hp, Nat.mod_lt _ hp⟩

theorem norm_of_infinity {p : Nat} {P : Triple} (h : P.z % p = 0) : P.norm p = Triple.infinity :=
  if_pos h

@[simp] theorem norm_infinity (p : Nat) : Triple.infinity.norm p = Triple.infinity :=
  norm_of_infinity (Nat.zero_mod p)

theorem norm_of_finite {p : Nat} {P : Triple} (h : P.z % p ≠ 0) : P.norm p = P.reduce p :=
  if_neg h

theorem norm_below {p : Nat} (hp : 1 < p) (P : Triple) : (P.norm p).Below p := by
  rw [Triple.norm]
  split
  case isTrue => exact infinity_below hp
  case isFalse => exact reduce_below (Nat.zero_lt_of_lt hp) P

@[simp] theorem reduce_x (p : Nat) (P : Triple) : (P.reduce p).x = P.x % p := rfl
@[simp] theorem reduce_y (p : Nat) (P : Triple) : (P.reduce p).y = P.y % p := rfl
@[simp] theorem reduce_z (p : Nat) (P : Triple) : (P.reduce p).z = P.z % p := rfl

@[simp] theorem reduce_reduce (p : Nat) (P : Triple) : (P.reduce p).reduce p = P.reduce p := by
  simp [Triple.reduce]

@[simp] theorem norm_reduce (p : Nat) (P : Triple) : (P.reduce p).norm p = P.norm p := by
  simp [Triple.norm]

/-- The engine's normal form of a triple is the normalised point of integers of the same classes
(R270). -/
theorem norm_eq_normalised {p : Nat} {P : Triple} {X Y Z : Int} (hX : (P.x : ZMod p) = X)
    (hY : (P.y : ZMod p) = Y) (hZ : (P.z : ZMod p) = Z) : P.norm p = normalised p X Y Z := by
  rw [Triple.norm, normalised, ← natCast_mod_eq_emod hX, ← natCast_mod_eq_emod hY,
    ← natCast_mod_eq_emod hZ]
  simp only [Nat.cast_eq_zero, Int.toNat_natCast]
  rfl

theorem norm_eq_normalised_self (p : Nat) (P : Triple) : P.norm p = normalised p P.x P.y P.z :=
  norm_eq_normalised (by simp) (by simp) (by simp)

/-! ## The bodies -/

/-- PNEG's value is the normalised (X, -Y, Z) (R275). -/
theorem pointNeg_reduce {p : Nat} (hp : 0 < p) (P : Triple) :
    pointNeg p (P.reduce p) = normalised p P.x (-P.y) P.z :=
  norm_eq_normalised (by simp) (by simp [cast_sub_mod hp]) (by simp)

@[simp] theorem pointDouble_reduce (p a : Nat) (P : Triple) :
    pointDouble p a (P.reduce p) = pointDouble p a P := by
  simp [pointDouble]

theorem pointDouble_of_infinity {p : Nat} {P : Triple} (h : P.z % p = 0) (a : Nat) :
    pointDouble p a P = Triple.infinity := if_pos h

/-- The doubling formulas of R276, for integers that a and the coordinates stand for. -/
theorem pointDouble_of_finite {p a : Nat} {P : Triple} {A w u B h : Int} (hp : 0 < p)
    (hz : P.z % p ≠ 0) (hA : (a : ZMod p) = A) (hw : w = A * P.z ^ 2 + 3 * P.x ^ 2)
    (hu : u = P.y * P.z) (hB : B = P.x * P.y * u) (hh : h = w ^ 2 - 8 * B) :
    pointDouble p a P =
      normalised p (2 * h * u) (w * (4 * B - h) - 8 * P.y ^ 2 * u ^ 2) (8 * u ^ 3) := by
  subst hw hu hB hh
  refine (if_neg hz).trans (norm_eq_normalised ?x ?y ?z) <;>
    push_cast [cast_fieldSub hp, hA, ZMod.natCast_mod] <;> ring

/-- The addition formulas of R277, for integers that the coordinates stand for. -/
theorem pointSum_reduce {p : Nat} {P Q : Triple} {u v : Nat} {U V R A : Int} (hp : 0 < p)
    (hu : (u : ZMod p) = U) (hv : (v : ZMod p) = V) (hR : R = V ^ 2 * P.x * Q.z)
    (hA : A = U ^ 2 * P.z * Q.z - V ^ 3 - 2 * R) :
    pointSum p (P.reduce p) (Q.reduce p) u v =
      normalised p (V * A) (U * (R - A) - V ^ 3 * P.y * Q.z) (V ^ 3 * P.z * Q.z) := by
  subst hR hA
  refine norm_eq_normalised ?x ?y ?z <;>
    push_cast [cast_fieldSub hp, hu, hv, reduce_x, reduce_y, reduce_z, ZMod.natCast_mod] <;> ring

theorem pointAdd_of_left_infinity {p : Nat} {P : Triple} (hP : P.z % p = 0) (a : Nat) (Q : Triple) :
    pointAdd p a P Q = Q.norm p :=
  (if_pos hP).trans (norm_reduce p Q)

/-! ### The cases of PADD with a finite first operand (R277) -/

section
variable {p a : Nat} {P Q : Triple} (hp : 0 < p) (hP : P.z % p ≠ 0)
include hP

theorem pointAdd_of_right_infinity (hQ : Q.z % p = 0) : pointAdd p a P Q = P.norm p :=
  (if_neg hP).trans ((if_pos hQ).trans (norm_reduce p P))

variable (hQ : Q.z % p ≠ 0)
include hp hQ

theorem pointAdd_of_same_point (hu : ((Q.y : Int) * P.z - P.y * Q.z) % p = 0)
    (hv : ((Q.x : Int) * P.z - P.x * Q.z) % p = 0) : pointAdd p a P Q = pointDouble p a P := by
  rw [← fieldSub_fieldMul_eq_zero_iff hp] at hu hv
  exact (if_neg hP).trans ((if_neg hQ).trans ((if_pos hv).trans ((if_pos hu).trans
    (pointDouble_reduce p a P))))

theorem pointAdd_of_same_x (hu : ((Q.y : Int) * P.z - P.y * Q.z) % p ≠ 0)
    (hv : ((Q.x : Int) * P.z - P.x * Q.z) % p = 0) : pointAdd p a P Q = Triple.infinity := by
  rw [Ne, ← fieldSub_fieldMul_eq_zero_iff hp] at hu
  rw [← fieldSub_fieldMul_eq_zero_iff hp] at hv
  exact (if_neg hP).trans ((if_neg hQ).trans ((if_pos hv).trans (if_neg hu)))

theorem pointAdd_of_finite {u v R A : Int} (hu : u = Q.y * P.z - P.y * Q.z)
    (hv : v = Q.x * P.z - P.x * Q.z) (hne : v % p ≠ 0) (hR : R = v ^ 2 * P.x * Q.z)
    (hA : A = u ^ 2 * P.z * Q.z - v ^ 3 - 2 * R) :
    pointAdd p a P Q =
      normalised p (v * A) (u * (R - A) - v ^ 3 * P.y * Q.z) (v ^ 3 * P.z * Q.z) := by
  rw [hv, Ne, ← fieldSub_fieldMul_eq_zero_iff hp] at hne
  refine (if_neg hP).trans ((if_neg hQ).trans ((if_neg hne).trans
    (pointSum_reduce hp ?u ?v hR hA)))
  case u => simp [cast_fieldSub hp, hu]
  case v => simp [cast_fieldSub hp, hv]

end

/-! ### A point and its negative (R281) -/

theorem pointAdd_reduce_right (p a : Nat) (P Q : Triple) :
    pointAdd p a P (Q.reduce p) = pointAdd p a P Q := by
  simp [pointAdd]

/-- A point of order 2 doubles to infinity: s = 0 (R276). -/
theorem pointDouble_of_order_two {p a : Nat} {P : Triple} (hp : 0 < p) (hz : P.z % p ≠ 0)
    (hs : (P.y * P.z : ZMod p) = 0) : pointDouble p a P = Triple.infinity := by
  rw [pointDouble_of_finite (A := a) hp hz (by simp) rfl rfl rfl rfl]
  refine if_pos ((intCast_eq_zero_iff_emod p _).mp ?_)
  simp [hs]

/-- The triple (X, p - Y mod p, Z), whose normal form PNEG writes. -/
def Triple.negative (p : Nat) (P : Triple) : Triple := { x := P.x, y := p - P.y % p, z := P.z }

theorem pointNeg_of_finite {p : Nat} {P : Triple} (hz : P.z % p ≠ 0) :
    pointNeg p (P.reduce p) = (P.negative p).reduce p := by
  refine (norm_of_finite (by simpa using hz)).trans ?_
  simp [Triple.reduce, Triple.negative]

/-- A point and its negative have the same x; when their y agree too, the point has order 2. -/
theorem pointAdd_pointNeg {p : Nat} (hp : p % 2 = 1) (a : Nat) (P : Triple) :
    pointAdd p a P (pointNeg p (P.reduce p)) = Triple.infinity := by
  have pos : 0 < p := by omega
  by_cases hz : P.z % p = 0
  case pos =>
    have negative : pointNeg p (P.reduce p) = Triple.infinity :=
      norm_of_infinity (by simpa using hz)
    rw [pointAdd_of_left_infinity hz, negative, norm_infinity]
  case neg =>
    rw [pointNeg_of_finite hz, pointAdd_reduce_right]
    have finite : (P.negative p).z % p ≠ 0 := hz
    have sameX : (((P.negative p).x : Int) * P.z - P.x * (P.negative p).z) % p = 0 := by
      simp [Triple.negative]
    by_cases hu : (((P.negative p).y : Int) * P.z - P.y * (P.negative p).z) % p = 0
    case pos =>
      rw [pointAdd_of_same_point pos hz finite hu sameX]
      have ownNegative : -(P.y * P.z : ZMod p) = P.y * P.z := by
        simpa [Triple.negative, cast_sub_mod pos, sub_eq_zero] using
          (intCast_eq_zero_iff_emod p _).mpr hu
      exact pointDouble_of_order_two pos hz
        (((ZMod.neg_eq_self_iff _).mp ownNegative).resolve_right (by omega))
    case neg => exact pointAdd_of_same_x pos hz finite hu sameX

/-! ### Every body's value is a normal form or holds residues -/

theorem pointDouble_below {p : Nat} (hp : 1 < p) (a : Nat) (P : Triple) :
    (pointDouble p a P).Below p := by
  by_cases hz : P.z % p = 0
  case pos => exact pointDouble_of_infinity hz a ▸ infinity_below hp
  case neg =>
    have value : pointDouble p a P = Triple.norm p _ := if_neg hz
    exact value ▸ norm_below hp _

theorem pointAdd_below {p : Nat} (hp : 1 < p) (a : Nat) (P Q : Triple) :
    (pointAdd p a P Q).Below p := by
  simp only [pointAdd]
  split
  case isTrue => exact norm_below hp _
  split
  case isTrue => exact norm_below hp _
  split
  case isFalse => exact norm_below hp _
  split
  case isTrue => exact pointDouble_below hp a _
  case isFalse => exact infinity_below hp

/-! ### The loop of PMUL (R278) -/

/-- The running point Q after the first iterations of R278's loop over W bits. -/
def scanned (W p a k : Nat) (P : Triple) : Nat → Triple
  | 0 => Triple.infinity
  | i + 1 =>
    let Q := pointDouble p a (scanned W p a k P i)
    if k.testBit (W - 1 - i) then pointAdd p a Q P else Q

/-- With n bits left, the loop goes on from the running point after W - n iterations. -/
theorem pointLadder_scanned {W n : Nat} (hn : n ≤ W) (p a k : Nat) (P : Triple) :
    pointLadder p a k P n (scanned W p a k P (W - n)) = scanned W p a k P W := by
  induction n with
  | zero => rfl
  | succ n ih =>
    have bit : W - 1 - (W - (n + 1)) = n := by omega
    rw [← ih (by omega), show W - n = W - (n + 1) + 1 by omega, scanned, bit]
    rfl

theorem pointMul_eq_scanned (W p a k : Nat) (P : Triple) :
    pointMul W p a k P = scanned W p a k P W := by
  have start := pointLadder_scanned (le_refl W) p a k P
  rwa [Nat.sub_self] at start

theorem scanned_below {p : Nat} (hp : 1 < p) (W a k : Nat) (P : Triple) (i : Nat) :
    (scanned W p a k P i).Below p := by
  cases i with
  | zero => exact infinity_below hp
  | succ i =>
    simp only [scanned]
    split
    case isTrue => exact pointAdd_below hp a _ P
    case isFalse => exact pointDouble_below hp a _

theorem pointMul_below {p : Nat} (hp : 1 < p) (W a k : Nat) (P : Triple) :
    (pointMul W p a k P).Below p :=
  pointMul_eq_scanned W p a k P ▸ scanned_below hp W a k P W

@[simp] theorem pointDouble_infinity (p a : Nat) :
    pointDouble p a Triple.infinity = Triple.infinity := pointDouble_of_infinity (Nat.zero_mod p) a

@[simp] theorem pointAdd_infinity_left (p a : Nat) (P : Triple) :
    pointAdd p a Triple.infinity P = P.norm p := pointAdd_of_left_infinity (Nat.zero_mod p) a P

theorem pointAdd_infinity_right (p a : Nat) (P : Triple) :
    pointAdd p a P Triple.infinity = P.norm p := by
  by_cases hz : P.z % p = 0
  case pos =>
    rw [pointAdd_of_left_infinity hz, norm_of_infinity hz, norm_infinity]
  case neg => exact pointAdd_of_right_infinity hz (Nat.zero_mod p)

/-- The loop stays at infinity as long as every point it adds is infinity. -/
theorem pointLadder_stays_infinity {p k n : Nat} {P : Triple}
    (h : ∀ i < n, k.testBit i → P.z % p = 0) (a : Nat) :
    pointLadder p a k P n Triple.infinity = Triple.infinity := by
  induction n with
  | zero => rfl
  | succ n ih =>
    have rest := ih fun i hi => h i (by omega)
    simp only [pointLadder, pointDouble_infinity, pointAdd_infinity_left]
    split
    case isTrue bit => rw [norm_of_infinity (h n (by omega) bit), rest]
    case isFalse => exact rest

/-- The scalar 1 adds the point once, in the last iteration. -/
theorem pointLadder_one (p a n : Nat) (P : Triple) :
    pointLadder p a 1 P (n + 1) Triple.infinity = P.norm p := by
  induction n with
  | zero => simp [pointLadder]
  | succ n ih =>
    have bit : Nat.testBit 1 (n + 1) = false := by simp [Nat.testBit_succ]
    rw [pointLadder]
    simpa [bit] using ih

/-! ### PAFF and PVALID -/

theorem pointAffine_of_infinity {p : Nat} {P : Triple} (h : P.z % p = 0) (W : Nat) :
    pointAffine W p P = Triple.infinity := if_pos h

/-- PAFF scales by the power of Z that MODINV computes (R279). -/
theorem pointAffine_of_finite {W p : Nat} {P : Triple} (hW : p < 2 ^ W) (hz : P.z % p ≠ 0) :
    pointAffine W p P =
      { x := P.x * P.z ^ (p - 2) % p, y := P.y * P.z ^ (p - 2) % p, z := 1 } := by
  refine (if_neg hz).trans ?_
  rw [modExp_eq_pow ((Nat.sub_le p 2).trans_lt hW)]
  simp [Nat.mul_mod, Nat.pow_mod]

theorem pointAffine_below {W p : Nat} (hp : 1 < p) (hW : p < 2 ^ W) (P : Triple) :
    (pointAffine W p P).Below p := by
  have pos : 0 < p := by omega
  by_cases hz : P.z % p = 0
  case pos => exact pointAffine_of_infinity hz W ▸ infinity_below hp
  case neg =>
    rw [pointAffine_of_finite hW hz]
    exact ⟨Nat.mod_lt _ pos, Nat.mod_lt _ pos, hp⟩

/-- For a prime p the affine coordinate is the quotient by Z: multiplied by Z it gives back the
projective one (R279). -/
theorem affine_coordinate_mul {p z : Nat} (hp : p.Prime) (hz : z % p ≠ 0) (x : Nat) :
    x * z ^ (p - 2) % p * z % p = x % p := by
  have inverse : z * (z ^ (p - 2) % p) % p = 1 :=
    mul_pow_sub_two_mod hp (mt Nat.mod_eq_zero_of_dvd hz)
  calc x * z ^ (p - 2) % p * z % p = x * (z * (z ^ (p - 2) % p) % p) % p := by
        rw [Nat.mod_mul_mod, Nat.mul_mod_mod, ← Nat.mul_assoc x z, Nat.mul_mod_mod,
          Nat.mul_right_comm]
    _ = x % p := by rw [inverse, Nat.mul_one]

/-- PVALID's test is the projective curve equation, for integers that a and b stand for (R280). -/
theorem pointOnCurve_iff {p a b : Nat} {A B : Int} (ha : (a : ZMod p) = A) (hb : (b : ZMod p) = B)
    (P : Triple) : pointOnCurve p a b P = true ↔ (P.z : Int) % p ≠ 0 ∧
      ((P.y : Int) ^ 2 * P.z - (P.x ^ 3 + A * P.x * P.z ^ 2 + B * P.z ^ 3)) % p = 0 := by
  rw [← intCast_eq_zero_iff_emod, pointOnCurve, Bool.and_eq_true, beq_iff_eq, bne_iff_ne,
    ← ZMod.natCast_eq_natCast_iff']
  refine and_congr ?finite ?equation
  case finite => norm_cast
  case equation => simp [ha, hb, sub_eq_zero]

/-! ## The shared ends of the point commands -/

theorem curveOk_iff (s : State) : s.curveOk = true ↔ GoodCurve s := by
  simp [State.curveOk, GoodCurve]

theorem GoodCurve.one_lt {s : State} (good : GoodCurve s) : 1 < s.curveP :=
  Nat.lt_of_succ_lt good.2

theorem GoodCurve.pos {s : State} (good : GoodCurve s) : 0 < s.curveP :=
  Nat.zero_lt_of_lt good.2

section
variable {i : Instr} {s : State} {r : Result}
  (h : exec i s = if s.curveOk then r else raiseError .modulus s)
include h

theorem exec_of_goodCurve (good : GoodCurve s) : exec i s = r :=
  h.trans (if_pos ((curveOk_iff s).mpr good))

theorem raises_of_not_goodCurve (bad : ¬ GoodCurve s) : Raises .modulus i s :=
  raises_of_eq (h.trans (if_neg (mt (curveOk_iff s).mp bad)))

end

theorem point_below (s : State) (i : PointIx) : (s.point i).Below (2 ^ s.width) :=
  ⟨wideValue_lt _ _, wideValue_lt _ _, wideValue_lt _ _⟩

/-- A triple of W-bit numbers is read back as it was written (R15). -/
theorem point_setPoint_same {s : State} {P : Triple} (hP : P.Below (2 ^ s.width)) (d : PointIx) :
    (s.setPoint d P).point d = P := by
  obtain ⟨hx, hy, hz⟩ := hP
  rw [point_setPoint, if_pos rfl, Nat.mod_eq_of_lt hx, Nat.mod_eq_of_lt hy, Nat.mod_eq_of_lt hz]

/-- The command completes with P in point register d, and INF says whether P is infinity (R272). -/
def WritesPoint (i : Instr) (d : PointIx) (P : Triple) (s : State) : Prop :=
  ∃ t, Runs i { points := [d], inf := true } s t ∧ t.point d = P ∧
    (t.flags.inf = true ↔ (t.point d).z = 0)

/-- The shared end of the point commands writes a triple of W-bit numbers as it is. -/
theorem writesPoint_of_exec {i : Instr} {s : State} {d : PointIx} {P : Triple}
    (h : exec i s = completeOk (writePoint d P s)) (hP : P.Below (2 ^ s.width)) :
    WritesPoint i d P s := by
  have value : (finish .ok (writePoint d P s)).point d = P := point_setPoint_same hP d
  exact ⟨_, runs_writePoint h, value, by simp [value, infOf]⟩

/-- The same for a command that checks the curve and writes residues. -/
theorem writesPoint_of_residues {i : Instr} {s : State} {d : PointIx} {P : Triple}
    (good : GoodCurve s)
    (h : exec i s = if s.curveOk then completeOk (writePoint d P s) else raiseError .modulus s)
    (hP : P.Below s.curveP) : WritesPoint i d P s :=
  writesPoint_of_exec (exec_of_goodCurve h good) (hP.mono (curveP_lt s).le)

/-- A command whose body copies a point and writes no flag. -/
theorem runs_setPoint {i : Instr} {s : State} {d : PointIx} {P : Triple}
    (h : exec i s = completeOk (s.setPoint d P)) :
    Runs i { points := [d] } s (finish .ok (s.setPoint d P)) := by
  refine ⟨h, finish_completed rfl, { finish_frame .ok s with points := fun j hj => ?_ }⟩
  have : (d : Nat) ≠ j := fun e => hj (List.mem_singleton.mpr (Fin.ext e.symm))
  simp [this]

/-- A command whose body writes VALID alone. -/
theorem runs_setValid {i : Instr} {s : State} {b : Bool}
    (h : exec i s = completeOk (s.setValid b)) :
    Runs i { valid := true } s (finish .ok (s.setValid b)) :=
  ⟨h, finish_completed rfl, { finish_frame .ok s with valid := fun h => nomatch h }⟩

theorem Runs.curveP {i : Instr} {τ : Touch} {s t : State} (h : Runs i τ s t) :
    t.curveP = s.curveP := by
  obtain ⟨-, -, frame⟩ := h
  rw [State.curveP, State.curveP, frame.config, frame.cp]

theorem Runs.goodCurve {i : Instr} {τ : Touch} {s t : State} (h : Runs i τ s t)
    (good : GoodCurve s) : GoodCurve t := by
  rwa [GoodCurve, h.curveP]

/-- A run that writes one point register keeps the value of every other. -/
theorem Runs.point_of_ne {i : Instr} {d j : PointIx} {s t : State}
    (h : Runs i { points := [d], inf := true } s t) (hj : j ≠ d) : t.point j = s.point j := by
  obtain ⟨-, -, frame⟩ := h
  rw [State.point, State.point, frame.config, frame.points j (by simpa using hj)]

/-- The engine's a stands for the contents of CA mod p (R271). -/
theorem cast_curveA (s : State) :
    (s.curveA : ZMod s.curveP) = ((wideValue s.config s.ca : Int) : ZMod s.curveP) := by
  simp [State.curveA]

theorem cast_curveB (s : State) :
    (s.curveB : ZMod s.curveP) = ((wideValue s.config s.cb : Int) : ZMod s.curveP) := by
  simp [State.curveB]

/-! ## The statements -/

theorem pinf_writesPoint (d : PointIx) (s : State) :
    WritesPoint (.pinf d) d Triple.infinity s :=
  writesPoint_of_exec rfl
    (infinity_below (Nat.one_lt_two_pow (Nat.ne_zero_of_lt (width_pos s.config))))

/-- Settles O29: both results are W-bit numbers already, so they are read back as written. -/
theorem pinfAndPmovWriteAPoint : Obligations.PinfAndPmovWriteAPoint := by
  intro d a s
  refine ⟨decode_commandWord rfl rfl, decode_commandWord rfl rfl, ?pinf, ?pmov⟩
  case pinf =>
    obtain ⟨t, run, value, inf⟩ := pinf_writesPoint d s
    exact ⟨t, run, value, inf.mpr (by rw [value]; rfl)⟩
  case pmov => exact ⟨_, runs_setPoint rfl, point_setPoint_same (point_below s a) d⟩

theorem exec_pneg (d a : PointIx) (s : State) : exec (.pneg d a) s = if s.curveOk then
    completeOk (writePoint d (pointNeg s.curveP ((s.point a).reduce s.curveP)) s)
    else raiseError .modulus s := rfl

theorem pneg_writesPoint {s : State} (good : GoodCurve s) (d a : PointIx) :
    WritesPoint (.pneg d a) d (pointNeg s.curveP ((s.point a).reduce s.curveP)) s :=
  writesPoint_of_residues good (exec_pneg d a s) (norm_below good.one_lt _)

/-- Settles O30: on reduced coordinates PNEG's value is the normal form of the integers
(X, -Y, Z). -/
theorem pnegNegatesY : Obligations.PnegNegatesY := by
  intro d a s
  refine ⟨decode_commandWord rfl rfl, fun good => ?good,
    raises_of_not_goodCurve (exec_pneg d a s)⟩
  exact pointNeg_reduce good.pos (s.point a) ▸ pneg_writesPoint good d a

theorem exec_pdbl (d a : PointIx) (s : State) : exec (.pdbl d a) s = if s.curveOk then
    completeOk (writePoint d (pointDouble s.curveP s.curveA (s.point a)) s)
    else raiseError .modulus s := rfl

theorem pdbl_writesPoint {s : State} (good : GoodCurve s) (d a : PointIx) :
    WritesPoint (.pdbl d a) d (pointDouble s.curveP s.curveA (s.point a)) s :=
  writesPoint_of_residues good (exec_pdbl d a s) (pointDouble_below good.one_lt ..)

/-- Settles O31: the engine's a is CA mod p, so its formulas stand for the integer ones. -/
theorem pdblDoublesAPoint : Obligations.PdblDoublesAPoint := by
  intro d a s
  refine ⟨decode_commandWord rfl rfl, fun good => ?good,
    raises_of_not_goodCurve (exec_pdbl d a s)⟩
  obtain ⟨t, run, value, inf⟩ := pdbl_writesPoint good d a
  refine ⟨t, run, fun hz => value.trans (pointDouble_of_infinity hz _), fun hz => ?finite, inf⟩
  exact ⟨_, _, _, _, _, _, _, rfl, rfl, rfl, rfl, rfl, rfl, rfl,
    value.trans (pointDouble_of_finite good.pos hz (cast_curveA s) rfl rfl rfl rfl)⟩

theorem exec_padd (d a b : PointIx) (s : State) : exec (.padd d a b) s = if s.curveOk then
    completeOk (writePoint d (pointAdd s.curveP s.curveA (s.point a) (s.point b)) s)
    else raiseError .modulus s := rfl

theorem padd_writesPoint {s : State} (good : GoodCurve s) (d a b : PointIx) :
    WritesPoint (.padd d a b) d (pointAdd s.curveP s.curveA (s.point a) (s.point b)) s :=
  writesPoint_of_residues good (exec_padd d a b s) (pointAdd_below good.one_lt ..)

/-- Settles O32: each case of R277 is one of the body's, since u, v and the Z coordinates are 0
mod p over the integers exactly when the engine's residues are 0. -/
theorem paddAddsTwoPoints : Obligations.PaddAddsTwoPoints := by
  intro d a b s
  refine ⟨decode_commandWord rfl rfl, fun good => ?good,
    raises_of_not_goodCurve (exec_padd d a b s)⟩
  obtain ⟨t, run, value, inf⟩ := padd_writesPoint good d a b
  refine ⟨t, run, inf, _, _, _, _, _, _, _, _, rfl, rfl, rfl, rfl, rfl, rfl, rfl, rfl, ?_⟩
  simp only [Ne, ← Int.natCast_emod, Int.natCast_eq_zero, value, ← norm_eq_normalised_self]
  refine ⟨fun hP => pointAdd_of_left_infinity hP _ _,
    fun hP hQ => pointAdd_of_right_infinity hP hQ,
    fun hP hQ => ⟨fun hu hv => ?samePoint, fun hu hv => pointAdd_of_same_x good.pos hP hQ hu hv,
      fun hv => ⟨_, _, rfl, rfl, pointAdd_of_finite good.pos hP hQ rfl rfl hv rfl rfl⟩⟩⟩
  case samePoint =>
    obtain ⟨t', ⟨doubled, -⟩, value', -⟩ := pdbl_writesPoint good d a
    exact ⟨t', doubled, by rw [value', pointAdd_of_same_point good.pos hP hQ hu hv]⟩

theorem exec_pmul (d : PointIx) (a : Slot) (b : PointIx) (s : State) :
    exec (.pmul d a b) s = if s.curveOk then
      completeOk (writePoint d (pointMul s.width s.curveP s.curveA (s.slot a) (s.point b)) s)
      else raiseError .modulus s := rfl

theorem pmul_writesPoint {s : State} (good : GoodCurve s) (d : PointIx) (a : Slot) (b : PointIx) :
    WritesPoint (.pmul d a b) d (pointMul s.width s.curveP s.curveA (s.slot a) (s.point b)) s :=
  writesPoint_of_residues good (exec_pmul d a b s) (pointMul_below good.one_lt ..)

/-- Settles O33: the points Q are the loop's running points. -/
theorem pmulScansEveryBit : Obligations.PmulScansEveryBit := by
  intro d a b s
  refine ⟨decode_commandWord rfl rfl, fun good => ?good,
    raises_of_not_goodCurve (exec_pmul d a b s)⟩
  obtain ⟨t, run, value, inf⟩ := pmul_writesPoint good d a b
  exact ⟨t, run, inf, scanned s.width s.curveP s.curveA (s.slot a) (s.point b), rfl,
    fun i _ => rfl, value.trans (pointMul_eq_scanned ..)⟩

theorem exec_paff (d a : PointIx) (s : State) : exec (.paff d a) s = if s.curveOk then
    completeOk (writePoint d (pointAffine s.width s.curveP (s.point a)) s)
    else raiseError .modulus s := rfl

/-- Settles O34: the ladder computes Z^(p-2), which Fermat makes the inverse of Z for a prime p. -/
theorem paffDividesByZ : Obligations.PaffDividesByZ := by
  intro d a s
  refine ⟨decode_commandWord rfl rfl, fun good => ?good,
    raises_of_not_goodCurve (exec_paff d a s)⟩
  obtain ⟨t, run, value, inf⟩ :=
    writesPoint_of_residues good (exec_paff d a s) (pointAffine_below good.one_lt (curveP_lt s) _)
  refine ⟨t, run, inf, fun hz => value.trans (pointAffine_of_infinity hz _), fun hz => ?finite⟩
  rw [value, pointAffine_of_finite (curveP_lt s) hz]
  exact ⟨rfl, fun prime =>
    ⟨affine_coordinate_mul prime hz _, affine_coordinate_mul prime hz _⟩⟩

theorem exec_pvalid (a : PointIx) (s : State) : exec (.pvalid a) s = if s.curveOk then
    completeOk (s.setValid (pointOnCurve s.curveP s.curveA s.curveB (s.point a)))
    else raiseError .modulus s := rfl

/-- Settles O35: PVALID writes VALID alone, with the test of the curve equation. -/
theorem pvalidTestsTheCurve : Obligations.PvalidTestsTheCurve := by
  intro a s
  refine ⟨decode_commandWord rfl rfl, fun good => ?good,
    raises_of_not_goodCurve (exec_pvalid a s)⟩
  exact ⟨_, runs_setValid (exec_of_goodCurve (exec_pvalid a s) good),
    _, _, _, _, _, rfl, rfl, rfl, rfl, rfl,
    pointOnCurve_iff (cast_curveA s) (cast_curveB s) (s.point a)⟩

/-- Settles O36: PADD reads the point that the command before left alone, and infinity or the
point's negative beside it. -/
theorem paddHasIdentityAndInverse : Obligations.PaddHasIdentityAndInverse := by
  intro d e a b s t u good hd he
  refine ⟨fun hpinf hpadd => ?identity, fun hpneg hpadd => ?inverse⟩
  case identity =>
    obtain ⟨run, value, -⟩ := runs_of_exec (pinf_writesPoint d s) hpinf
    obtain ⟨-, sum, -⟩ := runs_of_exec (padd_writesPoint (run.goodCurve good) b a d) hpadd
    rw [sum, value, run.point_of_ne hd.symm, run.curveP, ← norm_eq_normalised_self]
    exact pointAdd_infinity_right ..
  case inverse =>
    obtain ⟨run, value, -⟩ := runs_of_exec (pneg_writesPoint good e a) hpneg
    obtain ⟨-, sum, -⟩ := runs_of_exec (padd_writesPoint (run.goodCurve good) b a e) hpadd
    rw [sum, value, run.point_of_ne he.symm, run.curveP]
    exact pointAdd_pointNeg good.1 _ _

/-- Settles O37: with the scalar 0 or the point infinity the loop never leaves infinity, and with
the scalar 1 only its last iteration adds the point. -/
theorem pmulByZeroOneAndOfInfinity : Obligations.PmulByZeroOneAndOfInfinity := by
  intro d a b s t good hpmul
  obtain ⟨-, value, -⟩ := runs_of_exec (pmul_writesPoint good d a b) hpmul
  rw [value, ← norm_eq_normalised_self, pointMul]
  refine ⟨fun hk => ?zero, fun hk => ?one, fun hz => ?infinity⟩
  case zero => exact pointLadder_stays_infinity (by simp [hk]) _
  case one =>
    obtain ⟨n, hn⟩ : ∃ n, s.width = n + 1 :=
      Nat.exists_eq_add_one_of_ne_zero (Nat.ne_zero_of_lt (width_pos s.config))
    rw [hk, hn]
    exact pointLadder_one ..
  case infinity => exact pointLadder_stays_infinity (fun _ _ _ => hz) _

end Sys2Proof.Machine
end

section
/-! PROOFS. The byte field of AES: its multiplication is bilinear and associative, and the S-box is
the affine transform of the inverse. -/

namespace Sys2Proof.Machine

/-! ## Multiplication is bilinear -/

/-- The doubling step of the loop: one shift, reduced by 0x11B (R311). -/
def gfDouble (x : Byte) : Byte := if x.getLsbD 7 then (x <<< 1) ^^^ 0x1B else x <<< 1

theorem gfmulLoop_succ (k : Nat) (x y r : Byte) : gfmulLoop (k + 1) x y r =
    gfmulLoop k (gfDouble x) (y >>> 1) (if y.getLsbD 0 then r ^^^ x else r) := rfl

/-- A summand that occurs on both sides of a sum cancels. -/
theorem xor_xor_xor_cancel (x y z : Byte) : (x ^^^ z) ^^^ (y ^^^ z) = x ^^^ y := by
  calc (x ^^^ z) ^^^ (y ^^^ z) = (x ^^^ y) ^^^ (z ^^^ z) := by ac_rfl
    _ = x ^^^ y := by rw [BitVec.xor_self, BitVec.xor_zero]

/-- Adding `z` under the sum of two conditions is adding it under each. -/
theorem ite_xor_bits (c d : Bool) (x y z : Byte) :
    (if c ^^ d then (x ^^^ y) ^^^ z else x ^^^ y) =
      (if c then x ^^^ z else x) ^^^ (if d then y ^^^ z else y) := by
  cases c with
  | false =>
    cases d with
    | false => rfl
    | true => exact BitVec.xor_assoc x y z
  | true =>
    cases d with
    | false => exact (by ac_rfl : (x ^^^ y) ^^^ z = (x ^^^ z) ^^^ y)
    | true => exact (xor_xor_xor_cancel x y z).symm

theorem gfDouble_xor (x y : Byte) : gfDouble (x ^^^ y) = gfDouble x ^^^ gfDouble y := by
  rw [gfDouble, BitVec.getLsbD_xor, BitVec.shiftLeft_xor_distrib]
  exact ite_xor_bits ..

theorem gfmulLoop_xor_left (k : Nat) (x x' y r r' : Byte) :
    gfmulLoop k (x ^^^ x') y (r ^^^ r') = gfmulLoop k x y r ^^^ gfmulLoop k x' y r' := by
  induction k generalizing x x' y r r' with
  | zero => rfl
  | succ k ih =>
    rw [gfmulLoop_succ, gfmulLoop_succ, gfmulLoop_succ, gfDouble_xor, ← ih]
    congr 1
    split
    · ac_rfl
    · rfl

theorem gfmulLoop_xor_right (k : Nat) (x y y' r r' : Byte) :
    gfmulLoop k x (y ^^^ y') (r ^^^ r') = gfmulLoop k x y r ^^^ gfmulLoop k x y' r' := by
  induction k generalizing x y y' r r' with
  | zero => rfl
  | succ k ih =>
    rw [gfmulLoop_succ, gfmulLoop_succ, gfmulLoop_succ, BitVec.ushiftRight_xor_distrib, ← ih,
      BitVec.getLsbD_xor, ite_xor_bits]

theorem gfmul_xor_left (x x' y : Byte) : gfmul (x ^^^ x') y = gfmul x y ^^^ gfmul x' y :=
  gfmulLoop_xor_left 8 x x' y 0 0

theorem gfmul_xor_right (x y y' : Byte) : gfmul x (y ^^^ y') = gfmul x y ^^^ gfmul x y' :=
  gfmulLoop_xor_right 8 x y y' 0 0

/-! ## Multiplication is associative -/

/-- The byte with bit i set alone. -/
def bitByte (i : Fin 8) : Byte := BitVec.twoPow 8 i

/-- A byte is the sum of its bits. -/
theorem xor_bits (x : Byte) :
    (List.finRange 8).foldr (fun i sum => (x &&& bitByte i) ^^^ sum) 0 = x := by
  revert x
  decide +kernel

/-- What holds of the one-bit bytes and of sums holds of every byte. -/
theorem byte_xor_induction {P : Byte → Prop} (bit : ∀ i, P (bitByte i))
    (xor : ∀ x y, P x → P y → P (x ^^^ y)) (x : Byte) : P x := by
  have zero : P 0 := by simpa using xor _ _ (bit 0) (bit 0)
  have masked (i : Fin 8) : P (x &&& bitByte i) := by
    rw [bitByte, BitVec.and_twoPow]
    split
    · exact bit i
    · exact zero
  rw [← xor_bits x]
  induction List.finRange 8 with
  | nil => exact zero
  | cons i l ih => exact xor _ _ (masked i) ih

/-- By bilinearity only products of one-bit bytes have to be computed. -/
theorem gfmul_assoc (x y z : Byte) : gfmul (gfmul x y) z = gfmul x (gfmul y z) := by
  have bits : ∀ i j k, gfmul (gfmul (bitByte i) (bitByte j)) (bitByte k) =
      gfmul (bitByte i) (gfmul (bitByte j) (bitByte k)) := by decide +kernel
  induction x using byte_xor_induction with
  | xor x x' ih ih' => simp only [gfmul_xor_left, ih, ih']
  | bit i =>
    induction y using byte_xor_induction with
    | xor y y' ih ih' => simp only [gfmul_xor_left, gfmul_xor_right, ih, ih']
    | bit j =>
      induction z using byte_xor_induction with
      | xor z z' ih ih' => simp only [gfmul_xor_right, ih, ih']
      | bit k => exact bits i j k

@[simp] theorem one_gfmul (x : Byte) : gfmul 1#8 x = x := by
  revert x
  decide +kernel

@[simp] theorem gfmul_one (x : Byte) : gfmul x 1#8 = x := by
  revert x
  decide +kernel

@[simp] theorem zero_gfmul (x : Byte) : gfmul 0#8 x = 0#8 := by
  revert x
  decide +kernel

/-! ## Powers -/

theorem gfpow_add (b : Byte) (m n : Nat) : gfpow b (m + n) = gfmul (gfpow b m) (gfpow b n) := by
  induction n with
  | zero => exact (gfmul_one _).symm
  | succ n ih => rw [← Nat.add_assoc, gfpow, gfpow, ih, gfmul_assoc]

/-- One digit 1 of a square-and-multiply power of b. -/
def gfSquareTimes (b x : Byte) : Byte := gfmul (gfmul x x) b

theorem gfSquareTimes_iterate (b : Byte) (k : Nat) :
    (gfSquareTimes b)^[k] b = gfpow b (2 ^ (k + 1) - 1) := by
  induction k with
  | zero => exact (one_gfmul b).symm
  | succ k ih =>
    have exponent : 2 ^ (k + 1 + 1) - 1 = (2 ^ (k + 1) - 1) + (2 ^ (k + 1) - 1) + 1 := by
      have := Nat.two_pow_pos k
      omega
    rw [Function.iterate_succ_apply', ih, exponent, gfpow, gfpow_add, gfSquareTimes]

/-- The inverse b^254 by squaring: 254 = 2·127, and 127 has seven digits 1 (R312). -/
theorem gfinv_eq_square (b : Byte) :
    gfinv b = gfmul ((gfSquareTimes b)^[6] b) ((gfSquareTimes b)^[6] b) := by
  rw [gfSquareTimes_iterate]
  exact gfpow_add b 127 127

/-! ## The S-box -/

/-- The table of R312 is what its construction says; the inverse is computed by squaring. -/
theorem sbox_eq_affine_gfinv (b : Byte) : sbox b = affine (gfinv b) := by
  rw [gfinv_eq_square]
  revert b
  decide +kernel

theorem affine_getLsbD (x : Byte) {i : Nat} (hi : i < 8) : (affine x).getLsbD i = affineBit x i := by
  simp only [affine, BitVec.getLsbD_append, BitVec.getLsbD_ofBool]
  interval_cases i <;> simp

@[simp] theorem invSbox_sbox (b : Byte) : invSbox (sbox b) = b := by
  revert b
  decide +kernel

/-- On a finite set a left inverse is a right inverse too (R313). -/
@[simp] theorem sbox_invSbox (b : Byte) : sbox (invSbox b) = b :=
  Function.LeftInverse.rightInverse_of_card_le invSbox_sbox le_rfl b

/-- Settles O38: the S-box is the model's affine transform of its b^254, bit by bit; the tables are
compared byte by byte. -/
theorem sboxIsTheAffineInverse : Obligations.SboxIsTheAffineInverse := by
  refine ⟨fun b i hi => ?bits, fun b => ⟨invSbox_sbox b, sbox_invSbox b⟩, by decide⟩
  case bits =>
    rw [sbox_eq_affine_gfinv, affine_getLsbD _ hi, affineBit, gfinv]
    ac_rfl

end Sys2Proof.Machine
end

section
/-! PROOFS. The AES transforms on cells, and what undoes each of them. -/

namespace Sys2Proof.Machine

/-! ## The transforms on cells -/

@[simp] theorem cell_subBytes (x : Block) (r c : Fin 4) :
    cell (subBytes x) r c = sbox (cell x r c) := cell_blockOfCells ..

@[simp] theorem cell_invSubBytes (x : Block) (r c : Fin 4) :
    cell (invSubBytes x) r c = invSbox (cell x r c) := cell_blockOfCells ..

@[simp] theorem cell_shiftRows (x : Block) (r c : Fin 4) :
    cell (shiftRows x) r c = cell x r (c + r) := cell_blockOfCells ..

@[simp] theorem cell_invShiftRows (x : Block) (r c : Fin 4) :
    cell (invShiftRows x) r c = cell x r (c - r) := cell_blockOfCells ..

@[simp] theorem cell_mixColumns (x : Block) (r c : Fin 4) : cell (mixColumns x) r c =
    mixByte r (cell x 0 c) (cell x 1 c) (cell x 2 c) (cell x 3 c) := cell_blockOfCells ..

@[simp] theorem cell_invMixColumns (x : Block) (r c : Fin 4) : cell (invMixColumns x) r c =
    invMixByte r (cell x 0 c) (cell x 1 c) (cell x 2 c) (cell x 3 c) := cell_blockOfCells ..

theorem cell_addRoundKey (rk : Vector KeyWord 44) (k : Fin 11) (x : Block) (r c : Fin 4) :
    cell (addRoundKey rk k x) r c =
      cell x r c ^^^ keyWordByte rk[4 * k.val + c.val] r := by
  rw [addRoundKey, cell_blockXor, roundKey, cell_blockOfCells]

/-- Settles O39: each transform is built from its cells; the column of a row shift is the sum or
difference modulo 4. -/
theorem aesTransformsActOnCells : Obligations.AesTransformsActOnCells := by
  intro x rk k r c
  refine ⟨rfl, cell_subBytes x r c, cell_invSubBytes x r c, cell_shiftRows x r c, ?invShift,
    cell_mixColumns x 0 c, cell_mixColumns x 1 c, cell_mixColumns x 2 c, cell_mixColumns x 3 c,
    cell_invMixColumns x 0 c, cell_invMixColumns x 1 c, cell_invMixColumns x 2 c,
    cell_invMixColumns x 3 c, ?roundKey⟩
  case invShift =>
    have column : c - r = Fin.ofNat 4 (c + 4 - r) := by
      apply Fin.ext
      rw [Fin.val_sub, Fin.val_ofNat]
      omega
    rw [cell_invShiftRows, column]
  case roundKey => rw [cell_addRoundKey, getElem!_pos rk _ (by omega), keyWordByte]

/-! ## What undoes each transform -/

theorem invSubBytes_subBytes (x : Block) : invSubBytes (subBytes x) = x :=
  cell_ext fun r c => by simp

theorem invShiftRows_shiftRows (x : Block) : invShiftRows (shiftRows x) = x :=
  cell_ext fun r c => by simp

/-! ### MixColumns as a matrix over GF(2^8) -/

/-- A row of coefficients times a column. -/
def rowTimes (m s : Fin 4 → Byte) : Byte :=
  gfmul (m 0) (s 0) ^^^ gfmul (m 1) (s 1) ^^^ gfmul (m 2) (s 2) ^^^ gfmul (m 3) (s 3)

/-- Row r of the matrix of MixColumns: each row is the one above, rotated (R318). -/
def mixRow (r c : Fin 4) : Byte := ![2, 3, 1, 1] (c - r)

/-- Row r of the matrix of InvMixColumns (R318). -/
def invMixRow (r c : Fin 4) : Byte := ![0x0e, 0x0b, 0x0d, 0x09] (c - r)

theorem mixByte_eq_rowTimes (r : Fin 4) (s : Fin 4 → Byte) :
    mixByte r (s 0) (s 1) (s 2) (s 3) = rowTimes (mixRow r) s := by
  fin_cases r <;> simp [mixByte, rowTimes, mixRow]

theorem invMixByte_eq_rowTimes (r : Fin 4) (s : Fin 4 → Byte) :
    invMixByte r (s 0) (s 1) (s 2) (s 3) = rowTimes (invMixRow r) s := by
  fin_cases r <;> rfl

/-- A row times (a matrix times a column) is (the row times the matrix) times the column. -/
theorem rowTimes_assoc (a : Fin 4 → Byte) (m : Fin 4 → Fin 4 → Byte) (s : Fin 4 → Byte) :
    rowTimes a (fun i => rowTimes (m i) s) = rowTimes (fun j => rowTimes a fun i => m i j) s := by
  simp only [rowTimes, gfmul_xor_left, gfmul_xor_right, gfmul_assoc]
  ac_rfl

/-- The matrices of MixColumns and InvMixColumns multiply to the identity (R318). -/
theorem invMixRow_rowTimes_mixRow (r c : Fin 4) :
    rowTimes (invMixRow r) (fun i => mixRow i c) = if c = r then 1 else 0 := by
  revert r c
  decide

theorem rowTimes_identity (r : Fin 4) (s : Fin 4 → Byte) :
    rowTimes (fun c => if c = r then 1 else 0) s = s r := by
  fin_cases r <;> simp [rowTimes]

theorem invMixColumns_mixColumns (x : Block) : invMixColumns (mixColumns x) = x := by
  refine cell_ext fun r c => ?_
  rw [cell_invMixColumns, invMixByte_eq_rowTimes r fun i => cell (mixColumns x) i c]
  calc rowTimes (invMixRow r) (fun i => cell (mixColumns x) i c)
      = rowTimes (invMixRow r) (fun i => rowTimes (mixRow i) fun j => cell x j c) := by
        simp only [cell_mixColumns, ← mixByte_eq_rowTimes]
    _ = cell x r c := by
        simp only [rowTimes_assoc, invMixRow_rowTimes_mixRow, rowTimes_identity]

/-! ## What undoes a round and the cipher -/

/-- A round's decryption step undoes its encryption step, whatever the round key (R326). -/
theorem decRound_encRound (rk : Vector KeyWord 44) (r : Fin 11) (x : Block) :
    decRound rk r (encRound rk r x) = x := by
  by_cases first : r = 0
  · simp only [decRound, encRound, if_pos first, addRoundKey_addRoundKey]
  by_cases middle : r ≤ 9
  · simp only [decRound, encRound, if_neg first, if_pos middle, addRoundKey_addRoundKey,
      invMixColumns_mixColumns, invShiftRows_shiftRows, invSubBytes_subBytes]
  · simp only [decRound, encRound, if_neg first, if_neg middle, addRoundKey_addRoundKey,
      invShiftRows_shiftRows, invSubBytes_subBytes]

/-- The last round's step is undone first (R326). -/
theorem decryptBlock_encryptBlock (rk : Vector KeyWord 44) (x : Block) :
    decryptBlock rk (encryptBlock rk x) = x := by
  rw [decryptBlock, encryptBlock]
  induction List.finRange 11 generalizing x with
  | nil => rfl
  | cons r rs ih => rw [List.foldl_cons, List.foldr_cons, ih, decRound_encRound]

end Sys2Proof.Machine
end

section
/-! PROOFS. The AES commands: the schedule that AESKEY loads, the rounds of the others, and the known
answer. -/

namespace Sys2Proof.Machine

/-! ## Key expansion -/

/-- Each word that the expansion makes comes from the word four places back and the one before
(R315). -/
theorem expandFrom_getElem! (k i j : Nat) (a b c d : KeyWord) (hj : j < k) :
    (a :: b :: c :: d :: expandFrom k i a b c d)[j + 4]! =
      nextKeyWord (i + j) (a :: b :: c :: d :: expandFrom k i a b c d)[j]!
        (a :: b :: c :: d :: expandFrom k i a b c d)[j + 3]! := by
  induction k generalizing i j a b c d with
  | zero => omega
  | succ k ih =>
    cases j with
    | zero => rfl
    | succ j =>
      have tail := ih (i + 1) j b c d (nextKeyWord i a d) (by omega)
      rwa [Nat.add_assoc, Nat.add_comm 1 j] at tail

theorem expandKey_getElem! (key : Block) (i : Nat) : (expandKey key)[i]! = (expandList key)[i]! := by
  simp [getElem!_def, expandKey]

theorem expandKey_getElem!_of_lt (key : Block) {i : Nat} (hi : i < 4) :
    (expandKey key)[i]! = keyHead key i := by
  interval_cases i <;> rfl

/-- The recurrence of the schedule (R315). -/
theorem expandKey_getElem!_of_ge (key : Block) {i : Nat} (h4 : 4 ≤ i) (h44 : i < 44) :
    (expandKey key)[i]! = nextKeyWord i (expandKey key)[i - 4]! (expandKey key)[i - 1]! := by
  obtain ⟨j, rfl⟩ := Nat.exists_eq_add_of_le h4
  have word := expandFrom_getElem! 40 4 j (keyHead key 0) (keyHead key 1) (keyHead key 2)
    (keyHead key 3) (by omega)
  rw [Nat.add_comm j 4, ← expandList] at word
  rw [Nat.add_sub_cancel_left, show 4 + j - 1 = j + 3 by omega]
  simpa only [expandKey_getElem!] using word

/-- A schedule word has the bytes it is made of (R315). -/
theorem keyWordByte_keyWordOf (b0 b1 b2 b3 : Byte) :
    keyWordByte (keyWordOf b0 b1 b2 b3) 0 = b0 ∧ keyWordByte (keyWordOf b0 b1 b2 b3) 1 = b1 ∧
      keyWordByte (keyWordOf b0 b1 b2 b3) 2 = b2 ∧ keyWordByte (keyWordOf b0 b1 b2 b3) 3 = b3 := by
  refine ⟨?_, ?_, ?_, ?_⟩
  all_goals ext i hi; grind [keyWordByte, keyWordOf]

/-- A schedule word is made of its bytes (R315). -/
theorem keyWordOf_keyWordByte (w : KeyWord) :
    keyWordOf (keyWordByte w 0) (keyWordByte w 1) (keyWordByte w 2) (keyWordByte w 3) = w := by
  ext i hi
  grind [keyWordByte, keyWordOf]

theorem subWord_rotWord (w : KeyWord) : subWord (rotWord w) =
    keyWordOf (sbox (keyWordByte w 1)) (sbox (keyWordByte w 2)) (sbox (keyWordByte w 3))
      (sbox (keyWordByte w 0)) := by
  simp only [subWord, rotWord, keyWordByte_keyWordOf]

theorem exec_aeskey (s : State) : exec .aeskey s =
    completeOk { s with rk := expandKey s.aesKey, keyValid := true, lnv := false } := rfl

theorem aeskey_runs (s : State) : Runs .aeskey { rk := true, keyValid := true, lnv := true } s
    (finish .ok { s with rk := expandKey s.aesKey, keyValid := true, lnv := false }) :=
  ⟨exec_aeskey s, finish_completed rfl, { finish_frame .ok s with
    rk := nofun, keyValid := nofun, lnv := nofun }⟩

/-- Settles O40: the schedule is the key expansion, whose words follow the recurrence; the four
bytes of the statement are those of the word before. -/
theorem aeskeyExpandsTheKey : Obligations.AeskeyExpandsTheKey := by
  refine ⟨decodeInvertsEncode .aeskey rfl, fun s => ⟨_, aeskey_runs s, rfl, rfl,
    fun i hi => expandKey_getElem!_of_lt s.aesKey hi, fun i h4 h44 hmod => ?xored,
    fun i h4 h44 hmod => ?substituted⟩⟩
  case xored => exact (expandKey_getElem!_of_ge s.aesKey h4 h44).trans (if_neg hmod)
  case substituted =>
    refine ⟨_, _, _, _, (keyWordOf_keyWordByte _).symm, ?_⟩
    refine (expandKey_getElem!_of_ge s.aesKey h4 h44).trans ?_
    rw [nextKeyWord, if_pos hmod, subWord_rotWord]
    rfl

/-! ## The commands on AES_DATA -/

/-- AESENC, AESDEC, AESER and AESDR once their operands are checked: NOKEY without a key, else f
with the schedule on AES_DATA. -/
def cipherStep (f : Vector KeyWord 44 → Block → Block) (s : State) : Result :=
  if s.keyValid then completeOk { s with aesData := f s.rk s.aesData } else raiseError .noKey s

theorem exec_aesenc (s : State) : exec .aesenc s = cipherStep encryptBlock s := rfl

theorem exec_aesdec (s : State) : exec .aesdec s = cipherStep decryptBlock s := rfl

theorem exec_aeser {k : Imm} (h : k.toNat < 11) (s : State) :
    exec (.aeser k) s = cipherStep (fun rk => encRound rk ⟨k.toNat, h⟩) s := dif_pos h

theorem exec_aesdr {k : Imm} (h : k.toNat < 11) (s : State) :
    exec (.aesdr k) s = cipherStep (fun rk => decRound rk ⟨k.toNat, h⟩) s := dif_pos h

theorem exec_aeser_operand {k : Imm} (h : 10 < k.toNat) (s : State) :
    exec (.aeser k) s = raiseError .operand s := dif_neg (Nat.not_lt.mpr h)

theorem exec_aesdr_operand {k : Imm} (h : 10 < k.toNat) (s : State) :
    exec (.aesdr k) s = raiseError .operand s := dif_neg (Nat.not_lt.mpr h)

section
variable {i : Instr} {f : Vector KeyWord 44 → Block → Block} {s : State}
  (h : exec i s = cipherStep f s)
include h

theorem runs_of_cipherStep (key : s.keyValid = true) : Runs i { aesData := true } s
    (finish .ok { s with aesData := f s.rk s.aesData }) :=
  ⟨h.trans (if_pos key), finish_completed rfl,
    { finish_frame .ok s with aesData := nofun }⟩

theorem raises_of_cipherStep (key : s.keyValid = false) : Raises .noKey i s :=
  raises_of_eq (h.trans (if_neg (by rw [key]; decide)))

end

theorem next_unique {r : Result} {t u : State} (ht : r = .next t) (hu : r = .next u) : t = u :=
  Host.Outcome.next.inj (ht.symm.trans hu)

/-- A second step whose function undoes that of the first restores AES_DATA; without a key neither
writes it. -/
theorem cipherStep_undo {f g : Vector KeyWord 44 → Block → Block} (undo : ∀ rk x, g rk (f rk x) = x)
    {s t u : State} (ht : cipherStep f s = .next t) (hu : cipherStep g t = .next u) :
    u.aesData = s.aesData := by
  cases key : s.keyValid with
  | true =>
    obtain rfl := next_unique (if_pos key) ht
    obtain rfl := next_unique (if_pos key) hu
    exact undo _ _
  | false =>
    have noKey : ¬ s.keyValid = true := by rw [key]; decide
    obtain rfl := next_unique (if_neg noKey) ht
    obtain rfl := next_unique (if_neg noKey) hu
    rfl

/-- Settles O44: each decryption step is the inverse of its encryption step. -/
theorem aesDecryptionUndoesEncryption : Obligations.AesDecryptionUndoesEncryption := by
  intro s t u
  refine ⟨cipherStep_undo decryptBlock_encryptBlock, fun k hk ht hu => ?round⟩
  have hlt : k.toNat < 11 := Nat.lt_succ_of_le hk
  rw [exec_aeser hlt] at ht
  rw [exec_aesdr hlt] at hu
  exact cipherStep_undo (fun rk => decRound_encRound rk _) ht hu

/-! ## The rounds in their order -/

/-- The block after the rounds below n of an encryption (R321). -/
def encRounds (rk : Vector KeyWord 44) (x : Block) (n : Nat) : Block :=
  ((List.finRange 11).take n).foldl (fun y r => encRound rk r y) x

/-- The block after the rounds from 10 down to n of a decryption (R322). -/
def decRounds (rk : Vector KeyWord 44) (x : Block) (n : Nat) : Block :=
  ((List.finRange 11).drop n).foldr (fun r y => decRound rk r y) x

theorem encRounds_succ (rk : Vector KeyWord 44) (x : Block) (r : Fin 11) :
    encRounds rk x (r + 1) = encRound rk r (encRounds rk x r) := by
  have last : (List.finRange 11).take (r + 1) = (List.finRange 11).take r ++ [r] := by
    simp [List.take_add_one]
  rw [encRounds, last, List.foldl_append]
  rfl

theorem decRounds_eq (rk : Vector KeyWord 44) (x : Block) (r : Fin 11) :
    decRounds rk x r = decRound rk r (decRounds rk x (r + 1)) := by
  have first : (List.finRange 11).drop r = r :: (List.finRange 11).drop (r + 1) := by
    rw [List.drop_eq_getElem_cons (by simp)]
    simp
  rw [decRounds, first]
  rfl

/-- Settles O41: the blocks X are those between the rounds. -/
theorem aesencAndAesdecRunTheRounds : Obligations.AesencAndAesdecRunTheRounds := by
  refine ⟨decodeInvertsEncode .aesenc rfl, decodeInvertsEncode .aesdec rfl, fun s =>
    ⟨fun key => ⟨_, runs_of_cipherStep (exec_aesenc s) key, encRounds s.rk s.aesData, rfl,
        encRounds_succ _ _, rfl⟩,
      fun key => ⟨_, runs_of_cipherStep (exec_aesdec s) key, decRounds s.rk s.aesData, rfl,
        decRounds_eq _ _, rfl⟩,
      fun key => ⟨raises_of_cipherStep (exec_aesenc s) key,
        raises_of_cipherStep (exec_aesdec s) key⟩⟩⟩

/-! ## One round -/

/-- The test for a middle round, written as a test for the last (R323, R324). -/
theorem ite_middle_round (r : Fin 11) (middle last : Block) :
    (if r ≤ 9 then middle else last) = if r = 10 then last else middle := by
  have h : r ≤ 9 ↔ ¬ r = 10 := by
    revert r
    decide
  simp only [h, ite_not]

theorem encRound_eq (rk : Vector KeyWord 44) (r : Fin 11) (x : Block) : encRound rk r x =
    if r = 0 then addRoundKey rk 0 x
    else if r = 10 then addRoundKey rk 10 (shiftRows (subBytes x))
    else addRoundKey rk r (mixColumns (shiftRows (subBytes x))) := by
  rw [encRound, ite_middle_round]

theorem decRound_eq (rk : Vector KeyWord 44) (r : Fin 11) (x : Block) : decRound rk r x =
    if r = 0 then addRoundKey rk 0 x
    else if r = 10 then invSubBytes (invShiftRows (addRoundKey rk 10 x))
    else invSubBytes (invShiftRows (invMixColumns (addRoundKey rk r x))) := by
  rw [decRound, ite_middle_round]

/-- Settles O42: the round number of a word that decodes is at most 10; above it the word and the
command are refused alike, whether there is a key or not. -/
theorem aesRoundCommandsApplyOneRound : Obligations.AesRoundCommandsApplyOneRound := by
  intro k s
  have imm : BitVec.ofNat 16 k.toNat = k := by rw [BitVec.ofNat_toNat, BitVec.setWidth_eq]
  refine ⟨fun hk => ?round, fun hk => ?operand⟩
  case round =>
    have hlt : k.toNat < 11 := Nat.lt_succ_of_le hk
    refine ⟨decode_commandWord (decide_eq_true hk) (by rw [imm]; rfl),
      decode_commandWord (decide_eq_true hk) (by rw [imm]; rfl),
      fun key => ⟨⟨_, runs_of_cipherStep (exec_aeser hlt s) key, fun r hr => ?enc⟩,
        ⟨_, runs_of_cipherStep (exec_aesdr hlt s) key, fun r hr => ?dec⟩⟩,
      fun key => ⟨raises_of_cipherStep (exec_aeser hlt s) key,
        raises_of_cipherStep (exec_aesdr hlt s) key⟩⟩
    case enc =>
      obtain rfl : r = ⟨k.toNat, hlt⟩ := Fin.ext hr
      exact encRound_eq ..
    case dec =>
      obtain rfl : r = ⟨k.toNat, hlt⟩ := Fin.ext hr
      exact decRound_eq ..
  case operand =>
    have hwf : decide (k.toNat ≤ 10) = false := decide_eq_false (Nat.not_le.mpr hk)
    exact ⟨decode_commandWord_operand (i := .aeser k) hwf (by rw [imm]; rfl),
      decode_commandWord_operand (i := .aesdr k) hwf (by rw [imm]; rfl),
      raises_of_eq (exec_aeser_operand hk s), raises_of_eq (exec_aesdr_operand hk s)⟩

/-! ## The known answer -/

/-- The example of R325, with the key bytes 00..0f. -/
theorem encryptBlock_known_answer :
    encryptBlock (expandKey (blockOf fun j => BitVec.ofNat 8 j))
      (blockOf fun j => BitVec.ofNat 8 (0x11 * j)) =
    blockOfList [0x69, 0xc4, 0xe0, 0xd8, 0x6a, 0x7b, 0x04, 0x30, 0xd8, 0xcd, 0xb7, 0x80, 0x70, 0xb4,
      0xc5, 0x5a] := by decide +kernel

/-- Settles O43: the ciphertext is computed from the key and the block alone, and AESDEC undoes
AESENC. -/
theorem aesKnownAnswer : Obligations.AesKnownAnswer := by
  intro s t u v hkey hdata hload henc hdec
  have restored := (aesDecryptionUndoesEncryption t u v).1 henc hdec
  obtain rfl := next_unique (exec_aeskey s) hload
  obtain rfl := next_unique (runs_of_cipherStep (exec_aesenc _) rfl).1 henc
  refine ⟨?ciphertext, restored⟩
  show encryptBlock (expandKey s.aesKey) s.aesData = _
  rw [hkey, hdata, encryptBlock_known_answer]

end Sys2Proof.Machine
end

section
/-! PROOFS. The blocks that CCM makes of its strings, byte by byte: the MAC blocks and the counter
blocks. -/

namespace Sys2Proof.Machine

/-! ## Blocks and strings -/

theorem getD_blockBytes (b : Block) (i : Nat) : (blockBytes b).getD i 0 = blockByte b i := by
  by_cases h : i < 16
  · simp [blockBytes, h]
  · simp [blockBytes, blockByte, h]

/-- The bytes of a block of at most 16 bytes are the string, filled up with zeros. -/
theorem blockBytes_blockOfList {l : List Byte} (h : l.length ≤ 16) :
    blockBytes (blockOfList l) = l ++ List.replicate (16 - l.length) 0 := by
  apply List.ext_getElem (by simp [h])
  intro i hi _
  have hi : i < 16 := by simpa using hi
  by_cases hl : i < l.length
  · simp [blockBytes, hi, hl]
  · simp [blockBytes, hi, hl, List.getElem_append]

/-- Byte k of a string of whole blocks is byte k mod 16 of block k / 16. -/
theorem getD_flatMap_blockBytes {α : Type} (f : α → Block) (l : List α) {k : Nat}
    (h : k / 16 < l.length) :
    (l.flatMap fun x => blockBytes (f x)).getD k 0 = blockByte (f l[k / 16]) (k % 16) := by
  induction l generalizing k with
  | nil => exact absurd h (Nat.not_lt_zero _)
  | cons x l ih =>
    by_cases hk : k < 16
    · have h0 : k / 16 = 0 := Nat.div_eq_of_lt hk
      rw [List.flatMap_cons, List.getD_append _ _ _ _ (by simpa using hk), getD_blockBytes]
      simp [h0, Nat.mod_eq_of_lt hk]
    · obtain ⟨d, rfl⟩ := Nat.exists_eq_add_of_le (Nat.not_lt.mp hk)
      have hd : (16 + d) / 16 = d / 16 + 1 := by omega
      have hd' : d / 16 < l.length := by simpa [hd] using h
      rw [List.flatMap_cons, List.getD_append_right _ _ _ _ (by simp)]
      simpa [hd] using ih hd'

/-! ## The MAC blocks and the counter blocks -/

/-- The bytes of the first k blocks cut from a string that fits in them (R361). -/
theorem flatMap_cutBlocks {k : Nat} {l : List Byte} (h : l.length ≤ 16 * k) :
    (cutBlocks k l).flatMap blockBytes = l ++ List.replicate (16 * k - l.length) 0 := by
  induction k generalizing l with
  | zero =>
    obtain rfl : l = [] := List.length_eq_zero_iff.mp (by omega)
    rfl
  | succ k ih =>
    rw [cutBlocks, List.flatMap_cons, blockBytes_blockOfList (List.length_take_le 16 l),
      ih (by simp; omega)]
    rcases Nat.le_total l.length 16 with hl | hl
    · have hr : 16 * (k + 1) - l.length = (16 - l.length) + 16 * k := by omega
      simp [List.take_of_length_le hl, List.drop_of_length_le hl, hr]
    · have hr : 16 * (k + 1) - l.length = 16 * k - (l.length - 16) := by omega
      simp [hl, hr, ← List.append_assoc]

/-- A padded string, block by block, is the string with zeros up to a multiple of 16 (R361). -/
theorem flatMap_paddedBlocks (l : List Byte) : (paddedBlocks l).flatMap blockBytes =
    l ++ List.replicate ((16 - l.length % 16) % 16) 0 := by
  rw [paddedBlocks, flatMap_cutBlocks (by omega)]
  congr 2
  omega

theorem bigEndian_two (v : Nat) : bigEndian 2 v = [BitVec.ofNat 8 (v / 256), BitVec.ofNat 8 v] := by
  simp [bigEndian]

section
variable {N : List Byte} (x : Byte) (v : Nat)

/-- The nonce stands behind the first byte of B_0 and of a counter block. -/
theorem blockByte_nonce (hN : N.length ≤ 13) {i : Nat} (hi : i < N.length) :
    blockByte (blockOfList (x :: N ++ bigEndian (15 - N.length) v)) (1 + i) = N.getD i 0 := by
  rw [blockByte_blockOfList _ _ (by omega), Nat.add_comm, List.cons_append, List.getD_cons_succ,
    List.getD_append _ _ _ _ hi]

/-- The number at the end of B_0 and of a counter block, from its last byte on. -/
theorem blockByte_number (hN : N.length ≤ 13) {k : Nat} (hk : k < 15 - N.length) :
    (blockByte (blockOfList (x :: N ++ bigEndian (15 - N.length) v)) (15 - k)).toNat =
      v / 256 ^ k % 256 := by
  have hpos : 15 - k = (N.length + (15 - N.length - 1 - k)) + 1 := by omega
  rw [blockByte_blockOfList _ _ (by omega), hpos, List.cons_append, List.getD_cons_succ,
    List.getD_append_right _ _ _ _ (by omega), Nat.add_sub_cancel_left, bigEndian_getD _ _ _ hk,
    BitVec.toNat_ofNat]

end

/-- Settles O45: B_0 and the counter blocks have one format, and the later blocks are the padded
strings cut up. -/
theorem ccmBlocksAreFormatted : Obligations.CcmBlocksAreFormatted := by
  intro t j N AD P h7 h13 h4 h16
  refine ⟨?flags, ?counterFlags, fun i hi => ⟨blockByte_nonce _ _ h13 hi, blockByte_nonce _ _ h13 hi⟩,
    fun k hk => ⟨blockByte_number _ _ h13 hk, blockByte_number _ _ h13 hk⟩, fun pad hpad => ?later⟩
  case flags =>
    rw [firstBlock, blockByte_blockOfList _ _ (by decide), List.cons_append, List.getD_cons_zero,
      formatFlags, BitVec.toNat_ofNat]
    split <;> omega
  case counterFlags =>
    rw [counterBlock, blockByte_blockOfList _ _ (by decide), List.cons_append, List.getD_cons_zero,
      BitVec.toNat_ofNat]
    omega
  case later =>
    rw [laterBlocks, List.flatMap_append, flatMap_paddedBlocks, hpad P]
    split
    · rfl
    · rw [flatMap_paddedBlocks, hpad, bigEndian_two]
      rfl

end Sys2Proof.Machine
end

section
/-! PROOFS. The CCM commands: the keystream and the tag byte by byte, the checks that CCMSEAL and
CCMOPEN share, and what each command does once they pass. -/

namespace Sys2Proof.Machine

/-! ## The strings of a command -/

theorem take_blockBytes (b : Block) {n : Nat} (hn : n ≤ 16) :
    (blockBytes b).take n = (List.range n).map (blockByte b) := by
  rw [blockBytes, ← List.map_take, List.take_range, Nat.min_eq_left hn]

theorem take_blockBytes_blockOfList {l : List Byte} {n : Nat} (hl : l.length = n) (hn : n ≤ 16) :
    (blockBytes (blockOfList l)).take n = l := by
  subst hl
  rw [blockBytes_blockOfList hn, List.take_left]

theorem getD_map_range (f : Nat → Byte) (n i : Nat) :
    ((List.range n).map f).getD i 0 = if i < n then f i else 0 := by
  by_cases h : i < n
  · simp [h]
  · rw [if_neg h, List.getD_eq_default _ _ (by simpa using h)]

/-- S_1 || S_2 || ... of R363, byte by byte. -/
theorem keystream_eq (rk : Vector KeyWord 44) (N : List Byte) (len : Nat) :
    keystream rk N len = (List.range len).map fun k =>
      blockByte (encryptBlock rk (counterBlock N (k / 16 + 1))) (k % 16) := by
  apply List.ext_getElem (by simp)
  intro k hk _
  have hk : k < len := by simpa using hk
  have hb : k / 16 < (List.range ((len + 15) / 16)).length := by rw [List.length_range]; omega
  have hs := getD_flatMap_blockBytes (fun j => encryptBlock rk (counterBlock N (j + 1))) _ hb
  rw [List.getElem_range] at hs
  rw [List.getElem_map, List.getElem_range, ← hs, ← List.getD_eq_getElem _ 0, keystream,
    List.getD_eq_getElem?_getD, List.getElem?_take_of_lt hk, List.getD_eq_getElem?_getD]

/-- The last block of the chain of R364. -/
def macBlock (rk : Vector KeyWord 44) (t : Nat) (N AD P : List Byte) : Block :=
  cbcMac rk (encryptBlock rk (firstBlock t N AD P)) (laterBlocks AD P)

/-- Byte i of the tag of R364, given the last block of the chain. -/
def tagByte (rk : Vector KeyWord 44) (raw : Bool) (N : List Byte) (Y : Block) (i : Nat) : Byte :=
  if raw then blockByte Y i else blockByte Y i ^^^ blockByte (encryptBlock rk (counterBlock N 0)) i

theorem ccmTag_eq (rk : Vector KeyWord 44) {t : Nat} (ht : t ≤ 16) (raw : Bool)
    (N AD P : List Byte) : ccmTag rk t raw N AD P =
      (List.range t).map (tagByte rk raw N (macBlock rk t N AD P)) := by
  rw [ccmTag, take_blockBytes _ ht]
  cases raw with
  | true => rfl
  | false =>
    apply List.ext_getElem (by simp [ht])
    intro i _ _
    simp [xorBytes, blockBytes]
    rfl

theorem foldl_or_eq_zero (l : List Byte) (x : Byte) :
    l.foldl (· ||| ·) x = 0 ↔ x = 0 ∧ ∀ y ∈ l, y = 0 := by
  induction l generalizing x with
  | nil => simp
  | cons y l ih => rw [List.foldl_cons, ih]; simp [and_assoc]

/-- The comparison of R366 decides equality. -/
theorem tagsEqual_iff {a b : List Byte} (h : a.length = b.length) :
    tagsEqual a b = true ↔ a = b := by
  rw [tagsEqual, beq_iff_eq, foldl_or_eq_zero, xorBytes, and_iff_right rfl]
  induction a generalizing b with
  | nil => simp [List.length_eq_zero_iff.mp h.symm]
  | cons x a ih =>
    obtain ⟨y, b, rfl⟩ := List.exists_cons_of_length_eq_add_one h.symm
    rw [List.zipWith_cons_cons, List.forall_mem_cons, ih (Nat.succ.inj h), List.cons.injEq]
    exact and_congr_left' BitVec.xor_eq_zero_iff

/-! ## The inputs of a command -/

theorem GoodCcmConfig.tagLen_le {s : State} (good : GoodCcmConfig s) : s.tagLen ≤ 16 := by
  obtain ⟨htag, -⟩ := good
  have : ∀ t ∈ [4, 6, 8, 10, 12, 14, 16], t ≤ 16 := by decide
  exact this _ htag

theorem GoodCcmConfig.nonceLen_le {s : State} (good : GoodCcmConfig s) : s.nonceLen ≤ 16 := by
  obtain ⟨-, -, hnonce, -⟩ := good
  exact hnonce.trans (by decide)

theorem nonceBytes_eq {s : State} (h : s.nonceLen ≤ 16) :
    s.nonceBytes = (List.range s.nonceLen).map (blockByte s.nonce) := take_blockBytes _ h

theorem nonceBytes_length {s : State} (h : s.nonceLen ≤ 16) :
    s.nonceBytes.length = s.nonceLen := by simp [State.nonceBytes, h]

@[simp] theorem finish_tagMatches (s : State) (c : ErrorCode) :
    (finish c s).tagMatches = s.tagMatches := rfl

@[simp] theorem finish_nonceReused (s : State) (c : ErrorCode) :
    (finish c s).nonceReused = s.nonceReused := rfl

theorem adBytes_eq (s : State) : s.adBytes = (List.range s.adLen).map (Memory.read s.msgbuf) := by
  simp [State.adBytes, Memory.readRange]

/-- The payload with the keystream on it (R363); a seal writes this string, and CCMOPEN too. -/
theorem openedPayload_eq (s : State) : s.openedPayload = (List.range s.payLen).map fun k =>
    Memory.read s.msgbuf (s.adLen + k) ^^^
      blockByte (encryptBlock s.rk (counterBlock s.nonceBytes (k / 16 + 1))) (k % 16) := by
  rw [State.openedPayload, keystream_eq, State.payload, Memory.readRange, xorBytes,
    List.zipWith_map, List.zipWith_self]

theorem getD_openedPayload (s : State) {k : Nat} (hk : k < s.payLen) : s.openedPayload.getD k 0 =
    Memory.read s.msgbuf (s.adLen + k) ^^^
      blockByte (encryptBlock s.rk (counterBlock s.nonceBytes (k / 16 + 1))) (k % 16) := by
  rw [openedPayload_eq, getD_map_range, if_pos hk]

@[simp] theorem openedPayload_length (s : State) : s.openedPayload.length = s.payLen := by
  simp [State.openedPayload]

/-- The check of R365, its two nonces as byte strings. -/
theorem nonceReused_iff_bytes (s : State) : s.nonceReused = true ↔
    s.ccmCfg.nchk = true ∧ s.lnv = true ∧ bigEndianValue s.nonceBytes ≤
      bigEndianValue ((blockBytes s.lastNonce).take s.nonceLen) := by
  simp only [State.nonceReused, Bool.and_eq_true, decide_eq_true_eq, and_assoc]

/-- The check of R365 compares val of the two nonces. -/
theorem nonceReused_iff {s : State} (h : s.nonceLen ≤ 16) : s.nonceReused = true ↔
    s.ccmCfg.nchk = true ∧ s.lnv = true ∧
      nonceValue s.nonceLen s.nonce ≤ nonceValue s.nonceLen s.lastNonce := by
  rw [nonceReused_iff_bytes, bigEndianValue_take _ h, ← bigEndianValue_take s.nonce h]
  rfl

/-- With no nonce held none is used again (R365). -/
theorem nonceReused_of_not_lnv {s : State} (h : s.lnv = false) : ¬ s.nonceReused = true := by
  rw [nonceReused_iff_bytes, h]
  exact fun ⟨_, held, _⟩ => Bool.noConfusion held

/-- The comparison of R368 is equality of the whole tag. -/
theorem tagMatches_iff_bytes {s : State} (h : s.tagLen ≤ 16) : s.tagMatches = true ↔
    ccmTag s.rk s.tagLen s.ccmCfg.tagraw s.nonceBytes s.adBytes s.openedPayload =
      (blockBytes s.tag).take s.tagLen :=
  tagsEqual_iff (by simp [ccmTag_length _ h, h])

/-- The tag of R364 over the string that CCMOPEN would release is in TAG, byte by byte. -/
theorem tagMatches_iff {s : State} (h : s.tagLen ≤ 16) : s.tagMatches = true ↔
    ∀ i, i < s.tagLen → blockByte s.tag i = tagByte s.rk s.ccmCfg.tagraw s.nonceBytes
      (macBlock s.rk s.tagLen s.nonceBytes s.adBytes s.openedPayload) i := by
  rw [tagMatches_iff_bytes h, ccmTag_eq _ h, take_blockBytes _ h, List.map_inj_left]
  simp only [List.mem_range, eq_comm]

/-! ## Writing the payload region -/

theorem read_writePayload (s : State) {bs : List Byte} {k : Nat} (hk : k < bs.length) :
    Memory.read (Memory.writeRange s.msgbuf s.adLen bs) (s.adLen + k) = bs.getD k 0 := by
  rw [read_writeRange, if_pos (by omega), Nat.add_sub_cancel_left]

theorem finish_writePayload_frame (c : ErrorCode) (s : State) {bs : List Byte}
    (hb : bs.length = s.payLen) : Frame { msgLo := s.ccmAlen.toNat, msgLen := s.ccmPlen.toNat } s
      (finish c { s with msgbuf := Memory.writeRange s.msgbuf s.adLen bs }) :=
  { finish_frame c s with
    msgbuf := fun _ hj => (read_writeRange ..).trans (if_neg (hb ▸ hj)) }

/-- A range written back to where it was read gives its bytes again. -/
theorem read_writeRange_readRange (m m' : Memory) (a len j : Nat) :
    Memory.read (Memory.writeRange m' a (Memory.readRange m a len)) j =
      if a ≤ j ∧ j < a + len then Memory.read m j else Memory.read m' j := by
  rw [read_writeRange, readRange_length]
  refine ite_congr rfl (fun hj => ?_) fun _ => rfl
  have hlen : j - a < len := by omega
  have hpos : a + (j - a) = j := by omega
  simp [Memory.readRange, hlen, hpos]

/-! ## The checks that both commands make -/

/-- CCMSEAL and CCMOPEN: NOKEY and CONFIG in this order (R405), then f. -/
def ccmChecked (f : State → Result) (s : State) : Result :=
  if !s.keyValid then raiseError .noKey s
  else if !s.ccmConfigOk then raiseError .config s
  else f s

/-- A seal whose key and configuration are good: NONCE, or the sealed state. -/
def sealChecked (s : State) : Result :=
  if s.nonceReused then raiseError .nonce s else completeOk (sealState s)

/-- CCMOPEN whose key and configuration are good: the payload, or AUTH with the payload zeroed. -/
def openChecked (s : State) : Result :=
  if s.tagMatches then
    completeOk { s with msgbuf := Memory.writeRange s.msgbuf s.adLen s.openedPayload }
  else raiseError .auth (authState s)

theorem exec_ccmseal (s : State) : exec .ccmseal s = ccmChecked sealChecked s := rfl

theorem exec_ccmopen (s : State) : exec .ccmopen s = ccmChecked openChecked s := rfl

section
variable {i : Instr} {f : State → Result} {s : State} (h : exec i s = ccmChecked f s)
include h

theorem exec_of_noKey (key : s.keyValid = false) : exec i s = raiseError .noKey s :=
  h.trans (if_pos (by simp [key]))

theorem exec_of_not_goodCcmConfig (key : s.keyValid = true) (bad : ¬ GoodCcmConfig s) :
    exec i s = raiseError .config s :=
  have hc : s.ccmConfigOk = false := Bool.eq_false_iff.mpr (bad ∘ (ccmConfigOk_iff s).mp)
  (h.trans (if_neg (by simp [key]))).trans (if_pos (by simp [hc]))

theorem exec_of_goodCcmConfig (key : s.keyValid = true) (good : GoodCcmConfig s) :
    exec i s = f s :=
  have hc : s.ccmConfigOk = true := (ccmConfigOk_iff s).mpr good
  (h.trans (if_neg (by simp [key]))).trans (if_neg (by simp [hc]))

end

section
variable {s : State} (key : s.keyValid = true) (good : GoodCcmConfig s)
include key good

theorem exec_ccmseal_of_reused (reused : s.nonceReused = true) :
    exec .ccmseal s = raiseError .nonce s :=
  (exec_of_goodCcmConfig (exec_ccmseal s) key good).trans (if_pos reused)

theorem exec_ccmseal_of_fresh (fresh : ¬ s.nonceReused = true) :
    exec .ccmseal s = completeOk (sealState s) :=
  (exec_of_goodCcmConfig (exec_ccmseal s) key good).trans (if_neg fresh)

theorem exec_ccmopen_of_match (same : s.tagMatches = true) : exec .ccmopen s =
    completeOk { s with msgbuf := Memory.writeRange s.msgbuf s.adLen s.openedPayload } :=
  (exec_of_goodCcmConfig (exec_ccmopen s) key good).trans (if_pos same)

theorem exec_ccmopen_of_mismatch (differ : ¬ s.tagMatches = true) :
    exec .ccmopen s = raiseError .auth (authState s) :=
  (exec_of_goodCcmConfig (exec_ccmopen s) key good).trans (if_neg differ)

end

/-! ## CCMSEAL -/

/-- What a seal may change (R367). -/
theorem finish_sealState_frame (s : State) :
    Frame { tag := true, lastNonce := true, lnv := true,
            msgLo := s.ccmAlen.toNat, msgLen := s.ccmPlen.toNat } s (finish .ok (sealState s)) :=
  { finish_writePayload_frame .ok s (openedPayload_length s) with
    tag := nofun
    lastNonce := nofun
    lnv := nofun }

/-- A seal without error has passed its checks and answers the sealed state. -/
theorem eq_sealState_of_ok {s t : State} (hs : exec .ccmseal s = .next t) (ok : t.errCode = .ok) :
    s.keyValid = true ∧ GoodCcmConfig s ∧ t = finish .ok (sealState s) := by
  have not_raised {c : ErrorCode} (hc : c ≠ .ok) : exec .ccmseal s ≠ raiseError c s := by
    intro h
    obtain rfl := next_unique h hs
    exact hc ok
  have key : s.keyValid = true := by
    by_contra key
    exact not_raised (by decide) (exec_of_noKey (exec_ccmseal s) (Bool.eq_false_iff.mpr key))
  have good : GoodCcmConfig s := by
    by_contra bad
    exact not_raised (by decide) (exec_of_not_goodCcmConfig (exec_ccmseal s) key bad)
  have fresh : ¬ s.nonceReused = true := fun reused =>
    not_raised (by decide) (exec_ccmseal_of_reused key good reused)
  exact ⟨key, good, next_unique hs (exec_ccmseal_of_fresh key good fresh)⟩

/-- Settles O46: the checks in their order, then the sealed state read byte by byte. -/
theorem ccmsealEncryptsAndTags : Obligations.CcmsealEncryptsAndTags := by
  refine ⟨decodeInvertsEncode .ccmseal rfl, fun s =>
    ⟨fun key => raises_of_eq (exec_of_noKey (exec_ccmseal s) key),
      fun key bad => raises_of_eq (exec_of_not_goodCcmConfig (exec_ccmseal s) key bad),
      fun key good => ?_⟩⟩
  have reused := nonceReused_iff good.nonceLen_le
  refine ⟨s.nonceBytes, s.adBytes, s.payload, _, _, _, _, rfl, rfl, rfl, rfl,
    nonceBytes_eq good.nonceLen_le, adBytes_eq s, rfl,
    fun repeated => raises_of_eq (exec_ccmseal_of_reused key good (reused.mpr repeated)),
    fun fresh => ⟨finish .ok (sealState s), macBlock s.rk s.tagLen s.nonceBytes s.adBytes s.payload,
      ⟨exec_ccmseal_of_fresh key good (fresh ∘ reused.mp), finish_completed rfl,
        finish_sealState_frame s⟩,
      rfl, fun k hk => ?ciphertext, rfl, fun i hi => ?tag, fun i hi => ?lastNonce⟩⟩
  case ciphertext =>
    exact (read_writePayload s ((openedPayload_length s).symm ▸ hk)).trans (getD_openedPayload s hk)
  case tag =>
    refine (blockByte_blockOfList _ _ hi).trans ?_
    rw [ccmTag_eq _ good.tagLen_le, getD_map_range]
    rfl
  case lastNonce =>
    refine (blockByte_blockOfList _ _ hi).trans ?_
    rw [nonceBytes_eq good.nonceLen_le, getD_map_range]
    rfl

/-! ## CCMOPEN -/

/-- Settles O47: the comparison of the tags decides between the two outcomes. -/
theorem ccmopenReleasesOnlyOnMatch : Obligations.CcmopenReleasesOnlyOnMatch := by
  refine ⟨decodeInvertsEncode .ccmopen rfl, fun s =>
    ⟨fun key => raises_of_eq (exec_of_noKey (exec_ccmopen s) key),
      fun key bad => raises_of_eq (exec_of_not_goodCcmConfig (exec_ccmopen s) key bad),
      fun key good => ?_⟩⟩
  have matched := tagMatches_iff good.tagLen_le
  refine ⟨s.nonceBytes, s.adBytes, s.openedPayload, _, _, _, _,
    macBlock s.rk s.tagLen s.nonceBytes s.adBytes s.openedPayload, rfl, rfl, rfl, rfl,
    nonceBytes_eq good.nonceLen_le, adBytes_eq s, openedPayload_eq s, rfl,
    fun same => ⟨_, ⟨exec_ccmopen_of_match key good (matched.mpr same), finish_completed rfl,
      finish_writePayload_frame .ok s (openedPayload_length s)⟩, fun k hk => ?released⟩,
    fun differ => ⟨_, exec_ccmopen_of_mismatch key good (differ ∘ matched.mp),
      finish_completed rfl, finish_writePayload_frame .auth s List.length_replicate,
      fun k hk => ?zeroed⟩⟩
  case released => exact read_writePayload s ((openedPayload_length s).symm ▸ hk)
  case zeroed =>
    exact (read_writePayload s (List.length_replicate.symm ▸ hk)).trans
      (List.getD_replicate _ hk)

/-! ## A seal, and what comes after it -/

/-- Sealing leaves the associated data (R367). -/
theorem adBytes_sealState (s : State) : (sealState s).adBytes = s.adBytes :=
  readRange_writeRange_disjoint _ _ _ _ _ (.inl (Nat.zero_add _).le)

/-- The keystream taken off a sealed payload leaves the payload. -/
theorem openedPayload_sealState (s : State) : (sealState s).openedPayload = s.payload := by
  have sealed : (sealState s).payload = s.openedPayload := by
    have := readRange_writeRange s.msgbuf s.adLen s.openedPayload
    rwa [openedPayload_length] at this
  rw [State.openedPayload, sealed]
  exact xorBytes_xorBytes _ _ (by simp)

section
variable {s : State} (good : GoodCcmConfig s)
include good

/-- The tag that a seal writes is the one that CCMOPEN expects. -/
theorem tagMatches_sealState : (sealState s).tagMatches = true := by
  have len := ccmTag_length s.rk good.tagLen_le s.ccmCfg.tagraw s.nonceBytes s.adBytes s.payload
  rw [tagMatches_iff_bytes (s := sealState s) good.tagLen_le, adBytes_sealState,
    openedPayload_sealState]
  exact (take_blockBytes_blockOfList len good.tagLen_le).symm

/-- A seal records its nonce, so the check of R365 finds it again. -/
theorem nonceReused_sealState (nchk : s.ccmCfg.nchk = true) : (sealState s).nonceReused = true := by
  have recorded : (blockBytes (sealState s).lastNonce).take s.nonceLen = s.nonceBytes :=
    take_blockBytes_blockOfList (nonceBytes_length good.nonceLen_le) good.nonceLen_le
  exact (nonceReused_iff_bytes _).mpr ⟨nchk, rfl, (congrArg bigEndianValue recorded).ge⟩

end

/-- Settles O48: after a seal the tags match, and what CCMOPEN writes is the payload of before. -/
theorem ccmopenUndoesCcmseal : Obligations.CcmopenUndoesCcmseal := by
  intro s t u hseal ok hopen
  obtain ⟨key, good, rfl⟩ := eq_sealState_of_ok hseal ok
  have same : (finish .ok (sealState s)).tagMatches = true := by
    rw [finish_tagMatches, tagMatches_sealState good]
  obtain rfl := next_unique hopen (exec_ccmopen_of_match key good same)
  refine ⟨rfl, fun j => ?_⟩
  show Memory.read (Memory.writeRange (sealState s).msgbuf s.adLen (sealState s).openedPayload) j = _
  rw [openedPayload_sealState, State.payload, read_writeRange_readRange]
  split
  · rfl
  · exact (finish_sealState_frame s).msgbuf j ‹_›

/-- Settles O49: the seal records its nonce and sets LNV, and AESKEY clears LNV. -/
theorem repeatedNonceIsRefused : Obligations.RepeatedNonceIsRefused := by
  intro s t u v nchk hseal ok hkey hagain
  obtain ⟨key, good, rfl⟩ := eq_sealState_of_ok hseal ok
  have reused : (finish .ok (sealState s)).nonceReused = true := by
    rw [finish_nonceReused, nonceReused_sealState good nchk]
  refine ⟨raises_of_eq (exec_ccmseal_of_reused key good reused), ?_⟩
  obtain rfl := next_unique (exec_aeskey _) hkey
  obtain rfl := next_unique hagain
    (exec_ccmseal_of_fresh rfl good (nonceReused_of_not_lnv rfl))
  rfl

end Sys2Proof.Machine
end

section
/-! PROOFS. Exceptions: an error is precise, the engine's step completes the pending word with a
result or an error, and the writes to CMD and IRQ_STATUS. -/

namespace Sys2Proof.Machine

/-! ## AUTH comes from CCMOPEN alone -/

/-- The outcome does not report AUTH. -/
def NoAuth (r : Result) : Prop := ∀ t, r = .next t → t.errCode ≠ .auth

theorem noAuth_completeOk (u : State) : NoAuth (completeOk u) := by
  rintro _ ⟨⟩
  exact nofun

theorem noAuth_raiseError {c : ErrorCode} (hc : c ≠ .auth) (s : State) :
    NoAuth (raiseError c s) := by
  rintro _ ⟨⟩
  exact hc

/-- A meaning that makes a check does not report AUTH when neither of its branches does. -/
theorem noAuth_ite {p : Prop} [Decidable p] {a b : Result} (ha : NoAuth a) (hb : NoAuth b) :
    NoAuth (if p then a else b) := by
  split
  · exact ha
  · exact hb

/-- AESER and AESDR raise OPERAND and NOKEY. -/
theorem noAuth_aesRound {s : State} {n : Nat} (f : n < 11 → Block) :
    NoAuth (if hn : n < 11 then
        if s.keyValid then completeOk { s with aesData := f hn } else raiseError .noKey s
      else raiseError .operand s) := by
  split
  · exact noAuth_ite (noAuth_completeOk _) (noAuth_raiseError (by nofun) s)
  · exact noAuth_raiseError (by nofun) s

/-- No command but CCMOPEN reports AUTH (R400). -/
theorem exec_noAuth {i : Instr} (hi : i ≠ .ccmopen) (s : State) : NoAuth (exec i s) := by
  have done (u : State) : NoAuth (completeOk u) := noAuth_completeOk u
  have raised {c : ErrorCode} (hc : c ≠ .auth) : NoAuth (raiseError c s) := noAuth_raiseError hc s
  cases i with
  | nop | zeroize | mov | add | sub | cmpeq | cmplt | cmov | shl | shr | getbit | addmod | submod
  | pinf | pmov | aeskey => exact done _
  | mul | modred | modexp | modinv | montsetup | montmul | tomont | frommont =>
    exact noAuth_ite (raised nofun) (done _)
  | divmod => exact noAuth_ite (raised nofun) (noAuth_ite (raised nofun) (done _))
  | pneg | pdbl | padd | pmul | paff | pvalid | aesenc | aesdec =>
    exact noAuth_ite (done _) (raised nofun)
  | aeser r => exact noAuth_aesRound fun hr => encRound s.rk ⟨r.toNat, hr⟩ s.aesData
  | aesdr r => exact noAuth_aesRound fun hr => decRound s.rk ⟨r.toNat, hr⟩ s.aesData
  | ccmseal =>
    exact noAuth_ite (raised nofun) (noAuth_ite (raised nofun) (noAuth_ite (raised nofun) (done _)))
  | ccmopen => exact absurd rfl hi

/-- CCMOPEN reports AUTH only on a mismatch of the tags, after its other checks. -/
theorem exec_ccmopen_noAuth_or (s : State) :
    NoAuth (exec .ccmopen s) ∨ exec .ccmopen s = raiseError .auth (authState s) := by
  by_cases key : s.keyValid = true
  · by_cases good : GoodCcmConfig s
    · by_cases same : s.tagMatches = true
      · exact .inl (exec_ccmopen_of_match key good same ▸ noAuth_completeOk _)
      · exact .inr (exec_ccmopen_of_mismatch key good same)
    · exact .inl (exec_of_not_goodCcmConfig (exec_ccmopen s) key good ▸
        noAuth_raiseError (by nofun) s)
  · exact .inl (exec_of_noKey (exec_ccmopen s) (Bool.eq_false_iff.mpr key) ▸
      noAuth_raiseError (by nofun) s)

/-- A command that reports AUTH is CCMOPEN, and it leaves the state with the zeroed payload. -/
theorem eq_authState_of_auth {i : Instr} {s t : State} (ht : exec i s = .next t)
    (auth : t.errCode = .auth) : i = .ccmopen ∧ t = finish .auth (authState s) := by
  by_cases hi : i = .ccmopen
  · subst hi
    refine ⟨rfl, ?_⟩
    rcases exec_ccmopen_noAuth_or s with other | raised
    · exact absurd auth (other t ht)
    · exact next_unique ht raised
  · exact absurd auth (exec_noAuth hi s t ht)

theorem read_authState (s : State) {k : Nat} (hk : k < s.payLen) :
    Memory.read (authState s).msgbuf (s.adLen + k) = 0 :=
  (read_writePayload s (List.length_replicate.symm ▸ hk)).trans (List.getD_replicate _ hk)

/-- Settles O50: an error other than AUTH completes the state before the command, and AUTH the one
with the zeroed payload. -/
theorem errorsArePrecise : Obligations.ErrorsArePrecise := by
  intro i s
  obtain ⟨c, u, hu, kept, shape⟩ := exec_shape i s
  refine ⟨finish c u, hu, finish_completed kept.irqStatus, fun notOk notAuth => ?other,
    fun auth => ?auth⟩
  case other =>
    rcases shape with ok | rfl | ⟨-, auth, -⟩
    · exact absurd ok notOk
    · exact finish_frame c u
    · exact absurd auth notAuth
  case auth =>
    obtain ⟨hi, ht⟩ := eq_authState_of_auth hu auth
    rw [ht]
    exact ⟨hi, finish_writePayload_frame .auth s List.length_replicate,
      fun _ hk => read_authState s hk⟩

/-! ## The engine's turn -/

/-- The engine's step is next when the schedule says so, or when no event is left. -/
theorem step_of_engine_next {s : State} {rest : List Turn}
    (h : s.schedule = .engine :: rest ∨ (s.schedule = [] ∧ rest = [])) :
    step s = engineStep { s with schedule := rest } := by
  cases s
  rcases h with next | ⟨last, rfl⟩
  · cases next
    rfl
  · cases last
    rfl

theorem step_of_host_next {s : State} {a : Access} {rest : List Turn}
    (h : s.schedule = .host a :: rest) :
    step s = .next (hostAccess a { s with schedule := rest }) := by
  cases s
  cases h
  rfl

/-- A word that does not decode completes with the code of its check, and has no other effect
(R404). -/
theorem step_rejects {s : State} {rest : List Turn} {w : Word} {e : DecodeError}
    (next : s.schedule = .engine :: rest ∨ (s.schedule = [] ∧ rest = []))
    (pending : s.pending = some w) (he : decode w = .error e) :
    ∃ t, step s = .next t ∧ Completed (decodeErrorCode e) s t ∧
      Frame {} { s with schedule := rest } t :=
  ⟨_, (step_of_engine_next next).trans (engineStep_error pending he), finish_completed rfl,
    finish_frame _ _⟩

/-- Settles O2: the engine's turn is the engine's step, the host's turn its access. -/
theorem stepRunsTheDecodedCommand : Obligations.StepRunsTheDecodedCommand := by
  intro s rest
  refine ⟨fun next => ⟨fun w pending => ⟨fun i hi => ?runs, step_rejects next pending,
    step_rejects next pending⟩, fun idle => ?idle⟩, fun a => step_of_host_next⟩
  case runs => exact (step_of_engine_next next).trans (engineStep_ok pending hi)
  case idle => exact (step_of_engine_next next).trans (engineStep_idle idle)

/-! ## Writes to CMD and to IRQ_STATUS -/

theorem writeReg_cmd_idle {s : State} (idle : s.busy = false) (w : Word) :
    writeReg s .cmd w = accept w s := if_neg (Bool.eq_false_iff.mp idle)

theorem writeReg_cmd_busy {s : State} (busy : s.busy = true) (w : Word) :
    writeReg s .cmd w = overrun s := if_pos busy

/-- Settles O57: CMD stays open while the engine is busy, so the write is served in both cases. -/
theorem cmdWriteAcceptsOrOverruns : Obligations.CmdWriteAcceptsOrOverruns := by
  intro s w
  have write := hostAccess_write_of_open (s := s) (r := .cmd) (.inr rfl) w
  refine ⟨fun idle => ?idle, fun busy => ?busy⟩
  case idle => rwa [writeReg_cmd_idle idle] at write
  case busy => rwa [writeReg_cmd_busy busy] at write

/-- A pending bit stays set exactly when its bit is not written as 1 (R35). -/
theorem irqClear_iff (b : IrqBits) (v : Word) :
    ((irqClear b v).done = true ↔ b.done = true ∧ v.getLsbD 0 = false) ∧
    ((irqClear b v).err = true ↔ b.err = true ∧ v.getLsbD 1 = false) ∧
    ((irqClear b v).ovr = true ↔ b.ovr = true ∧ v.getLsbD 2 = false) := by
  simp only [irqClear, Bool.and_eq_true, Bool.not_eq_true', and_self]

/-- The interrupt output is the OR over the three events (R407). -/
theorem irq_iff (s : State) : irq s = true ↔ (s.irqStatus.done = true ∧ s.irqEn.done = true) ∨
    (s.irqStatus.err = true ∧ s.irqEn.err = true) ∨
    (s.irqStatus.ovr = true ∧ s.irqEn.ovr = true) := by
  simp only [irq, Bool.or_eq_true, Bool.and_eq_true, or_assoc]

/-- Settles O58: IRQ_STATUS stays open while the engine is busy, and a write clears single bits. -/
theorem interruptBitsClearAndAssert : Obligations.InterruptBitsClearAndAssert := by
  intro s v
  obtain ⟨done, err, ovr⟩ := irqClear_iff s.irqStatus v
  exact ⟨{ s with irqStatus := irqClear s.irqStatus v, response := some .writeOkay },
    (hostAccess_write_of_open (r := .irqStatus) (.inr rfl) v).symm, rfl, done, err, ovr, irq_iff s⟩

end Sys2Proof.Machine
end

section
/-! PROOFS. Reset and liveness: the reset event leaves the table of R55, and a run past the scheduled
events ends with the engine idle. -/

namespace Sys2Proof.Machine

/-! ## The reset event -/

theorem step_of_reset_next {s : State} {rest : List Turn} (h : s.schedule = .reset :: rest) :
    step s = .next (resetEvent { s with schedule := rest }) := by
  cases s
  cases h
  rfl

theorem blockByte_zeroBlock (j : Nat) : blockByte zeroBlock j = 0 := by
  simp [blockByte, zeroBlock]

/-- The slots are those that ZEROIZE leaves (R55, R161). -/
theorem resetEvent_slot (s : State) (i : Slot) : (resetEvent s).slot i = 0 :=
  zeroizeState_slot s i

/-- The point registers are those that ZEROIZE leaves (R55, R161). -/
theorem resetEvent_point (s : State) (i : PointIx) :
    (resetEvent s).point i = { x := 0, y := 0, z := 0 } :=
  zeroizeState_point s i

theorem resetEvent_roundKey (s : State) (i : Fin 44) : (resetEvent s).rk[i] = 0 :=
  Vector.getElem_replicate i.isLt

theorem irqWord_none : irqWord .none = 0 := by decide

theorem ccmCfgWord_reset : ccmCfgWord .reset = 0x0000000000010D10 := by decide

/-- STATUS shows none of the instance's parameters, so one instance stands for all. -/
theorem statusWord_resetEvent (s : State) : statusWord (resetEvent s) = 0 :=
  calc statusWord (resetEvent s)
    _ = statusWord State.reset := rfl
    _ = 0 := by decide

/-- Settles O1: words, blocks and register files by their lemmas, and every other element by the
definition of the reset state. -/
theorem resetLeavesTheTable : Obligations.ResetLeavesTheTable := by
  intro s rest next
  refine ⟨resetEvent { s with schedule := rest }, step_of_reset_next next, rfl, rfl, rfl, rfl, rfl,
    rfl, rfl, rfl, rfl, statusWord_resetEvent _, irqWord_none, irqWord_none, ccmCfgWord_reset, rfl,
    rfl, fun j _ => ?blocks, resetEvent_slot _, resetEvent_point _, rfl, rfl, rfl, fun _ => rfl,
    resetEvent_roundKey _, rfl, rfl, rfl⟩
  case blocks =>
    have zero := blockByte_zeroBlock j
    exact ⟨zero, zero, zero, zero, zero⟩

/-! ## Runs -/

theorem run_succ_of_step {s t : State} (h : step s = .next t) (k : Nat) :
    core.run (k + 1) s = core.run k t := by
  simp [Host.Core.run, core, h]

/-- Past its scheduled events and one step more the engine has nothing pending: each event uses up its
place in the schedule, and the step after the last is the engine's own. -/
theorem run_past_schedule (s : State) :
    ∃ t, core.run (s.schedule.length + 1) s = .next t ∧ t.pending = none := by
  induction events : s.schedule generalizing s with
  | nil =>
    obtain ⟨t, ht, idle, -, -⟩ := engineStep_next { s with schedule := [] }
    exact ⟨t, run_succ_of_step ((step_of_engine_next (.inr ⟨events, rfl⟩)).trans ht) 0, idle⟩
  | cons event rest ih =>
    obtain ⟨u, hu, left, -⟩ := step_next s
    have : u.schedule = rest := by rw [left, events, List.tail_cons]
    obtain ⟨t, ht, idle⟩ := ih u this
    exact ⟨t, (run_succ_of_step hu _).trans ht, idle⟩

/-- Settles O60: the run to the engine's own step after the last event meets the bound. -/
theorem acceptedCommandsComplete : Obligations.AcceptedCommandsComplete := by
  intro s
  obtain ⟨t, ht, idle⟩ := run_past_schedule s
  exact ⟨s.schedule.length + 1, t, le_rfl, ht, Option.isSome_eq_false_iff.mpr (idle ▸ rfl)⟩

end Sys2Proof.Machine
end
